-- ==== Sys2Proof/Word.lean ====
section
/-! DEFINITION. The 64-bit register word, the register index, and the field types of a command.
Rules R9, R30, R70, R92 and R94. -/

namespace Sys2Proof

/-- The content of one register (R30): every register of the core is 64 bits wide. -/
abbrev Word := BitVec 64

/-- A register index, 0x000 to 0xFFF (R70, R7). -/
abbrev RegIndex := BitVec 12

/-- A biquad slot BQ[0] to BQ[3] (R39, R92). -/
abbrev BqIndex := Fin 4

/-- A smoother slot ENV[0] to ENV[5] (R42, R92). -/
abbrev EnvIndex := Fin 6

/-- The filter kinds a design command names (R94). -/
inductive FilterKind where
  | peaking
  | lowShelf
  | highShelf
  | bandPass
  | highPass
  | lowPass
deriving DecidableEq, Repr

end Sys2Proof
end

