-- ==== Sys2Proof/Config.lean ====
section
/-! DEFINITION. What an implementation fixes and what the spec leaves open: the slot counts (R7), the five
parameter functions (R19, I1), the NaN an IEEE operation produces (R17, I3) and the platform base address
(R85, I2). The opaque constants have no body, so nothing can be proved about their values. -/

namespace Sys2Proof.Config

/-- NUM_BQ, the number of biquad slots (R7). -/
def numBq : Nat := 4

/-- NUM_ENV, the number of smoother slots (R7). -/
def numEnv : Nat := 6

/-- The IEEE operations that can produce a NaN. -/
inductive FpOp where
  | add
  | sub
  | mul
  | div
  | sqrt
deriving DecidableEq, Repr

/-- A free word for the NaN that `op` produces from its operands (R17, I3). `Fp.nanResult` forces it into
the NaN encodings and keeps every one of them possible. That it depends on the operation and its operands
alone is read from R129 and R159. DEDUCED, unsafe for a core whose payloads vary between equal operations:
log entry 4. -/
opaque nanPattern : FpOp → Word → Word → Word

/-- `fexp` of R19: a total function of which nothing is known (log entry 5). -/
opaque fexp : Word → Word

/-- `flog10` of R19 (log entry 5). -/
opaque flog10 : Word → Word

/-- `fpow10` of R19, ten to the power of its operand (log entry 5). -/
opaque fpow10 : Word → Word

/-- `fsin` of R19 (log entry 5). -/
opaque fsin : Word → Word

/-- `fcos` of R19 (log entry 5). -/
opaque fcos : Word → Word

/-- PAE_BASE, where a platform places the register space (R85, I2). No rule of the core reads it
(log entry 6). -/
opaque paeBase : Word

end Sys2Proof.Config
end

