-- ==== Sys2Proof/Machine/Float.lean ====
section
/-! DEFINITION. IEEE 754 binary64 with roundTiesToEven (R7, R13, R14, R16, R77). Every finite binary64 is a
whole number of units of 2^-1074, so each operation is computed exactly on natural numbers and rounded once
by `roundUnits` or `roundRoot`. What the standard says and the spec only refers to (the invalid cases, the
sign of an exact zero sum) is PRESUMED: log entry 20. -/

namespace Sys2Proof.Machine.Fp

/-- Bit 63 (R77). -/
def sign (w : Word) : Bool := w.getLsbD 63

/-- The biased exponent, bits 62:52 (R77). -/
def expField (w : Word) : Nat := (w.extractLsb' 52 11).toNat

/-- The fraction, bits 51:0 (R77). -/
def fracField (w : Word) : Nat := (w.extractLsb' 0 52).toNat

/-- Bits 62:0 as a number: magnitudes of non-NaN values are ordered as these numbers are. -/
def magBits (w : Word) : Nat := (w.extractLsb' 0 63).toNat

/-- The magnitude bits of infinity. -/
def infBits : Nat := 0x7FF0000000000000

/-- The word with the given sign and magnitude bits. -/
def ofMag (s : Bool) (m : Nat) : Word := BitVec.ofBool s ++ BitVec.ofNat 63 m

/-- +0.0, the all-zero pattern (R51). -/
def zero : Word := 0x0000000000000000

/-- 0.5 (R15). -/
def half : Word := 0x3FE0000000000000

/-- 1.0 (R15). -/
def one : Word := 0x3FF0000000000000

/-- 2.0 (R15). -/
def two : Word := 0x4000000000000000

/-- -2.0 (R121). -/
def negTwo : Word := 0xC000000000000000

/-- -1.0 (R151). -/
def negOne : Word := 0xBFF0000000000000

/-- 20.0 (R15). -/
def twenty : Word := 0x4034000000000000

/-- 40.0 (R15). -/
def forty : Word := 0x4044000000000000

/-- EPS, the binary64 nearest 1e-6 (R7, R15). -/
def eps : Word := 0x3EB0C6F7A0B5ED8D

/-- LEVEL_FLOOR, -120.0 (R7, R15). -/
def levelFloor : Word := 0xC05E000000000000

/-- TWO_PI, twice the binary64 nearest π (R15). -/
def twoPi : Word := 0x401921FB54442D18

def isNaN (w : Word) : Bool := decide (infBits < magBits w)

def isInf (w : Word) : Bool := decide (magBits w = infBits)

/-- `isfinite` of R14. -/
def isFinite (w : Word) : Bool := decide (magBits w < infBits)

/-- Plus or minus zero. -/
def isZero (w : Word) : Bool := decide (magBits w = 0)

/-- `-a`: flips the sign bit (R13). -/
def neg (w : Word) : Word := w ^^^ 0x8000000000000000

/-- `|a|`: clears the sign bit (R13). -/
def abs (w : Word) : Word := w &&& 0x7FFFFFFFFFFFFFFF

/-- The order of the non-NaN values as integers; both zeros are 0. -/
def orderKey (w : Word) : Int := if sign w then -(magBits w : Int) else (magBits w : Int)

/-- `a < b` of R13: false where an operand is NaN. -/
def lt (a b : Word) : Bool := !isNaN a && !isNaN b && decide (orderKey a < orderKey b)

/-- `a <= b` of R13. -/
def le (a b : Word) : Bool := !isNaN a && !isNaN b && decide (orderKey a ≤ orderKey b)

/-- `a == b` of R13: +0.0 equals -0.0, a NaN equals nothing. -/
def eq (a b : Word) : Bool := !isNaN a && !isNaN b && decide (orderKey a = orderKey b)

/-- `a > b` of R13. -/
def gt (a b : Word) : Bool := lt b a

/-- `a >= b` of R13. -/
def ge (a b : Word) : Bool := le b a

/-- `clamp(v, lo, hi)` of R14; a NaN passes through. -/
def clamp (v lo hi : Word) : Word := if lt v lo then lo else if gt v hi then hi else v

/-- `max(a, b)` of R14. -/
def max (a b : Word) : Word := if lt a b then b else a

/-- The magnitude of a finite value in units of 2^-1074. -/
def units (w : Word) : Nat :=
  if expField w = 0 then fracField w else (2 ^ 52 + fracField w) * 2 ^ (expField w - 1)

/-- The exact value of a finite value in units of 2^-1074. -/
def signedUnits (w : Word) : Int := if sign w then -(units w : Int) else (units w : Int)

/-- The magnitude bits of a significand `q`, at most 2^53, of weight 2^k units. A carry out of the
significand moves into the exponent by itself, and a magnitude beyond the largest finite one becomes
infinity (R16). -/
def packBits (k q : Nat) : Nat := Nat.min (k * 2 ^ 52 + q) infBits

/-- The magnitude bits of the binary64 nearest `n / d` units, ties to even (R13). -/
def roundUnits (n d : Nat) : Nat :=
  let k := (n / d).log2 - 52
  let unit := d * 2 ^ k
  let q := n / unit
  let r := n % unit
  if unit < 2 * r ∨ (2 * r = unit ∧ q % 2 = 1) then packBits k (q + 1) else packBits k q

/-- The largest number whose square is at most `n`, among those from `acc` up and below `acc + 2 ^ bits`. -/
def rootFrom (n : Nat) : Nat → Nat → Nat
  | 0, acc => acc
  | bits + 1, acc => if (acc + 2 ^ bits) ^ 2 ≤ n then rootFrom n bits (acc + 2 ^ bits) else rootFrom n bits acc

/-- The magnitude bits of the binary64 nearest the square root of `m`, in units, ties to even (R13). -/
def roundRoot (m : Nat) : Nat :=
  let root := rootFrom m (m.log2 / 2 + 1) 0
  let k := root.log2 - 52
  let q := root / 2 ^ k
  let mid := (2 * q + 1) * 2 ^ k
  if mid ^ 2 < 4 * m ∨ (mid ^ 2 = 4 * m ∧ q % 2 = 1) then packBits k (q + 1) else packBits k q

/-- A NaN produced by an operation: the free word of Config where that is a NaN, else one NaN encoding, so
that every NaN encoding is possible and nothing else is (R17, I3; log entry 4). -/
def nanResult (op : Config.FpOp) (a b : Word) : Word :=
  let free := Config.nanPattern op a b
  if isNaN free then free else 0x7FF8000000000000

/-- The sum of two values, `nan` standing for the NaN the operation would produce. An exact zero sum is
+0.0 unless both operands are negative zeros. -/
def sum (nan a b : Word) : Word :=
  if isNaN a || isNaN b then nan
  else if isInf a then (if isInf b && sign a != sign b then nan else a)
  else if isInf b then b
  else
    let exact := signedUnits a + signedUnits b
    if exact = 0 then ofMag (sign a && sign b) 0
    else ofMag (decide (exact < 0)) (roundUnits exact.natAbs 1)

/-- `a + b` (R13). -/
def add (a b : Word) : Word := sum (nanResult .add a b) a b

/-- `a - b` (R13): the sum with the sign of b flipped. -/
def sub (a b : Word) : Word := sum (nanResult .sub a b) a (neg b)

/-- `a * b` (R13). -/
def mul (a b : Word) : Word :=
  let s := sign a != sign b
  if isNaN a || isNaN b then nanResult .mul a b
  else if isInf a || isInf b then
    if isZero a || isZero b then nanResult .mul a b else ofMag s infBits
  else ofMag s (roundUnits (units a * units b) (2 ^ 1074))

/-- `a / b` (R13). -/
def div (a b : Word) : Word :=
  let s := sign a != sign b
  if isNaN a || isNaN b then nanResult .div a b
  else if isInf a then (if isInf b then nanResult .div a b else ofMag s infBits)
  else if isInf b then ofMag s 0
  else if isZero b then (if isZero a then nanResult .div a b else ofMag s infBits)
  else ofMag s (roundUnits (units a * 2 ^ 1074) (units b))

/-- `sqrt(a)` (R13). -/
def sqrt (a : Word) : Word :=
  if isNaN a then nanResult .sqrt a a
  else if isZero a then a
  else if sign a then nanResult .sqrt a a
  else if isInf a then a
  else ofMag false (roundRoot (units a * 2 ^ 1074))

/-- The binary64 nearest `n / d`, negative where `s` says so: how the assembler rounds a decimal literal
(R102). -/
def ofRatio (s : Bool) (n d : Nat) : Word := ofMag s (roundUnits (n * 2 ^ 1074) d)

end Sys2Proof.Machine.Fp
end

