-- ==== Sys2Proof/Syntax.lean ====
section
/-! DEFINITION. The commands of the core (R98): one constructor per row of spec/opcode_table.json. -/

namespace Sys2Proof

/-- The 19 commands of R98. A slot index carries its own bound (R92) and a filter kind is one of the six of
R94, so every `Instr` is a command the decoder accepts. There are no immediates (R96). -/
inductive Instr where
  /-- R220 -/
  | nop
  /-- R221 -/
  | reset
  /-- R222 -/
  | clrst
  /-- R224 -/
  | setfs
  /-- R125 -/
  | bqdsn (u : BqIndex) (kind : FilterKind)
  /-- R126 -/
  | bqld (u : BqIndex)
  /-- R130 -/
  | bqstep (u : BqIndex)
  /-- R131 -/
  | bqclr (u : BqIndex)
  /-- R155 -/
  | envcfg (e : EnvIndex)
  /-- R156 -/
  | envld (e : EnvIndex)
  /-- R157 -/
  | envstep (e : EnvIndex)
  /-- R158 -/
  | envclr (e : EnvIndex)
  /-- R176 -/
  | vcacfg
  /-- R177 -/
  | vcastep
  /-- R178 -/
  | vcagr
  /-- R186 -/
  | optcfg
  /-- R187 -/
  | optstep
  /-- R205 -/
  | kncfg
  /-- R206 -/
  | kneval
deriving DecidableEq, Repr

end Sys2Proof
end

