-- ==== Sys2Proof/WellFormed.lean ====
section
/-! DEFINITION. When the fields of a command word are those of a command: the checks of R99 read from the
opcode map R98, each under its own name. `Decode.lean` follows the pseudocode of R100 instead, so the two
readings can be held against each other. -/

namespace Sys2Proof

/-- The five fields of the 64-bit word written to CMD (R90), before any check. -/
structure CommandFields where
  /-- bits 63:32 -/
  upper : BitVec 32
  /-- bits 31:24 -/
  opc : BitVec 8
  /-- bits 23:20 -/
  unit : BitVec 4
  /-- bits 19:16 -/
  kind : BitVec 4
  /-- bits 15:0 -/
  lower : BitVec 16
deriving DecidableEq, Repr

/-- How many UNIT values and how many KIND values the operation code admits; none where R98 does not define
the code. -/
def opcBounds (opc : BitVec 8) : Option (Nat × Nat) :=
  if opc = 0x10#8 then some (Config.numBq, 6)
  else if opc ∈ [0x11#8, 0x12#8, 0x13#8] then some (Config.numBq, 1)
  else if opc ∈ [0x20#8, 0x21#8, 0x22#8, 0x23#8] then some (Config.numEnv, 1)
  else if opc ∈ [0x00#8, 0x01#8, 0x02#8, 0x03#8, 0x30#8, 0x31#8, 0x32#8, 0x40#8, 0x41#8, 0x50#8, 0x51#8] then
    some (1, 1)
  else none

/-- R95: bits 63:32 are zero. -/
def upperZero (f : CommandFields) : Bool := f.upper == 0

/-- R95: bits 15:0 are zero. -/
def lowerZero (f : CommandFields) : Bool := f.lower == 0

/-- R91: the operation code is one of the 19. -/
def opcDefined (f : CommandFields) : Bool := (opcBounds f.opc).isSome

/-- R92: UNIT is in the range of its command. -/
def unitInRange (f : CommandFields) : Bool :=
  match opcBounds f.opc with
  | some b => decide (f.unit.toNat < b.1)
  | none => false

/-- R93, R94: KIND is in the range of its command. -/
def kindInRange (f : CommandFields) : Bool :=
  match opcBounds f.opc with
  | some b => decide (f.kind.toNat < b.2)
  | none => false

/-- The fields are those of a command (R98, R99). -/
def fieldsWellFormed (f : CommandFields) : Bool :=
  upperZero f && lowerZero f && opcDefined f && unitInRange f && kindInRange f

end Sys2Proof
end

