-- ==== Sys2Proof/Decode.lean ====
section
/-! DEFINITION. Command encoding: the decoder of R100, total on every 64-bit word, and the encoder of R90
and R98 written from the same tables. -/

namespace Sys2Proof

/-- Why a word is no command (R99). Each of these is the error IllegalCommand (R242). -/
inductive IllegalWord where
  /-- a bit of 63:32 or 15:0 is set (R95) -/
  | reservedBits
  /-- the operation code is not in R98 (R91) -/
  | undefinedOpc
  /-- UNIT is out of range, or set on a command that takes none (R92) -/
  | badUnit
  /-- KIND is reserved, or set on a command that takes none (R93, R94) -/
  | badKind
deriving DecidableEq, Repr

/-- What decoding a word gives. -/
inductive Decoded where
  | instr (i : Instr)
  | illegal (why : IllegalWord)
deriving DecidableEq, Repr

/-- The fields of the word written to CMD (R90). -/
def fieldsOf (w : Word) : CommandFields where
  upper := w.extractLsb' 32 32
  opc := w.extractLsb' 24 8
  unit := w.extractLsb' 20 4
  kind := w.extractLsb' 16 4
  lower := w.extractLsb' 0 16

/-- The word with the given OPC, UNIT and KIND, its other bits zero (R90). -/
def commandWord (opc : BitVec 8) (unit kind : BitVec 4) : Word :=
  0#32 ++ opc ++ unit ++ kind ++ 0#16

/-- The KIND code of a filter kind (R94). -/
def kindCode : FilterKind → BitVec 4
  | .peaking => 0
  | .lowShelf => 1
  | .highShelf => 2
  | .bandPass => 3
  | .highPass => 4
  | .lowPass => 5

/-- The filter kind of a KIND code; 6 to 15 are reserved (R94). -/
def kindOfCode (c : BitVec 4) : Option FilterKind :=
  match c.toNat with
  | 0 => some .peaking
  | 1 => some .lowShelf
  | 2 => some .highShelf
  | 3 => some .bandPass
  | 4 => some .highPass
  | 5 => some .lowPass
  | _ => none

/-- A command that takes neither UNIT nor KIND (R92, R93). -/
def decodeUnitless (i : Instr) (unit kind : BitVec 4) : Decoded :=
  if unit ≠ 0 then .illegal .badUnit
  else if kind ≠ 0 then .illegal .badKind
  else .instr i

/-- A command on a biquad slot that takes no KIND (R92, R93). -/
def decodeBqSlot (f : BqIndex → Instr) (unit kind : BitVec 4) : Decoded :=
  if h : unit.toNat < 4 then
    if kind ≠ 0 then .illegal .badKind else .instr (f ⟨unit.toNat, h⟩)
  else .illegal .badUnit

/-- A command on a smoother slot (R92, R93). -/
def decodeEnvSlot (f : EnvIndex → Instr) (unit kind : BitVec 4) : Decoded :=
  if h : unit.toNat < 6 then
    if kind ≠ 0 then .illegal .badKind else .instr (f ⟨unit.toNat, h⟩)
  else .illegal .badUnit

/-- BQDSN, the one command with a KIND (R93, R94). -/
def decodeBqdsn (unit kind : BitVec 4) : Decoded :=
  if h : unit.toNat < 4 then
    match kindOfCode kind with
    | some k => .instr (.bqdsn ⟨unit.toNat, h⟩ k)
    | none => .illegal .badKind
  else .illegal .badUnit

/-- The command of an operation code (R98), its UNIT and KIND checked as R100 says. -/
def decodeOpc (opc : BitVec 8) (unit kind : BitVec 4) : Decoded :=
  match opc.toNat with
  | 0x00 => decodeUnitless .nop unit kind
  | 0x01 => decodeUnitless .reset unit kind
  | 0x02 => decodeUnitless .clrst unit kind
  | 0x03 => decodeUnitless .setfs unit kind
  | 0x10 => decodeBqdsn unit kind
  | 0x11 => decodeBqSlot .bqld unit kind
  | 0x12 => decodeBqSlot .bqstep unit kind
  | 0x13 => decodeBqSlot .bqclr unit kind
  | 0x20 => decodeEnvSlot .envcfg unit kind
  | 0x21 => decodeEnvSlot .envld unit kind
  | 0x22 => decodeEnvSlot .envstep unit kind
  | 0x23 => decodeEnvSlot .envclr unit kind
  | 0x30 => decodeUnitless .vcacfg unit kind
  | 0x31 => decodeUnitless .vcastep unit kind
  | 0x32 => decodeUnitless .vcagr unit kind
  | 0x40 => decodeUnitless .optcfg unit kind
  | 0x41 => decodeUnitless .optstep unit kind
  | 0x50 => decodeUnitless .kncfg unit kind
  | 0x51 => decodeUnitless .kneval unit kind
  | _ => .illegal .undefinedOpc

/-- Decoding (R100): total on every 64-bit word, reading nothing but the word. -/
def decode (w : Word) : Decoded :=
  if w.extractLsb' 32 32 ≠ 0 ∨ w.extractLsb' 0 16 ≠ 0 then .illegal .reservedBits
  else decodeOpc (w.extractLsb' 24 8) (w.extractLsb' 20 4) (w.extractLsb' 16 4)

/-- The operation code of a command (R98). -/
def opcOf : Instr → BitVec 8
  | .nop => 0x00
  | .reset => 0x01
  | .clrst => 0x02
  | .setfs => 0x03
  | .bqdsn _ _ => 0x10
  | .bqld _ => 0x11
  | .bqstep _ => 0x12
  | .bqclr _ => 0x13
  | .envcfg _ => 0x20
  | .envld _ => 0x21
  | .envstep _ => 0x22
  | .envclr _ => 0x23
  | .vcacfg => 0x30
  | .vcastep => 0x31
  | .vcagr => 0x32
  | .optcfg => 0x40
  | .optstep => 0x41
  | .kncfg => 0x50
  | .kneval => 0x51

/-- The UNIT field of a command (R92): its slot index, or 0. -/
def unitOf : Instr → BitVec 4
  | .bqdsn u _ | .bqld u | .bqstep u | .bqclr u => BitVec.ofNat 4 u.val
  | .envcfg e | .envld e | .envstep e | .envclr e => BitVec.ofNat 4 e.val
  | .nop | .reset | .clrst | .setfs | .vcacfg | .vcastep | .vcagr | .optcfg | .optstep | .kncfg | .kneval => 0

/-- The KIND field of a command (R93): the filter kind of BQDSN, else 0. -/
def kindFieldOf : Instr → BitVec 4
  | .bqdsn _ k => kindCode k
  | .nop | .reset | .clrst | .setfs | .bqld _ | .bqstep _ | .bqclr _ | .envcfg _ | .envld _ | .envstep _ | .envclr _
  | .vcacfg | .vcastep | .vcagr | .optcfg | .optstep | .kncfg | .kneval => 0

/-- The 64-bit word that stands for a command (R90, R98). -/
def encode (i : Instr) : Word := commandWord (opcOf i) (unitOf i) (kindFieldOf i)

/-- The mnemonic of a command (R98), as spec/opcode_table.json spells it. -/
def mnemonicOf : Instr → String
  | .nop => "NOP"
  | .reset => "RESET"
  | .clrst => "CLRST"
  | .setfs => "SETFS"
  | .bqdsn _ _ => "BQDSN"
  | .bqld _ => "BQLD"
  | .bqstep _ => "BQSTEP"
  | .bqclr _ => "BQCLR"
  | .envcfg _ => "ENVCFG"
  | .envld _ => "ENVLD"
  | .envstep _ => "ENVSTEP"
  | .envclr _ => "ENVCLR"
  | .vcacfg => "VCACFG"
  | .vcastep => "VCASTEP"
  | .vcagr => "VCAGR"
  | .optcfg => "OPTCFG"
  | .optstep => "OPTSTEP"
  | .kncfg => "KNCFG"
  | .kneval => "KNEVAL"

/-- One row of the opcode table: the bits fixed by the mask, and the ranges R98 checks separately. -/
structure OpcodeRow where
  mnemonic : String
  mask : Word
  pattern : Word
  units : Nat
  kinds : Nat
deriving DecidableEq, Repr

/-- A word is one of the row's: the masked bits match and the free fields are in range (R98). -/
def OpcodeRow.accepts (r : OpcodeRow) (w : Word) : Bool :=
  (w &&& r.mask == r.pattern) && decide ((w.extractLsb' 20 4).toNat < r.units)
    && decide ((w.extractLsb' 16 4).toNat < r.kinds)

/-- The row of a command without UNIT and KIND (R98). -/
def unitlessRow (m : String) (pattern : Word) : OpcodeRow := ⟨m, 0xFFFFFFFFFFFFFFFF, pattern, 1, 1⟩

/-- The row of a slotted command without KIND (R98). -/
def slottedRow (m : String) (pattern : Word) (units : Nat) : OpcodeRow := ⟨m, 0xFFFFFFFFFF0FFFFF, pattern, units, 1⟩

/-- The match and mask of every command (R98, spec/opcode_table.json). -/
def opcodeRows : List OpcodeRow :=
  [unitlessRow "NOP" 0x00000000, unitlessRow "RESET" 0x01000000, unitlessRow "CLRST" 0x02000000,
    unitlessRow "SETFS" 0x03000000, ⟨"BQDSN", 0xFFFFFFFFFF00FFFF, 0x10000000, Config.numBq, 6⟩,
    slottedRow "BQLD" 0x11000000 Config.numBq, slottedRow "BQSTEP" 0x12000000 Config.numBq,
    slottedRow "BQCLR" 0x13000000 Config.numBq]
  ++ [slottedRow "ENVCFG" 0x20000000 Config.numEnv, slottedRow "ENVLD" 0x21000000 Config.numEnv,
    slottedRow "ENVSTEP" 0x22000000 Config.numEnv, slottedRow "ENVCLR" 0x23000000 Config.numEnv,
    unitlessRow "VCACFG" 0x30000000, unitlessRow "VCASTEP" 0x31000000, unitlessRow "VCAGR" 0x32000000,
    unitlessRow "OPTCFG" 0x40000000, unitlessRow "OPTSTEP" 0x41000000, unitlessRow "KNCFG" 0x50000000,
    unitlessRow "KNEVAL" 0x51000000]

/-- The word a host writes to CMD for an instruction whose low `nbits` bits are `w`, the bits above zero
(R90, R102: a 32-bit command word is zero-extended). -/
def tableWord (nbits w : Nat) : Word := BitVec.ofNat 64 (w % 2 ^ nbits)

/-- The instruction the decoder reads from a word of the opcode table. A command is one 64-bit word, so
there is no order of words or bytes to choose (R77, R101). -/
def decodeTableWord (nbits w : Nat) : Option Instr :=
  match decode (tableWord nbits w) with
  | .instr i => some i
  | .illegal _ => none

/-- The bytes of a register on a bus that carries bytes: byte 0 is bits 7:0 (R77). No rule reads them. -/
def busBytes (w : Word) : List (BitVec 8) :=
  (List.range 8).map (fun k => w.extractLsb' (8 * k) 8)

/-- The word a bus that carries bytes delivers, byte 0 first (R77). -/
def wordOfBusBytes : List (BitVec 8) → Word
  | [] => 0
  | b :: rest => (wordOfBusBytes rest <<< 8) ||| b.setWidth 64

end Sys2Proof
end

