-- ==== Sys2Proof/Machine/State.lean ====
section
/-! DEFINITION. The state of one core (R30, R51) as plain data, the host's side of its interface, and the
state after reset (R270). -/

namespace Sys2Proof.Machine

/-- The registers of one biquad slot (R39, R40, R41). A0 is hardwired and not stored: log entry 9. -/
structure BqSlot where
  b0 : Word
  b1 : Word
  b2 : Word
  a1 : Word
  a2 : Word
  x1 : Word
  x2 : Word
  y1 : Word
  y2 : Word
  ctl : Word
deriving DecidableEq, Repr

/-- The registers of one smoother slot (R42, R43, R44). -/
structure EnvSlot where
  aatt : Word
  arel : Word
  prev : Word
  ctl : Word
deriving DecidableEq, Repr

/-- The four biquad slots (R39). -/
structure BqBank where
  s0 : BqSlot
  s1 : BqSlot
  s2 : BqSlot
  s3 : BqSlot
deriving DecidableEq, Repr

/-- The six smoother slots (R42). Slot 4 is the VCA's, slot 5 the optical unit's (R54). -/
structure EnvBank where
  s0 : EnvSlot
  s1 : EnvSlot
  s2 : EnvSlot
  s3 : EnvSlot
  s4 : EnvSlot
  s5 : EnvSlot
deriving DecidableEq, Repr

/-- The VCA parameter set (R46). -/
structure VcaRegs where
  th : Word
  ratio : Word
  mkup : Word
  ctl : Word
deriving DecidableEq, Repr

/-- The optical parameter set (R47). -/
structure OptRegs where
  th : Word
  ratio : Word
  mkup : Word
  tlin : Word
  mklin : Word
  ctl : Word
deriving DecidableEq, Repr

/-- The soft-knee parameter set (R48). -/
structure KneeRegs where
  th : Word
  range : Word
  red : Word
  ctl : Word
deriving DecidableEq, Repr

/-- The registers of a biquad slot by name (R51). -/
inductive BqReg where
  | b0 | b1 | b2 | a0 | a1 | a2 | x1 | x2 | y1 | y2 | ctl
deriving DecidableEq, Repr

/-- The registers of a smoother slot by name (R51). -/
inductive EnvReg where
  | aatt | arel | prev | ctl
deriving DecidableEq, Repr

/-- The VCA registers by name (R51). -/
inductive VcaReg where
  | th | ratio | mkup | ctl
deriving DecidableEq, Repr

/-- The optical registers by name (R51). -/
inductive OptReg where
  | th | ratio | mkup | tlin | mklin | ctl
deriving DecidableEq, Repr

/-- The soft-knee registers by name (R51). -/
inductive KneeReg where
  | th | range | red | ctl
deriving DecidableEq, Repr

/-- Every register of R51 by name: the NAME of the notation `x[NAME]` (R10). -/
inductive Reg where
  | cmd | status | errcmd | fs | id
  | op0 | op1 | op2 | op3 | op4 | op5
  | res0 | res1 | res2 | res3
  | bq (u : BqIndex) (r : BqReg)
  | env (e : EnvIndex) (r : EnvReg)
  | vca (r : VcaReg)
  | opt (r : OptReg)
  | knee (r : KneeReg)
deriving DecidableEq, Repr

/-- What the host may do with a register (R51). -/
inductive Access where
  /-- RW: host read and write -/
  | readWrite
  /-- RO: a host write raises IllegalWrite -/
  | readOnly
  /-- WO: a read returns 0 -/
  | writeOnly
  /-- HW: a constant; a host write raises IllegalWrite -/
  | hardwired
deriving DecidableEq, Repr

/-- The errors STATUS.ERRCODE can record (R240). -/
inductive ErrorCode where
  | invalidParameter
  | notConfigured
  | illegalCommand
  | nonFiniteInput
  | illegalWrite
deriving DecidableEq, Repr

/-- One host access (R71): a read of an index, or a write of a word to an index. -/
inductive HostAccess where
  | read (addr : RegIndex)
  | write (addr : RegIndex) (v : Word)
deriving DecidableEq, Repr

/-- The state of one core: the registers of R51 that hold a value, and two lists that belong to the host's
side of the interface (log entries 1 and 2), not to the core. -/
structure State where
  /-- STATUS (R35) -/
  status : Word
  /-- ERRCMD (R36) -/
  errcmd : Word
  /-- FS (R37) -/
  fs : Word
  op0 : Word
  op1 : Word
  op2 : Word
  op3 : Word
  op4 : Word
  op5 : Word
  res0 : Word
  res1 : Word
  res2 : Word
  res3 : Word
  bq : BqBank
  env : EnvBank
  vca : VcaRegs
  opt : OptRegs
  knee : KneeRegs
  /-- DESIGN CHOICE, safe: the accesses the host has issued and the core has not served, oldest first
  (R23, R76; log entry 1). -/
  pending : List HostAccess
  /-- DESIGN CHOICE, safe: the values the host's reads returned, oldest first: the observation of a run
  (R87; log entry 2). -/
  reads : List Word
deriving DecidableEq, Repr

/-- Why the machine stops with a fault: never. Every error of the spec is recorded in STATUS and the next
access is served normally (R244, R24), so no meaning has a reason to raise one: log entry 7. -/
inductive Fault where
deriving DecidableEq, Repr

/-- Why the model refuses an instruction. -/
inductive Refusal where
  /-- Raised by an arm of `exec` for a command that has no meaning yet. Safe. No arm raises it. -/
  | notModelled (mnemonic : String)
deriving DecidableEq, Repr

/-- A biquad slot after reset (R51). -/
def BqSlot.reset : BqSlot := ⟨0, 0, 0, 0, 0, 0, 0, 0, 0, 0⟩

/-- A smoother slot after reset (R51). -/
def EnvSlot.reset : EnvSlot := ⟨0, 0, 0, 0⟩

/-- The machine right after reset (R270, R51): every stored register is zero, so every unit is unconfigured
and FS is not set (R272). The host has issued nothing yet (R271). -/
def State.reset : State where
  status := 0
  errcmd := 0
  fs := 0
  op0 := 0
  op1 := 0
  op2 := 0
  op3 := 0
  op4 := 0
  op5 := 0
  res0 := 0
  res1 := 0
  res2 := 0
  res3 := 0
  bq := ⟨.reset, .reset, .reset, .reset⟩
  env := ⟨.reset, .reset, .reset, .reset, .reset, .reset⟩
  vca := ⟨0, 0, 0, 0⟩
  opt := ⟨0, 0, 0, 0, 0, 0⟩
  knee := ⟨0, 0, 0, 0⟩
  pending := []
  reads := []

end Sys2Proof.Machine
end

