-- ==== Sys2Proof/Machine/Flags.lean ====
section
/-! DEFINITION. The fields of STATUS and of the CTL registers, and every change of a flag
(R35, R41, R44, R244, R245, R246, R250). -/

namespace Sys2Proof.Machine

/-- The code of an error (R240). -/
def codeOf : ErrorCode → BitVec 8
  | .invalidParameter => 1
  | .notConfigured => 2
  | .illegalCommand => 3
  | .nonFiniteInput => 4
  | .illegalWrite => 5

/-- STATUS.ERR, bit 0 (R35). -/
def statusErr (w : Word) : Bool := w.getLsbD 0

/-- STATUS.OVF, bit 1 (R35). -/
def statusOvf (w : Word) : Bool := w.getLsbD 1

/-- STATUS.NF, bit 2 (R35). -/
def statusNf (w : Word) : Bool := w.getLsbD 2

/-- STATUS.ERRCODE, bits 15:8 (R35). -/
def statusCode (w : Word) : BitVec 8 := w.extractLsb' 8 8

/-- STATUS with ERRCODE written and ERR set (R244). -/
def statusWithError (w : Word) (code : BitVec 8) : Word :=
  w.extractLsb' 16 48 ++ code ++ w.extractLsb' 1 7 ++ 1#1

/-- STATUS with OVF set (R245). -/
def statusWithOvf (w : Word) : Word := w ||| 0x2

/-- STATUS with NF set (R250). -/
def statusWithNf (w : Word) : Word := w ||| 0x4

/-- STATUS after an error: the first one since the last clear is recorded, a later one sets OVF
(R244, R245). -/
def statusAfterError (w : Word) (code : BitVec 8) : Word :=
  if statusErr w then statusWithOvf w else statusWithError w code

/-- ERRCMD after an error: the information word of the first one since the last clear (R36, R244). -/
def errcmdAfterError (status errcmd info : Word) : Word :=
  if statusErr status then errcmd else info

/-- CTL.VALID, bit 0 (R41, R44 to R48). -/
def ctlValid (w : Word) : Bool := w.getLsbD 0

/-- BQ[u].CTL.KIND, bits 7:4 (R41). -/
def ctlKind (w : Word) : BitVec 4 := w.extractLsb' 4 4

/-- The CTL a successful configuration writes where there is no KIND (R155, R176, R186, R205). -/
def ctlConfigured : Word := 1

/-- The CTL a successful BQDSN or BQLD writes: `(kind << 4) | 1` (R125, R126). -/
def bqCtlConfigured (kind : BitVec 4) : Word := (kind.setWidth 64 <<< 4) ||| 1

/-- CTL with VALID cleared, the rest kept (R246). -/
def ctlInvalidated (w : Word) : Word := w &&& 0xFFFFFFFFFFFFFFFE

/-- Some value is NaN or infinite, the condition of STATUS.NF (R250). -/
def anyNonFinite (vs : List Word) : Bool := vs.any (fun v => !Fp.isFinite v)

/-- STATUS after a completed command wrote the given values (R250). -/
def statusAfterResults (w : Word) (vs : List Word) : Word :=
  if anyNonFinite vs then statusWithNf w else w

end Sys2Proof.Machine
end

