-- ==== Sys2Proof/Machine/Ops.lean ====
section
/-! DEFINITION. The shared operations: the register file by name (`x[NAME]` of R10), the register map
(R51, R85), a command's commit (R12), a command's results (R250) and raising an error (R244 to R246). -/

namespace Sys2Proof.Machine

/-- What one step answers. -/
abbrev Result := Host.Outcome State Fault Refusal

/-! ## Slots -/

/-- The registers of biquad slot `u`. -/
def BqBank.get (b : BqBank) (u : BqIndex) : BqSlot :=
  match u with
  | 0 => b.s0
  | 1 => b.s1
  | 2 => b.s2
  | 3 => b.s3

/-- Biquad slot `u` replaced. -/
def BqBank.set (b : BqBank) (u : BqIndex) (x : BqSlot) : BqBank :=
  match u with
  | 0 => { b with s0 := x }
  | 1 => { b with s1 := x }
  | 2 => { b with s2 := x }
  | 3 => { b with s3 := x }

/-- The registers of smoother slot `e`. -/
def EnvBank.get (b : EnvBank) (e : EnvIndex) : EnvSlot :=
  match e with
  | 0 => b.s0
  | 1 => b.s1
  | 2 => b.s2
  | 3 => b.s3
  | 4 => b.s4
  | 5 => b.s5

/-- Smoother slot `e` replaced. -/
def EnvBank.set (b : EnvBank) (e : EnvIndex) (x : EnvSlot) : EnvBank :=
  match e with
  | 0 => { b with s0 := x }
  | 1 => { b with s1 := x }
  | 2 => { b with s2 := x }
  | 3 => { b with s3 := x }
  | 4 => { b with s4 := x }
  | 5 => { b with s5 := x }

/-- A register of a biquad slot; A0 is hardwired to 1.0 (R39). -/
def BqSlot.reg (x : BqSlot) : BqReg → Word
  | .b0 => x.b0
  | .b1 => x.b1
  | .b2 => x.b2
  | .a0 => Fp.one
  | .a1 => x.a1
  | .a2 => x.a2
  | .x1 => x.x1
  | .x2 => x.x2
  | .y1 => x.y1
  | .y2 => x.y2
  | .ctl => x.ctl

/-- A register of a biquad slot written; the hardwired A0 keeps its value (R39). -/
def BqSlot.setReg (x : BqSlot) (r : BqReg) (v : Word) : BqSlot :=
  match r with
  | .b0 => { x with b0 := v }
  | .b1 => { x with b1 := v }
  | .b2 => { x with b2 := v }
  | .a0 => x
  | .a1 => { x with a1 := v }
  | .a2 => { x with a2 := v }
  | .x1 => { x with x1 := v }
  | .x2 => { x with x2 := v }
  | .y1 => { x with y1 := v }
  | .y2 => { x with y2 := v }
  | .ctl => { x with ctl := v }

/-- A register of a smoother slot (R42 to R44). -/
def EnvSlot.reg (x : EnvSlot) : EnvReg → Word
  | .aatt => x.aatt
  | .arel => x.arel
  | .prev => x.prev
  | .ctl => x.ctl

/-- A register of a smoother slot written. -/
def EnvSlot.setReg (x : EnvSlot) (r : EnvReg) (v : Word) : EnvSlot :=
  match r with
  | .aatt => { x with aatt := v }
  | .arel => { x with arel := v }
  | .prev => { x with prev := v }
  | .ctl => { x with ctl := v }

/-- A VCA register (R46). -/
def VcaRegs.reg (x : VcaRegs) : VcaReg → Word
  | .th => x.th
  | .ratio => x.ratio
  | .mkup => x.mkup
  | .ctl => x.ctl

/-- A VCA register written. -/
def VcaRegs.setReg (x : VcaRegs) (r : VcaReg) (v : Word) : VcaRegs :=
  match r with
  | .th => { x with th := v }
  | .ratio => { x with ratio := v }
  | .mkup => { x with mkup := v }
  | .ctl => { x with ctl := v }

/-- An optical register (R47). -/
def OptRegs.reg (x : OptRegs) : OptReg → Word
  | .th => x.th
  | .ratio => x.ratio
  | .mkup => x.mkup
  | .tlin => x.tlin
  | .mklin => x.mklin
  | .ctl => x.ctl

/-- An optical register written. -/
def OptRegs.setReg (x : OptRegs) (r : OptReg) (v : Word) : OptRegs :=
  match r with
  | .th => { x with th := v }
  | .ratio => { x with ratio := v }
  | .mkup => { x with mkup := v }
  | .tlin => { x with tlin := v }
  | .mklin => { x with mklin := v }
  | .ctl => { x with ctl := v }

/-- A soft-knee register (R48). -/
def KneeRegs.reg (x : KneeRegs) : KneeReg → Word
  | .th => x.th
  | .range => x.range
  | .red => x.red
  | .ctl => x.ctl

/-- A soft-knee register written. -/
def KneeRegs.setReg (x : KneeRegs) (r : KneeReg) (v : Word) : KneeRegs :=
  match r with
  | .th => { x with th := v }
  | .range => { x with range := v }
  | .red => { x with red := v }
  | .ctl => { x with ctl := v }

/-! ## The register file by name -/

/-- The constant of the ID register (R38): version 1, NUM_BQ 4, NUM_ENV 6. -/
def idWord : Word := 0x0000000000060401

/-- `x[NAME]` of R10. CMD holds no state and reads 0 (R34); ID and BQ[u].A0 are constants (R38, R39). -/
def State.reg (s : State) : Reg → Word
  | .cmd => 0
  | .status => s.status
  | .errcmd => s.errcmd
  | .fs => s.fs
  | .id => idWord
  | .op0 => s.op0
  | .op1 => s.op1
  | .op2 => s.op2
  | .op3 => s.op3
  | .op4 => s.op4
  | .op5 => s.op5
  | .res0 => s.res0
  | .res1 => s.res1
  | .res2 => s.res2
  | .res3 => s.res3
  | .bq u r => (s.bq.get u).reg r
  | .env e r => (s.env.get e).reg r
  | .vca r => s.vca.reg r
  | .opt r => s.opt.reg r
  | .knee r => s.knee.reg r

/-- `x[NAME] <- v` of R10. The registers that hold no state (CMD) or a constant (ID, BQ[u].A0) keep what
they read as. -/
def State.setReg (s : State) (r : Reg) (v : Word) : State :=
  match r with
  | .cmd => s
  | .status => { s with status := v }
  | .errcmd => { s with errcmd := v }
  | .fs => { s with fs := v }
  | .id => s
  | .op0 => { s with op0 := v }
  | .op1 => { s with op1 := v }
  | .op2 => { s with op2 := v }
  | .op3 => { s with op3 := v }
  | .op4 => { s with op4 := v }
  | .op5 => { s with op5 := v }
  | .res0 => { s with res0 := v }
  | .res1 => { s with res1 := v }
  | .res2 => { s with res2 := v }
  | .res3 => { s with res3 := v }
  | .bq u r => { s with bq := s.bq.set u ((s.bq.get u).setReg r v) }
  | .env e r => { s with env := s.env.set e ((s.env.get e).setReg r v) }
  | .vca r => { s with vca := s.vca.setReg r v }
  | .opt r => { s with opt := s.opt.setReg r v }
  | .knee r => { s with knee := s.knee.setReg r v }

/-- The register holds a value of its own: all but CMD, ID and BQ[u].A0. -/
def Reg.stored : Reg → Bool
  | .cmd | .id | .bq _ .a0 => false
  | _ => true

/-! ## The register map -/

/-- The offset of a register in its biquad slot block (R51). -/
def BqReg.offset : BqReg → Nat
  | .b0 => 0x0
  | .b1 => 0x1
  | .b2 => 0x2
  | .a0 => 0x3
  | .a1 => 0x4
  | .a2 => 0x5
  | .x1 => 0x6
  | .x2 => 0x7
  | .y1 => 0x8
  | .y2 => 0x9
  | .ctl => 0xA

/-- The offset of a register in its smoother slot block (R51). -/
def EnvReg.offset : EnvReg → Nat
  | .aatt => 0
  | .arel => 1
  | .prev => 2
  | .ctl => 3

/-- The register index of a register (R51). -/
def Reg.index : Reg → RegIndex
  | .cmd => 0x000
  | .status => 0x001
  | .errcmd => 0x002
  | .fs => 0x003
  | .id => 0x004
  | .op0 => 0x008
  | .op1 => 0x009
  | .op2 => 0x00A
  | .op3 => 0x00B
  | .op4 => 0x00C
  | .op5 => 0x00D
  | .res0 => 0x010
  | .res1 => 0x011
  | .res2 => 0x012
  | .res3 => 0x013
  | .bq u r => BitVec.ofNat 12 (0x100 + 0x10 * u.val + r.offset)
  | .env e r => BitVec.ofNat 12 (0x200 + 0x8 * e.val + r.offset)
  | .vca .th => 0x300
  | .vca .ratio => 0x301
  | .vca .mkup => 0x302
  | .vca .ctl => 0x303
  | .opt .th => 0x310
  | .opt .ratio => 0x311
  | .opt .mkup => 0x312
  | .opt .tlin => 0x313
  | .opt .mklin => 0x314
  | .opt .ctl => 0x315
  | .knee .th => 0x320
  | .knee .range => 0x321
  | .knee .red => 0x322
  | .knee .ctl => 0x323

/-- The register at an offset of a biquad slot block; 0xB to 0xF are unmapped (R85). -/
def bqRegAt : Nat → Option BqReg
  | 0x0 => some .b0
  | 0x1 => some .b1
  | 0x2 => some .b2
  | 0x3 => some .a0
  | 0x4 => some .a1
  | 0x5 => some .a2
  | 0x6 => some .x1
  | 0x7 => some .x2
  | 0x8 => some .y1
  | 0x9 => some .y2
  | 0xA => some .ctl
  | _ => none

/-- The register at an offset of a smoother slot block; 0x4 to 0x7 are unmapped (R85). -/
def envRegAt : Nat → Option EnvReg
  | 0 => some .aatt
  | 1 => some .arel
  | 2 => some .prev
  | 3 => some .ctl
  | _ => none

/-- The host interface registers at 0x000 to 0x0FF (R51). -/
def hostRegAt : Nat → Option Reg
  | 0x00 => some .cmd
  | 0x01 => some .status
  | 0x02 => some .errcmd
  | 0x03 => some .fs
  | 0x04 => some .id
  | 0x08 => some .op0
  | 0x09 => some .op1
  | 0x0A => some .op2
  | 0x0B => some .op3
  | 0x0C => some .op4
  | 0x0D => some .op5
  | 0x10 => some .res0
  | 0x11 => some .res1
  | 0x12 => some .res2
  | 0x13 => some .res3
  | _ => none

/-- The parameter registers at 0x300 to 0x3FF, by the low byte of the index (R51). -/
def paramRegAt : Nat → Option Reg
  | 0x00 => some (.vca .th)
  | 0x01 => some (.vca .ratio)
  | 0x02 => some (.vca .mkup)
  | 0x03 => some (.vca .ctl)
  | 0x10 => some (.opt .th)
  | 0x11 => some (.opt .ratio)
  | 0x12 => some (.opt .mkup)
  | 0x13 => some (.opt .tlin)
  | 0x14 => some (.opt .mklin)
  | 0x15 => some (.opt .ctl)
  | 0x20 => some (.knee .th)
  | 0x21 => some (.knee .range)
  | 0x22 => some (.knee .red)
  | 0x23 => some (.knee .ctl)
  | _ => none

/-- The register at an index, none where the index is unmapped (R51, R72, R85). -/
def regAt (a : RegIndex) : Option Reg :=
  let low := a.toNat % 0x100
  match a.toNat / 0x100 with
  | 0 => hostRegAt low
  | 1 => if h : low / 0x10 < 4 then (bqRegAt (low % 0x10)).map (Reg.bq ⟨low / 0x10, h⟩) else none
  | 2 => if h : low / 0x8 < 6 then (envRegAt (low % 0x8)).map (Reg.env ⟨low / 0x8, h⟩) else none
  | 3 => paramRegAt low
  | _ => none

/-- What the host may do with a register (R51, R73, R75). -/
def Reg.access : Reg → Access
  | .cmd => .writeOnly
  | .id => .hardwired
  | .op0 | .op1 | .op2 | .op3 | .op4 | .op5 => .readWrite
  | .bq _ .a0 => .hardwired
  | .bq _ .x1 | .bq _ .x2 | .bq _ .y1 | .bq _ .y2 => .readWrite
  | .env _ .prev => .readWrite
  | .status | .errcmd | .fs | .res0 | .res1 | .res2 | .res3 => .readOnly
  | .bq _ .b0 | .bq _ .b1 | .bq _ .b2 | .bq _ .a1 | .bq _ .a2 | .bq _ .ctl => .readOnly
  | .env _ .aatt | .env _ .arel | .env _ .ctl => .readOnly
  | .vca _ | .opt _ | .knee _ => .readOnly

/-- What a host read of an index returns: the register, or 0 where the index is unmapped (R71, R72). -/
def State.peek (s : State) (a : RegIndex) : Word :=
  match regAt a with
  | some r => s.reg r
  | none => 0

/-! ## Completing a command -/

/-- The writes of a command take effect together (R12): every value is given in terms of the state before. -/
def commit (ws : List (Reg × Word)) (s : State) : State :=
  ws.foldl (fun t w => t.setReg w.1 w.2) s

/-- The commit of a step or evaluation command, which also sets STATUS.NF where a written value is not
finite (R250). -/
def commitResults (ws : List (Reg × Word)) (s : State) : State :=
  { commit ws s with status := statusAfterResults s.status (ws.map Prod.snd) }

/-! ## Errors -/

/-- `raise E(info)` of R244 and R245 without the VALID bits. -/
def raise (e : ErrorCode) (info : Word) (s : State) : State :=
  { s with status := statusAfterError s.status (codeOf e), errcmd := errcmdAfterError s.status s.errcmd info }

/-- The CTL registers whose VALID bit a failing configuration command clears; none for the other commands
(R246). -/
def configuredCtls : Instr → List Reg
  | .bqdsn u _ | .bqld u => [.bq u .ctl]
  | .envcfg e | .envld e => [.env e .ctl]
  | .vcacfg => [.vca .ctl, .env 4 .ctl]
  | .optcfg => [.opt .ctl, .env 5 .ctl]
  | .kncfg => [.knee .ctl]
  | .nop | .reset | .clrst | .setfs | .bqstep _ | .bqclr _ | .envstep _ | .envclr _ | .vcastep | .vcagr | .optstep
  | .kneval => []

/-- The VALID bits of the given CTL registers cleared, their other bits kept (R246). -/
def invalidate (ctls : List Reg) (s : State) : State :=
  commit (ctls.map (fun r => (r, ctlInvalidated (s.reg r)))) s

/-- A decoded command ends with an error (R244): its information word is the word written to CMD, which is
`encode i` (R36, R90; log entry 8), and a configuration command clears its VALID bits (R246). -/
def commandError (i : Instr) (e : ErrorCode) (s : State) : Result :=
  .next (raise e (encode i) (invalidate (configuredCtls i) s))

/-- The information word of an IllegalWrite to an index (R36, R243). -/
def illegalWriteInfo (a : RegIndex) : Word := 0xFFFFFFFF#32 ++ 0#20 ++ a

end Sys2Proof.Machine
end

