-- ==== Sys2Proof/Machine/Operands.lean ====
section
/-! DEFINITION. What an operand or a computed value must satisfy: the checks of R97, R122, R126, R151,
R171, R183, R201 and R223. A non-finite value fails every one of them. -/

namespace Sys2Proof.Machine

/-- FS holds no sample rate (R37). -/
def fsNotSet (s : State) : Bool := Fp.eq (s.reg .fs) Fp.zero

/-- Finite and greater than 0.0: a sample rate (R223), Q (R122), a time constant (R151), a knee range
(R201). -/
def finitePositive (v : Word) : Bool := Fp.isFinite v && Fp.gt v Fp.zero

/-- Finite and at least 0.0: a reduction (R201), a linear threshold or makeup (R183). -/
def finiteNonNegative (v : Word) : Bool := Fp.isFinite v && Fp.ge v Fp.zero

/-- Finite and at least 1.0: a ratio (R171). -/
def legalRatio (v : Word) : Bool := Fp.isFinite v && Fp.ge v Fp.one

/-- In [0.0, 1.0]: a smoother coefficient (R151, R156). -/
def legalCoefficient (a : Word) : Bool := Fp.ge a Fp.zero && Fp.le a Fp.one

/-- Every value is finite. -/
def allFinite (vs : List Word) : Bool := vs.all Fp.isFinite

/-- Checks 2 to 4 of R122 on a design's frequency, Q and gain, at sample rate `fs`. -/
def legalDesignOperands (fs f q g : Word) : Bool :=
  Fp.isFinite f && Fp.gt f Fp.zero && Fp.lt f (Fp.div fs Fp.two) && finitePositive q && Fp.isFinite g

/-- The parameter checks of R171 on threshold, ratio, attack, release and makeup, in that order. -/
def legalDynamics (th r ta tr mk : Word) : Bool :=
  Fp.isFinite th && legalRatio r && finitePositive ta && finitePositive tr && Fp.isFinite mk

/-- The checks of R201 on threshold, range and reduction. -/
def legalKnee (th rg red : Word) : Bool := Fp.isFinite th && finitePositive rg && finiteNonNegative red

end Sys2Proof.Machine
end

