-- ==== Sys2Proof/Machine/Biquad.lean ====
section
/-! DEFINITION. The biquad commands (41_biquad.md, R120 to R131). -/

namespace Sys2Proof.Machine

/-- A coefficient set before normalization (R121, R126). -/
structure RawCoeffs where
  b0 : Word
  b1 : Word
  b2 : Word
  a0 : Word
  a1 : Word
  a2 : Word
deriving DecidableEq, Repr

/-- A coefficient set after normalization: n0, n1, n2, m1, m2 of R125 and R126. -/
structure NormCoeffs where
  n0 : Word
  n1 : Word
  n2 : Word
  m1 : Word
  m2 : Word
deriving DecidableEq, Repr

/-- ω of R120. -/
def designAngle (fs f : Word) : Word := Fp.div (Fp.mul Fp.twoPi f) fs

/-- α of R120, from sin ω. -/
def designAlpha (sw q : Word) : Word := Fp.div sw (Fp.mul Fp.two q)

/-- A of R120. -/
def designAmplitude (g : Word) : Word := Config.fpow10 (Fp.div g Fp.forty)

/-- The peaking row of R121. -/
def peakingCoeffs (alpha A cw : Word) : RawCoeffs where
  b0 := Fp.add Fp.one (Fp.mul alpha A)
  b1 := Fp.mul Fp.negTwo cw
  b2 := Fp.sub Fp.one (Fp.mul alpha A)
  a0 := Fp.add Fp.one (Fp.div alpha A)
  a1 := Fp.mul Fp.negTwo cw
  a2 := Fp.sub Fp.one (Fp.div alpha A)

/-- The low-shelf row of R121. -/
def lowShelfCoeffs (alpha A cw : Word) : RawCoeffs :=
  let t := Fp.mul (Fp.mul Fp.two (Fp.sqrt A)) alpha
  let Ap1 := Fp.add A Fp.one
  let Am1 := Fp.sub A Fp.one
  { b0 := Fp.mul A (Fp.add (Fp.sub Ap1 (Fp.mul Am1 cw)) t)
    b1 := Fp.mul (Fp.mul Fp.two A) (Fp.sub Am1 (Fp.mul Ap1 cw))
    b2 := Fp.mul A (Fp.sub (Fp.sub Ap1 (Fp.mul Am1 cw)) t)
    a0 := Fp.add (Fp.add Ap1 (Fp.mul Am1 cw)) t
    a1 := Fp.mul Fp.negTwo (Fp.add Am1 (Fp.mul Ap1 cw))
    a2 := Fp.sub (Fp.add Ap1 (Fp.mul Am1 cw)) t }

/-- The high-shelf row of R121. -/
def highShelfCoeffs (alpha A cw : Word) : RawCoeffs :=
  let t := Fp.mul (Fp.mul Fp.two (Fp.sqrt A)) alpha
  let Ap1 := Fp.add A Fp.one
  let Am1 := Fp.sub A Fp.one
  { b0 := Fp.mul A (Fp.add (Fp.add Ap1 (Fp.mul Am1 cw)) t)
    b1 := Fp.mul (Fp.mul Fp.negTwo A) (Fp.add Am1 (Fp.mul Ap1 cw))
    b2 := Fp.mul A (Fp.sub (Fp.add Ap1 (Fp.mul Am1 cw)) t)
    a0 := Fp.add (Fp.sub Ap1 (Fp.mul Am1 cw)) t
    a1 := Fp.mul Fp.two (Fp.sub Am1 (Fp.mul Ap1 cw))
    a2 := Fp.sub (Fp.sub Ap1 (Fp.mul Am1 cw)) t }

/-- The band-pass row of R121. -/
def bandPassCoeffs (alpha cw : Word) : RawCoeffs where
  b0 := alpha
  b1 := Fp.zero
  b2 := Fp.neg alpha
  a0 := Fp.add Fp.one alpha
  a1 := Fp.mul Fp.negTwo cw
  a2 := Fp.sub Fp.one alpha

/-- The high-pass row of R121. -/
def highPassCoeffs (alpha cw : Word) : RawCoeffs where
  b0 := Fp.div (Fp.add Fp.one cw) Fp.two
  b1 := Fp.neg (Fp.add Fp.one cw)
  b2 := Fp.div (Fp.add Fp.one cw) Fp.two
  a0 := Fp.add Fp.one alpha
  a1 := Fp.mul Fp.negTwo cw
  a2 := Fp.sub Fp.one alpha

/-- The low-pass row of R121. -/
def lowPassCoeffs (alpha cw : Word) : RawCoeffs where
  b0 := Fp.div (Fp.sub Fp.one cw) Fp.two
  b1 := Fp.sub Fp.one cw
  b2 := Fp.div (Fp.sub Fp.one cw) Fp.two
  a0 := Fp.add Fp.one alpha
  a1 := Fp.mul Fp.negTwo cw
  a2 := Fp.sub Fp.one alpha

/-- The raw coefficients of a kind (R121); the gain enters only the peaking and shelf kinds. -/
def rawCoeffs (kind : FilterKind) (alpha cw g : Word) : RawCoeffs :=
  match kind with
  | .peaking => peakingCoeffs alpha (designAmplitude g) cw
  | .lowShelf => lowShelfCoeffs alpha (designAmplitude g) cw
  | .highShelf => highShelfCoeffs alpha (designAmplitude g) cw
  | .bandPass => bandPassCoeffs alpha cw
  | .highPass => highPassCoeffs alpha cw
  | .lowPass => lowPassCoeffs alpha cw

/-- The design of R120 and R121 at sample rate `fs`, frequency `f`, quality `q` and gain `g`. -/
def designCoeffs (kind : FilterKind) (fs f q g : Word) : RawCoeffs :=
  let w := designAngle fs f
  rawCoeffs kind (designAlpha (Config.fsin w) q) (Config.fcos w) g

/-- Normalization by one division each (R123). -/
def normalize (c : RawCoeffs) : NormCoeffs where
  n0 := Fp.div c.b0 c.a0
  n1 := Fp.div c.b1 c.a0
  n2 := Fp.div c.b2 c.a0
  m1 := Fp.div c.a1 c.a0
  m2 := Fp.div c.a2 c.a0

/-- The divisor is finite and not zero, and every quotient is finite (check 5 of R122, R126). -/
def legalQuotients (a0 : Word) (n : NormCoeffs) : Bool :=
  Fp.isFinite a0 && !Fp.eq a0 Fp.zero && allFinite [n.n0, n.n1, n.n2, n.m1, n.m2]

/-- The commit of BQDSN and BQLD: the five coefficients and CTL of the slot, never a tap (R128). -/
def commitCoeffs (u : BqIndex) (n : NormCoeffs) (ctl : Word) (s : State) : State :=
  commit [(.bq u .b0, n.n0), (.bq u .b1, n.n1), (.bq u .b2, n.n2), (.bq u .a1, n.m1), (.bq u .a2, n.m2),
    (.bq u .ctl, ctl)] s

/-- BQDSN u, kind (R122, R125). -/
def execBqdsn (u : BqIndex) (kind : FilterKind) (s : State) : Result :=
  let f := s.reg .op0
  let q := s.reg .op1
  let g := s.reg .op2
  if fsNotSet s then commandError (.bqdsn u kind) .notConfigured s
  else if !legalDesignOperands (s.reg .fs) f q g then commandError (.bqdsn u kind) .invalidParameter s
  else
    let c := designCoeffs kind (s.reg .fs) f q g
    if !legalQuotients c.a0 (normalize c) then commandError (.bqdsn u kind) .invalidParameter s
    else .next (commitCoeffs u (normalize c) (bqCtlConfigured (kindCode kind)) s)

/-- The six operands of BQLD (R126). -/
def loadOperands (s : State) : RawCoeffs where
  b0 := s.reg .op0
  b1 := s.reg .op1
  b2 := s.reg .op2
  a0 := s.reg .op3
  a1 := s.reg .op4
  a2 := s.reg .op5

/-- Every operand of BQLD is finite (R126). -/
def legalLoadOperands (c : RawCoeffs) : Bool := allFinite [c.b0, c.b1, c.b2, c.a0, c.a1, c.a2]

/-- BQLD u (R126). -/
def execBqld (u : BqIndex) (s : State) : Result :=
  let c := loadOperands s
  if !legalLoadOperands c || Fp.eq c.a0 Fp.zero then commandError (.bqld u) .invalidParameter s
  else if !legalQuotients c.a0 (normalize c) then commandError (.bqld u) .invalidParameter s
  else .next (commitCoeffs u (normalize c) (bqCtlConfigured 0xF) s)

/-- The output of one Direct Form I step (R127), in the order written there. -/
def bqOutput (u : BqIndex) (x : Word) (s : State) : Word :=
  let acc0 := Fp.mul (s.reg (.bq u .b0)) x
  let acc1 := Fp.add acc0 (Fp.mul (s.reg (.bq u .b1)) (s.reg (.bq u .x1)))
  let acc2 := Fp.add acc1 (Fp.mul (s.reg (.bq u .b2)) (s.reg (.bq u .x2)))
  let acc3 := Fp.sub acc2 (Fp.mul (s.reg (.bq u .a1)) (s.reg (.bq u .y1)))
  Fp.sub acc3 (Fp.mul (s.reg (.bq u .a2)) (s.reg (.bq u .y2)))

/-- BQSTEP u (R130). -/
def execBqstep (u : BqIndex) (s : State) : Result :=
  let x := s.reg .op0
  if !ctlValid (s.reg (.bq u .ctl)) then commandError (.bqstep u) .notConfigured s
  else if !Fp.isFinite x then commandError (.bqstep u) .nonFiniteInput s
  else
    let y := bqOutput u x s
    .next (commitResults [(.bq u .x2, s.reg (.bq u .x1)), (.bq u .x1, x), (.bq u .y2, s.reg (.bq u .y1)),
      (.bq u .y1, y), (.res0, y)] s)

/-- BQCLR u (R131). -/
def execBqclr (u : BqIndex) (s : State) : Result :=
  .next (commit [(.bq u .x1, Fp.zero), (.bq u .x2, Fp.zero), (.bq u .y1, Fp.zero), (.bq u .y2, Fp.zero)] s)

end Sys2Proof.Machine
end

