-- ==== Sys2Proof/Machine/Envelope.lean ====
section
/-! DEFINITION. The smoother law and its commands (42_envelope.md, R150 to R158). -/

namespace Sys2Proof.Machine

/-- `smooth(e, t)` of R150: the attack coefficient where the target exceeds PREV, else the release
coefficient (R152). -/
def smooth (e : EnvIndex) (t : Word) (s : State) : Word :=
  let p := s.reg (.env e .prev)
  let a := if Fp.gt t p then s.reg (.env e .aatt) else s.reg (.env e .arel)
  Fp.add (Fp.mul a p) (Fp.mul (Fp.sub Fp.one a) t)

/-- `coef(tau)` of R151 at sample rate `fs`. -/
def coef (fs tau : Word) : Word := Config.fexp (Fp.div Fp.negOne (Fp.mul tau fs))

/-- The writes that configure smoother slot `e` (R155, R156, R176, R186); PREV is not among them (R153). -/
def envWrites (e : EnvIndex) (aa ar : Word) : List (Reg × Word) :=
  [(.env e .aatt, aa), (.env e .arel, ar), (.env e .ctl, ctlConfigured)]

/-- ENVCFG e (R151, R155). -/
def execEnvcfg (e : EnvIndex) (s : State) : Result :=
  let ta := s.reg .op0
  let tr := s.reg .op1
  if fsNotSet s then commandError (.envcfg e) .notConfigured s
  else if !finitePositive ta || !finitePositive tr then commandError (.envcfg e) .invalidParameter s
  else
    let aa := coef (s.reg .fs) ta
    let ar := coef (s.reg .fs) tr
    if !legalCoefficient aa || !legalCoefficient ar then commandError (.envcfg e) .invalidParameter s
    else .next (commit (envWrites e aa ar) s)

/-- ENVLD e (R156). -/
def execEnvld (e : EnvIndex) (s : State) : Result :=
  let aa := s.reg .op0
  let ar := s.reg .op1
  if !legalCoefficient aa || !legalCoefficient ar then commandError (.envld e) .invalidParameter s
  else .next (commit (envWrites e aa ar) s)

/-- ENVSTEP e (R157). -/
def execEnvstep (e : EnvIndex) (s : State) : Result :=
  let t := s.reg .op0
  if !ctlValid (s.reg (.env e .ctl)) then commandError (.envstep e) .notConfigured s
  else if !Fp.isFinite t then commandError (.envstep e) .nonFiniteInput s
  else
    let v := smooth e t s
    .next (commitResults [(.env e .prev, v), (.res0, v)] s)

/-- ENVCLR e (R158). -/
def execEnvclr (e : EnvIndex) (s : State) : Result := .next (commit [(.env e .prev, Fp.zero)] s)

end Sys2Proof.Machine
end

