-- ==== Sys2Proof/Machine/Optical.lean ====
section
/-! DEFINITION. The optical gain computer (43_gain_computer.md, R180 to R187). Its envelope smoother is slot
ENV[5] (R54). -/

namespace Sys2Proof.Machine

/-- The linear image of a decibel figure (R184). -/
def decibelsToLinear (v : Word) : Word := Config.fpow10 (Fp.div v Fp.twenty)

/-- `opt_gain(env)` of R182 for linear threshold `tl` and ratio `r`. -/
def optGain (tl r env : Word) : Word :=
  Fp.clamp (if Fp.le env tl then Fp.one else Fp.div (Fp.add tl (Fp.div (Fp.sub env tl) r)) env) Fp.zero Fp.one

/-- OPTCFG (R183, R184, R186). -/
def execOptcfg (s : State) : Result :=
  let th := s.reg .op0
  let r := s.reg .op1
  let ta := s.reg .op2
  let tr := s.reg .op3
  let mk := s.reg .op4
  if fsNotSet s then commandError .optcfg .notConfigured s
  else if !legalDynamics th r ta tr mk then commandError .optcfg .invalidParameter s
  else
    let tl := decibelsToLinear th
    let ml := decibelsToLinear mk
    if !finiteNonNegative tl || !finiteNonNegative ml then commandError .optcfg .invalidParameter s
    else
      let aa := coef (s.reg .fs) ta
      let ar := coef (s.reg .fs) tr
      if !legalCoefficient aa || !legalCoefficient ar then commandError .optcfg .invalidParameter s
      else
        .next (commit ([(.opt .th, th), (.opt .ratio, r), (.opt .mkup, mk), (.opt .tlin, tl), (.opt .mklin, ml),
          (.opt .ctl, ctlConfigured)] ++ envWrites 5 aa ar) s)

/-- OPTSTEP (R181, R185, R187). -/
def execOptstep (s : State) : Result :=
  let x := s.reg .op0
  if !ctlValid (s.reg (.opt .ctl)) || !ctlValid (s.reg (.env 5 .ctl)) then commandError .optstep .notConfigured s
  else if !Fp.isFinite x then commandError .optstep .nonFiniteInput s
  else
    let env := smooth 5 (Fp.abs x) s
    let g := optGain (s.reg (.opt .tlin)) (s.reg (.opt .ratio)) env
    let c := Fp.mul g (s.reg (.opt .mklin))
    let y := Fp.mul x c
    .next (commitResults [(.env 5 .prev, env), (.res0, y), (.res1, c), (.res2, env), (.res3, g)] s)

end Sys2Proof.Machine
end

