-- ==== Sys2Proof/Machine/SoftKnee.lean ====
section
/-! DEFINITION. The soft-knee transfer function (44_soft_knee.md, R200 to R206). -/

namespace Sys2Proof.Machine

/-- `knee_r(l)` of R202 for threshold `th`, range `rg` and reduction `red`. -/
def kneeRatio (th rg red l : Word) : Word :=
  let d := Fp.sub l th
  if !Fp.gt d Fp.zero then Fp.zero
  else if Fp.lt d rg then Fp.mul (Fp.div d rg) (Fp.div red Fp.twenty)
  else Fp.div red Fp.twenty

/-- `knee_gain(r)` of R203. -/
def kneeGain (r : Word) : Word := if Fp.eq r Fp.zero then Fp.one else Config.fpow10 (Fp.neg r)

/-- KNCFG (R201, R205). It does not read FS. -/
def execKncfg (s : State) : Result :=
  let th := s.reg .op0
  let rg := s.reg .op1
  let red := s.reg .op2
  if !legalKnee th rg red then commandError .kncfg .invalidParameter s
  else .next (commit [(.knee .th, th), (.knee .range, rg), (.knee .red, red), (.knee .ctl, ctlConfigured)] s)

/-- KNEVAL (R206). -/
def execKneval (s : State) : Result :=
  let l := s.reg .op0
  if !ctlValid (s.reg (.knee .ctl)) then commandError .kneval .notConfigured s
  else if !Fp.isFinite l then commandError .kneval .nonFiniteInput s
  else
    let r := kneeRatio (s.reg (.knee .th)) (s.reg (.knee .range)) (s.reg (.knee .red)) l
    .next (commitResults [(.res0, r), (.res1, kneeGain r)] s)

end Sys2Proof.Machine
end

