-- ==== Sys2Proof/Machine/System.lean ====
section
/-! DEFINITION. The system commands (45_system.md, R220 to R224). -/

namespace Sys2Proof.Machine

/-- NOP (R220): no write. -/
def execNop (s : State) : Result := .next s

/-- RESET (R221): every register to its reset value. The host's accesses and the values it has read are not
registers and stay (log entry 11). -/
def execReset (s : State) : Result := .next { State.reset with pending := s.pending, reads := s.reads }

/-- CLRST (R222): the error and status latches cleared. -/
def execClrst (s : State) : Result := .next (commit [(.status, 0), (.errcmd, 0)] s)

/-- SETFS (R223, R224). -/
def execSetfs (s : State) : Result :=
  let v := s.reg .op0
  if !finitePositive v then commandError .setfs .invalidParameter s
  else .next (commit [(.fs, v)] s)

end Sys2Proof.Machine
end

