-- ==== Sys2Proof/Machine/Vca.lean ====
section
/-! DEFINITION. The VCA gain computer (43_gain_computer.md, R170 to R178). Its ballistics smoother is slot
ENV[4] (R54). -/

namespace Sys2Proof.Machine

/-- `level_db(x)` of R170. -/
def levelDb (x : Word) : Word :=
  let m := Fp.abs x
  if Fp.lt m Fp.eps then Fp.levelFloor else Fp.mul Fp.twenty (Config.flog10 m)

/-- The target level of `vca_gr(l)` for threshold `th` and ratio `r` (R172). -/
def vcaTarget (th r l : Word) : Word :=
  if Fp.ge l th then Fp.add th (Fp.div (Fp.sub l th) r) else l

/-- The gain reduction of `vca_gr(l)` (R172). -/
def vcaReduction (th r l : Word) : Word := Fp.sub l (vcaTarget th r l)

/-- The control value of R174 from the makeup and the smoothed reduction. -/
def vcaControl (mk sm : Word) : Word := Config.fpow10 (Fp.div (Fp.sub mk sm) Fp.twenty)

/-- VCACFG (R171, R176). -/
def execVcacfg (s : State) : Result :=
  let th := s.reg .op0
  let r := s.reg .op1
  let ta := s.reg .op2
  let tr := s.reg .op3
  let mk := s.reg .op4
  if fsNotSet s then commandError .vcacfg .notConfigured s
  else if !legalDynamics th r ta tr mk then commandError .vcacfg .invalidParameter s
  else
    let aa := coef (s.reg .fs) ta
    let ar := coef (s.reg .fs) tr
    if !legalCoefficient aa || !legalCoefficient ar then commandError .vcacfg .invalidParameter s
    else
      .next (commit ([(.vca .th, th), (.vca .ratio, r), (.vca .mkup, mk), (.vca .ctl, ctlConfigured)]
        ++ envWrites 4 aa ar) s)

/-- VCASTEP (R173, R174, R177). -/
def execVcastep (s : State) : Result :=
  let x := s.reg .op0
  if !ctlValid (s.reg (.vca .ctl)) || !ctlValid (s.reg (.env 4 .ctl)) then commandError .vcastep .notConfigured s
  else if !Fp.isFinite x then commandError .vcastep .nonFiniteInput s
  else
    let lvl := levelDb x
    let sm := smooth 4 (vcaReduction (s.reg (.vca .th)) (s.reg (.vca .ratio)) lvl) s
    let c := vcaControl (s.reg (.vca .mkup)) sm
    let y := Fp.mul x c
    .next (commitResults [(.env 4 .prev, sm), (.res0, y), (.res1, c), (.res2, sm), (.res3, lvl)] s)

/-- VCAGR (R178). -/
def execVcagr (s : State) : Result :=
  let l := s.reg .op0
  if !ctlValid (s.reg (.vca .ctl)) then commandError .vcagr .notConfigured s
  else if !Fp.isFinite l then commandError .vcagr .nonFiniteInput s
  else
    .next (commitResults [(.res0, vcaReduction (s.reg (.vca .th)) (s.reg (.vca .ratio)) l),
      (.res1, vcaTarget (s.reg (.vca .th)) (s.reg (.vca .ratio)) l)] s)

end Sys2Proof.Machine
end

