-- ==== Sys2Proof/Machine/Dispatch.lean ====
section
/-! DEFINITION. One arm per command (R98): the meaning of each. -/

namespace Sys2Proof.Machine

def exec (i : Instr) (s : State) : Host.Outcome State Fault Refusal :=
  match i with
  | .nop => Sys2Proof.Machine.execNop s
  | .reset => Sys2Proof.Machine.execReset s
  | .clrst => Sys2Proof.Machine.execClrst s
  | .setfs => Sys2Proof.Machine.execSetfs s
  | .bqdsn u kind => Sys2Proof.Machine.execBqdsn u kind s
  | .bqld u => Sys2Proof.Machine.execBqld u s
  | .bqstep u => Sys2Proof.Machine.execBqstep u s
  | .bqclr u => Sys2Proof.Machine.execBqclr u s
  | .envcfg e => Sys2Proof.Machine.execEnvcfg e s
  | .envld e => Sys2Proof.Machine.execEnvld e s
  | .envstep e => Sys2Proof.Machine.execEnvstep e s
  | .envclr e => Sys2Proof.Machine.execEnvclr e s
  | .vcacfg => Sys2Proof.Machine.execVcacfg s
  | .vcastep => Sys2Proof.Machine.execVcastep s
  | .vcagr => Sys2Proof.Machine.execVcagr s
  | .optcfg => Sys2Proof.Machine.execOptcfg s
  | .optstep => Sys2Proof.Machine.execOptstep s
  | .kncfg => Sys2Proof.Machine.execKncfg s
  | .kneval => Sys2Proof.Machine.execKneval s

end Sys2Proof.Machine
end

