-- ==== Sys2Proof/Machine/HostAccess.lean ====
section
/-! DEFINITION. Serving one host access (20_memory.md, R71 to R76; R34, R242, R243). -/

namespace Sys2Proof.Machine

/-- A host write of `w` to CMD (R34): the command runs to its end, or the word does not decode and
IllegalCommand is recorded with the whole word (R242). -/
def writeCmd (w : Word) (s : State) : Result :=
  match decode w with
  | .instr i => exec i s
  | .illegal _ => .next (raise .illegalCommand w s)

/-- A host write to an index (R72, R73, R75). -/
def serveWrite (a : RegIndex) (v : Word) (s : State) : Result :=
  match regAt a with
  | none => .next (raise .illegalWrite (illegalWriteInfo a) s)
  | some r =>
    match r.access with
    | .writeOnly => writeCmd v s
    | .readWrite => .next (s.setReg r v)
    | .readOnly => .next (raise .illegalWrite (illegalWriteInfo a) s)
    | .hardwired => .next (raise .illegalWrite (illegalWriteInfo a) s)

/-- A host read of an index: the value goes to the host and no register changes (R74). -/
def serveRead (a : RegIndex) (s : State) : Result := .next { s with reads := s.reads ++ [s.peek a] }

/-- One host access served (R23, R76). -/
def serve (a : HostAccess) (s : State) : Result :=
  match a with
  | .read i => serveRead i s
  | .write i v => serveWrite i v s

/-- The oldest pending access served; with none pending the core waits (R23, R271; log entry 3). -/
def serveNext (s : State) : Result :=
  match s.pending with
  | [] => .next s
  | a :: rest => serve a { s with pending := rest }

/-- The given accesses served in order (R76). -/
def serveAll : List HostAccess → State → Result
  | [], s => .next s
  | a :: rest, s =>
    match serve a s with
    | .next t => serveAll rest t
    | .fault f => .fault f
    | .refused r => .refused r

/-- The observation of a run (R87): the values read, and the content of every register by its index. -/
def observe (s : State) : List Word × List Word :=
  (s.reads, (List.range 4096).map (fun a => s.peek (BitVec.ofNat 12 a)))

/-- The host's next access is the write of a command word to CMD (R102). -/
def issueWord (s : State) (w : Word) : State := { s with pending := .write Reg.cmd.index w :: s.pending }

end Sys2Proof.Machine
end

