-- ==== Sys2Proof/Machine/Step.lean ====
section
/-! DEFINITION. One step of the machine: the oldest pending host access is served (R23, R286). -/

namespace Sys2Proof.Machine

/-- One step (R23). -/
def step (s : State) : Host.Outcome State Fault Refusal := serveNext s

/-- The state in which the host's next access writes the given command word to CMD (log entries 1 and 18). -/
def State.withFetchWord (s : State) (nbits w : Nat) : State := issueWord s (tableWord nbits w)

end Sys2Proof.Machine
end

