-- ==== Sys2Proof/Machine/Channels.lean ====
section
/-! DEFINITION. Several channels served by several cores (R3, R262, R263): a list of independent cores, each
access addressed to one of them. -/

namespace Sys2Proof.Machine

/-- A core after one access to it; no access of the spec stops a core (R24). -/
def afterAccess (a : HostAccess) (s : State) : State :=
  match serve a s with
  | .next t => t
  | .fault _ => s
  | .refused _ => s

/-- A core after accesses to it, in order (R76). -/
def afterAccesses : List HostAccess → State → State
  | [], s => s
  | a :: rest, s => afterAccesses rest (afterAccess a s)

/-- One access to core `k`: the other cores share no register with it (R262). -/
def serveCore (k : Nat) (a : HostAccess) (cores : List State) : List State := cores.modify k (afterAccess a)

/-- Accesses to several cores, in the order the host issues them. -/
def serveCores : List (Nat × HostAccess) → List State → List State
  | [], cores => cores
  | (k, a) :: rest, cores => serveCores rest (serveCore k a cores)

/-- The accesses of a sequence that go to core `k`, in order. -/
def accessesTo (k : Nat) (as : List (Nat × HostAccess)) : List HostAccess :=
  (as.filter (fun p => p.1 == k)).map Prod.snd

end Sys2Proof.Machine
end

