-- ==== Sys2Proof/Machine/HostProgram.lean ====
section
/-! DEFINITION. Host programs: the lines of R102 and the pseudo-instructions of R103, as the accesses the host
issues. `HostText.lean` reads them from text. -/

namespace Sys2Proof.Machine

/-- One line of a host program (R102). -/
inductive HostLine where
  /-- `wr NAME, value` -/
  | wr (r : Reg) (v : Word)
  /-- `rd NAME` -/
  | rd (r : Reg)
  /-- a mnemonic with its slot and kind -/
  | command (i : Instr)
  /-- `cmd 0xHHHHHHHH` -/
  | raw (w : BitVec 32)
deriving DecidableEq, Repr

/-- The access a line stands for (R102). -/
def lineAccess : HostLine → HostAccess
  | .wr r v => .write r.index v
  | .rd r => .read r.index
  | .command i => .write Reg.cmd.index (encode i)
  | .raw w => .write Reg.cmd.index (w.setWidth 64)

/-- The pseudo-instructions (R103). -/
inductive Pseudo where
  | fs (v : Word)
  | bqdesign (u : BqIndex) (kind : FilterKind) (f q g : Word)
  | bqload (u : BqIndex) (b0 b1 b2 a0 a1 a2 : Word)
  | bq (u : BqIndex) (x : Word)
  | bqsave (u : BqIndex)
  | bqrestore (u : BqIndex) (p q r t : Word)
  | envcfg (e : EnvIndex) (ta tr : Word)
  | envload (e : EnvIndex) (aa ar : Word)
  | env (e : EnvIndex) (t : Word)
  | vcacfg (th r ta tr mk : Word)
  | vca (x : Word)
  | optcfg (th r ta tr mk : Word)
  | opt (x : Word)
  | kncfg (th rg red : Word)
  | knee (l : Word)
  | chk
deriving DecidableEq, Repr

/-- The expansion of a pseudo-instruction (R103). -/
def expand : Pseudo → List HostLine
  | .fs v => [.wr .op0 v, .command .setfs]
  | .bqdesign u kind f q g => [.wr .op0 f, .wr .op1 q, .wr .op2 g, .command (.bqdsn u kind)]
  | .bqload u b0 b1 b2 a0 a1 a2 =>
    [.wr .op0 b0, .wr .op1 b1, .wr .op2 b2, .wr .op3 a0, .wr .op4 a1, .wr .op5 a2, .command (.bqld u)]
  | .bq u x => [.wr .op0 x, .command (.bqstep u), .rd .res0]
  | .bqsave u => [.rd (.bq u .x1), .rd (.bq u .x2), .rd (.bq u .y1), .rd (.bq u .y2)]
  | .bqrestore u p q r t => [.wr (.bq u .x1) p, .wr (.bq u .x2) q, .wr (.bq u .y1) r, .wr (.bq u .y2) t]
  | .envcfg e ta tr => [.wr .op0 ta, .wr .op1 tr, .command (.envcfg e)]
  | .envload e aa ar => [.wr .op0 aa, .wr .op1 ar, .command (.envld e)]
  | .env e t => [.wr .op0 t, .command (.envstep e), .rd .res0]
  | .vcacfg th r ta tr mk =>
    [.wr .op0 th, .wr .op1 r, .wr .op2 ta, .wr .op3 tr, .wr .op4 mk, .command .vcacfg]
  | .vca x => [.wr .op0 x, .command .vcastep, .rd .res0]
  | .optcfg th r ta tr mk =>
    [.wr .op0 th, .wr .op1 r, .wr .op2 ta, .wr .op3 tr, .wr .op4 mk, .command .optcfg]
  | .opt x => [.wr .op0 x, .command .optstep, .rd .res0]
  | .kncfg th rg red => [.wr .op0 th, .wr .op1 rg, .wr .op2 red, .command .kncfg]
  | .knee l => [.wr .op0 l, .command .kneval, .rd .res1]
  | .chk => [.rd .status]

/-- The accesses of a pseudo-instruction, in order. -/
def pseudoAccesses (p : Pseudo) : List HostAccess := (expand p).map lineAccess

/-- A program issued by the host: its accesses wait behind those already pending (R76). -/
def issue (ls : List HostLine) (s : State) : State := { s with pending := s.pending ++ ls.map lineAccess }

end Sys2Proof.Machine
end

