-- ==== Sys2Proof/Safety.lean ====
section
/-! DEFINITION. The terms claims are stated in: what a binary64 word stands for and what rounding means
(R13, R77), the named properties of the parameter functions (R20), the legal register contents (R35, R37,
R41, R49, R50), and which registers and accesses belong to a slot (R128, R129, R159). -/

namespace Sys2Proof.Safety

open Sys2Proof.Machine

/-! ## Numbers -/

/-- The number a finite word stands for in the IEEE 754 layout (R77): sign in bit 63, biased exponent in
62:52, fraction in 51:0. Written with powers of two, not with the units `Float.lean` computes in. -/
def value (w : Word) : ℚ :=
  let f : ℚ := ((w.extractLsb' 0 52).toNat : ℚ)
  let e : ℤ := ((w.extractLsb' 52 11).toNat : ℤ)
  (if w.getLsbD 63 then -1 else 1)
    * (if e = 0 then f * (2 : ℚ) ^ (-1074 : ℤ) else (1 + f / 2 ^ 52) * (2 : ℚ) ^ (e - 1023))

/-- The least magnitude that roundTiesToEven takes to infinity: half a unit above the largest finite one. -/
def overflowBound : ℚ := 2 ^ 1024 - 2 ^ 970

/-- `w` is the number `x` rounded to nearest, ties to even (R7, R13): beyond the overflow bound it is the
infinity of the sign of `x`; below it is a finite word with none nearer, and on a tie between two numbers
its fraction is even. The sign of a zero result is left out. -/
def RoundsTo (x : ℝ) (w : Word) : Prop :=
  ((overflowBound : ℝ) ≤ x → w = 0x7FF0000000000000)
    ∧ (x ≤ -(overflowBound : ℝ) → w = 0xFFF0000000000000)
    ∧ (|x| < (overflowBound : ℝ) → Fp.isFinite w = true ∧ ∀ v : Word, Fp.isFinite v = true →
        |(value w : ℝ) - x| < |(value v : ℝ) - x| ∨ value v = value w
          ∨ (|(value w : ℝ) - x| = |(value v : ℝ) - x| ∧ w.getLsbD 0 = false))

/-! ## The named properties of the parameter functions (R20) -/

/-- P1. -/
def P1 : Prop := Fp.eq (Config.fpow10 0x0000000000000000) Fp.one = true
  ∧ Fp.eq (Config.fpow10 0x8000000000000000) Fp.one = true

/-- P2. -/
def P2 : Prop := Fp.eq (Config.flog10 Fp.one) Fp.zero = true

/-- P3. Its equalities are the IEEE comparisons of R13, as those of the other properties are. -/
def P3 : Prop := Fp.eq (Config.fexp 0xFFF0000000000000) Fp.zero = true
  ∧ Fp.eq (Config.fexp 0x8000000000000000) Fp.one = true
  ∧ ∀ v : Word, Fp.le v Fp.zero = true → legalCoefficient (Config.fexp v) = true

/-- P4: each function is correctly rounded on the finite operands where the exact result is a number
(log entry 19). -/
def P4 : Prop := ∀ v : Word, Fp.isFinite v = true →
  RoundsTo (Real.exp (value v : ℝ)) (Config.fexp v)
    ∧ (0 < value v → RoundsTo (Real.logb 10 (value v : ℝ)) (Config.flog10 v))
    ∧ RoundsTo ((10 : ℝ) ^ (value v : ℝ)) (Config.fpow10 v)
    ∧ RoundsTo (Real.sin (value v : ℝ)) (Config.fsin v)
    ∧ RoundsTo (Real.cos (value v : ℝ)) (Config.fcos v)

/-- P5: `flog10(EPS) == -6.0`. -/
def P5 : Prop := Fp.eq (Config.flog10 Fp.eps) 0xC018000000000000 = true

/-! ## Legal register contents -/

/-- STATUS and ERRCMD (R35, R36, R240): reserved bits are 0; with ERR = 0 there is no code, no overflow and no
information word; with ERR = 1 the code is one of 1 to 5. -/
def statusLegal (status errcmd : Word) : Bool :=
  status.extractLsb' 16 48 == 0 && status.extractLsb' 3 5 == 0
    && (if statusErr status then decide (1 ≤ (statusCode status).toNat ∧ (statusCode status).toNat ≤ 5)
        else statusCode status == 0 && !statusOvf status && errcmd == 0)

/-- FS is not set, or finite and greater than 0.0 (R37). -/
def rateLegal (fs : Word) : Bool := fs == 0 || finitePositive fs

/-- A biquad slot (R41, R49, R50): CTL's reserved bits are 0; where configured, KIND is 0 to 5 or 15 and the
coefficients are finite. -/
def bqLegal (x : BqSlot) : Bool :=
  x.ctl.extractLsb' 8 56 == 0 && x.ctl.extractLsb' 1 3 == 0
    && (!ctlValid x.ctl ||
      ((decide ((ctlKind x.ctl).toNat ≤ 5) || ctlKind x.ctl == 15) && allFinite [x.b0, x.b1, x.b2, x.a1, x.a2]))

/-- The reserved bits of a CTL without KIND are 0 (R49). -/
def ctlLegal (ctl : Word) : Bool := ctl.extractLsb' 1 63 == 0

/-- A smoother slot (R44, R49, R50): where configured, both coefficients are in [0.0, 1.0]. -/
def envLegal (x : EnvSlot) : Bool :=
  ctlLegal x.ctl && (!ctlValid x.ctl || (legalCoefficient x.aatt && legalCoefficient x.arel))

/-- The VCA parameters (R46, R50). -/
def vcaLegal (x : VcaRegs) : Bool :=
  ctlLegal x.ctl && (!ctlValid x.ctl || (Fp.isFinite x.th && legalRatio x.ratio && Fp.isFinite x.mkup))

/-- The optical parameters (R47, R50). -/
def optLegal (x : OptRegs) : Bool :=
  ctlLegal x.ctl && (!ctlValid x.ctl || (Fp.isFinite x.th && legalRatio x.ratio && Fp.isFinite x.mkup
    && finiteNonNegative x.tlin && finiteNonNegative x.mklin))

/-- The soft-knee parameters (R48, R50). -/
def kneeLegal (x : KneeRegs) : Bool :=
  ctlLegal x.ctl && (!ctlValid x.ctl || legalKnee x.th x.range x.red)

/-- The registers hold what the spec says they can hold. Taps and PREV carry no condition (R50). -/
def RegistersLegal (s : State) : Prop :=
  statusLegal s.status s.errcmd = true ∧ rateLegal s.fs = true ∧ (∀ u, bqLegal (s.bq.get u) = true)
    ∧ (∀ e, envLegal (s.env.get e) = true) ∧ vcaLegal s.vca = true ∧ optLegal s.opt = true ∧ kneeLegal s.knee = true

/-! ## Outcomes of a command -/

/-- Every register outside the list, and the host's side of the interface, are as before. A read of every
mapped index but CMD is a read of a register, so this speaks of the whole register space (R53). -/
def Unchanged (s t : State) (except : List Reg) : Prop :=
  (∀ r, r ∉ except → t.reg r = s.reg r) ∧ t.pending = s.pending ∧ t.reads = s.reads

/-- The codes of R240, written out here and not taken from the machine. -/
def errorNumber : ErrorCode → Word
  | .invalidParameter => 1
  | .notConfigured => 2
  | .illegalCommand => 3
  | .nonFiniteInput => 4
  | .illegalWrite => 5

/-- The CTL registers whose VALID bit each configuration command sets where it completes (R45) and clears where it
fails (R246), written out here and not taken from the machine. -/
def validBitsOf : Instr → List Reg
  | .bqdsn u _ | .bqld u => [.bq u .ctl]
  | .envcfg e | .envld e => [.env e .ctl]
  | .vcacfg => [.vca .ctl, .env 4 .ctl]
  | .optcfg => [.opt .ctl, .env 5 .ctl]
  | .kncfg => [.knee .ctl]
  | .nop | .reset | .clrst | .setfs | .bqstep _ | .bqclr _ | .envstep _ | .envclr _ | .vcastep | .vcagr | .optstep
  | .kneval => []

/-- STATUS and ERRCMD after error `e` with information word `info`, bit by bit as R244 and R245 write them. -/
def ErrorRecorded (e : ErrorCode) (info : Word) (s t : State) : Prop :=
  t.status = (if s.status.getLsbD 0 then s.status ||| 0x2
      else (s.status &&& 0xFFFFFFFFFFFF00FF) ||| (errorNumber e <<< 8) ||| 0x1)
    ∧ t.errcmd = if s.status.getLsbD 0 then s.errcmd else info

/-- The command ended with error `e` (R244, R246): the latch holds it under the command's own word, the VALID
bits the command owns are 0 with the rest of their registers kept, and nothing else changed. -/
def Failed (i : Instr) (e : ErrorCode) (s t : State) : Prop :=
  ErrorRecorded e (encode i) s t
    ∧ (∀ c ∈ validBitsOf i, t.reg c = s.reg c &&& 0xFFFFFFFFFFFFFFFE)
    ∧ Unchanged s t (.status :: .errcmd :: validBitsOf i)

/-- STATUS after a completed step or evaluation command that wrote the given values (R250). -/
def resultStatus (s : State) (vs : List Word) : Word :=
  if ∀ v ∈ vs, Fp.isFinite v = true then s.status else s.status ||| 0x4

/-- The configuration commands: those that own a VALID bit (R45). -/
def isConfiguration : Instr → Bool
  | .bqdsn _ _ | .bqld _ | .envcfg _ | .envld _ | .vcacfg | .optcfg | .kncfg => true
  | _ => false

/-! ## What a command writes, what an access touches -/

/-- The step and evaluation commands, the only ones that can set STATUS.NF (R250). -/
def isRuntime : Instr → Bool
  | .bqstep _ | .envstep _ | .vcastep | .vcagr | .optstep | .kneval => true
  | _ => false

/-- The registers a completed command writes, STATUS.NF apart, in the order of its commit; RESET, which writes
all of them, apart (R96, and the commit of each command's rule). -/
def writtenBy : Instr → List Reg
  | .nop | .reset => []
  | .clrst => [.status, .errcmd]
  | .setfs => [.fs]
  | .bqdsn u _ | .bqld u => [.bq u .b0, .bq u .b1, .bq u .b2, .bq u .a1, .bq u .a2, .bq u .ctl]
  | .bqstep u => [.bq u .x2, .bq u .x1, .bq u .y2, .bq u .y1, .res0]
  | .bqclr u => [.bq u .x1, .bq u .x2, .bq u .y1, .bq u .y2]
  | .envcfg e | .envld e => [.env e .aatt, .env e .arel, .env e .ctl]
  | .envstep e => [.env e .prev, .res0]
  | .envclr e => [.env e .prev]
  | .vcacfg => [.vca .th, .vca .ratio, .vca .mkup, .vca .ctl, .env 4 .aatt, .env 4 .arel, .env 4 .ctl]
  | .vcastep => [.env 4 .prev, .res0, .res1, .res2, .res3]
  | .vcagr => [.res0, .res1]
  | .optcfg => [.opt .th, .opt .ratio, .opt .mkup, .opt .tlin, .opt .mklin, .opt .ctl, .env 5 .aatt, .env 5 .arel,
      .env 5 .ctl]
  | .optstep => [.env 5 .prev, .res0, .res1, .res2, .res3]
  | .kncfg => [.knee .th, .knee .range, .knee .red, .knee .ctl]
  | .kneval => [.res0, .res1]

/-- The commands on biquad slot `u`, and RESET (R128). -/
def commandTouchesBq (u : BqIndex) : Instr → Bool
  | .bqdsn v _ | .bqld v | .bqstep v | .bqclr v => v == u
  | .reset => true
  | _ => false

/-- The commands on smoother slot `e`, and RESET: slot 4 is also the VCA's and slot 5 the optical unit's
(R54, R153). -/
def commandTouchesEnv (e : EnvIndex) : Instr → Bool
  | .envcfg v | .envld v | .envstep v | .envclr v => v == e
  | .vcacfg | .vcastep => e == 4
  | .optcfg | .optstep => e == 5
  | .reset => true
  | _ => false

/-- The access leaves biquad slot `u` alone: it writes no register of the slot, and its command, if it is one,
is neither RESET nor on the slot (R129). -/
def sparesBq (u : BqIndex) : HostAccess → Bool
  | .read _ => true
  | .write a v =>
    match regAt a with
    | some (.bq w _) => w != u
    | some .cmd =>
      match decode v with
      | .instr i => !commandTouchesBq u i
      | .illegal _ => true
    | _ => true

/-- The access leaves smoother slot `e` alone (R159). -/
def sparesEnv (e : EnvIndex) : HostAccess → Bool
  | .read _ => true
  | .write a v =>
    match regAt a with
    | some (.env w _) => w != e
    | some .cmd =>
      match decode v with
      | .instr i => !commandTouchesEnv e i
      | .illegal _ => true
    | _ => true

/-- The host's accesses that filter samples through biquad slot `u`, reading each result: `bq u, x` of R103. -/
def filterAccesses (u : BqIndex) (xs : List Word) : List HostAccess :=
  xs.flatMap (fun x => [.write Reg.op0.index x, .write Reg.cmd.index (encode (.bqstep u)), .read Reg.res0.index])

/-- The host's accesses that send targets through smoother slot `e`, reading each result: `env e, t` of R103. -/
def smoothAccesses (e : EnvIndex) (ts : List Word) : List HostAccess :=
  ts.flatMap (fun t => [.write Reg.op0.index t, .write Reg.cmd.index (encode (.envstep e)), .read Reg.res0.index])

end Sys2Proof.Safety
end

