-- ==== Sys2Proof/Certificates/Slice0/Obligations.lean ====
section
/-! DEFINITION. The statements for the provers. Each docstring names the rule it formalises. NaN payloads and
the five parameter functions are free (log entries 4 and 5): every statement holds for every value of them. What
the arithmetic takes from IEEE 754 beyond the spec's own words is log entry 20. -/

open Sys2Proof Sys2Proof.Machine Sys2Proof.Safety

/-! ## System commands -/

/-- R220: NOP writes nothing. -/
def Obligations.NopChangesNothing : Prop := ∀ s : State, exec .nop s = .next s

/-- R270, R221: RESET leaves every register at its reset value, as power-on does: ID and A0 their constants,
every other register 0. -/
def Obligations.ResetRestoresEveryRegister : Prop :=
  ∀ s : State, ∃ t, exec .reset s = .next t
    ∧ (∀ r, t.reg r = State.reset.reg r)
    ∧ t.reg .id = 0x0000000000060401
    ∧ (∀ u, t.reg (.bq u .a0) = 0x3FF0000000000000)
    ∧ (∀ r, r ≠ .id → (∀ u, r ≠ .bq u .a0) → t.reg r = 0)

/-- R222: CLRST clears STATUS and ERRCMD and touches no unit. -/
def Obligations.ClrstClearsTheLatches : Prop :=
  ∀ s : State, ∃ t, exec .clrst s = .next t
    ∧ t.reg .status = 0 ∧ t.reg .errcmd = 0 ∧ Unchanged s t [.status, .errcmd]

/-- R224: SETFS on a finite positive rate writes FS and recomputes nothing. -/
def Obligations.SetfsWritesTheRate : Prop :=
  ∀ s : State, Fp.isFinite (s.reg .op0) = true → Fp.gt (s.reg .op0) 0 = true →
    ∃ t, exec .setfs s = .next t ∧ t.reg .fs = s.reg .op0 ∧ Unchanged s t [.fs]

/-- R223: SETFS on any other value raises InvalidParameter and leaves FS. -/
def Obligations.SetfsRejectsIllegalRates : Prop :=
  ∀ s : State, ¬(Fp.isFinite (s.reg .op0) = true ∧ Fp.gt (s.reg .op0) 0 = true) →
    ∃ t, exec .setfs s = .next t ∧ Failed .setfs .invalidParameter s t

/-! ## Biquad -/

/-- R120, R121, R123, R125, R94: with FS set and legal operands, BQDSN stores the normalized coefficients of its
kind where they pass check 5 of R122, and never a tap (R128); where they do not, it raises InvalidParameter.
Whether they pass depends on the free parameter functions. -/
def Obligations.BqdsnStoresTheDesign : Prop :=
  ∀ (u : BqIndex) (kind : FilterKind) (s : State),
    let fs := s.reg .fs
    let f := s.reg .op0
    let q := s.reg .op1
    let g := s.reg .op2
    Fp.eq fs 0 = false →
    Fp.isFinite f = true → Fp.gt f 0 = true → Fp.lt f (Fp.div fs Fp.two) = true →
    Fp.isFinite q = true → Fp.gt q 0 = true → Fp.isFinite g = true →
    let w := Fp.div (Fp.mul Fp.twoPi f) fs
    let cw := Config.fcos w
    let sw := Config.fsin w
    let alpha := Fp.div sw (Fp.mul Fp.two q)
    let A := Config.fpow10 (Fp.div g Fp.forty)
    let sA := Fp.sqrt A
    let t2 := Fp.mul (Fp.mul Fp.two sA) alpha
    let Ap1 := Fp.add A Fp.one
    let Am1 := Fp.sub A Fp.one
    let b0 := match kind with
      | .peaking => Fp.add Fp.one (Fp.mul alpha A)
      | .lowShelf => Fp.mul A (Fp.add (Fp.sub Ap1 (Fp.mul Am1 cw)) t2)
      | .highShelf => Fp.mul A (Fp.add (Fp.add Ap1 (Fp.mul Am1 cw)) t2)
      | .bandPass => alpha
      | .highPass => Fp.div (Fp.add Fp.one cw) Fp.two
      | .lowPass => Fp.div (Fp.sub Fp.one cw) Fp.two
    let b1 := match kind with
      | .peaking => Fp.mul Fp.negTwo cw
      | .lowShelf => Fp.mul (Fp.mul Fp.two A) (Fp.sub Am1 (Fp.mul Ap1 cw))
      | .highShelf => Fp.mul (Fp.mul Fp.negTwo A) (Fp.add Am1 (Fp.mul Ap1 cw))
      | .bandPass => 0
      | .highPass => Fp.neg (Fp.add Fp.one cw)
      | .lowPass => Fp.sub Fp.one cw
    let b2 := match kind with
      | .peaking => Fp.sub Fp.one (Fp.mul alpha A)
      | .lowShelf => Fp.mul A (Fp.sub (Fp.sub Ap1 (Fp.mul Am1 cw)) t2)
      | .highShelf => Fp.mul A (Fp.sub (Fp.add Ap1 (Fp.mul Am1 cw)) t2)
      | .bandPass => Fp.neg alpha
      | .highPass => Fp.div (Fp.add Fp.one cw) Fp.two
      | .lowPass => Fp.div (Fp.sub Fp.one cw) Fp.two
    let a0 := match kind with
      | .peaking => Fp.add Fp.one (Fp.div alpha A)
      | .lowShelf => Fp.add (Fp.add Ap1 (Fp.mul Am1 cw)) t2
      | .highShelf => Fp.add (Fp.sub Ap1 (Fp.mul Am1 cw)) t2
      | .bandPass | .highPass | .lowPass => Fp.add Fp.one alpha
    let a1 := match kind with
      | .lowShelf => Fp.mul Fp.negTwo (Fp.add Am1 (Fp.mul Ap1 cw))
      | .highShelf => Fp.mul Fp.two (Fp.sub Am1 (Fp.mul Ap1 cw))
      | .peaking | .bandPass | .highPass | .lowPass => Fp.mul Fp.negTwo cw
    let a2 := match kind with
      | .peaking => Fp.sub Fp.one (Fp.div alpha A)
      | .lowShelf => Fp.sub (Fp.add Ap1 (Fp.mul Am1 cw)) t2
      | .highShelf => Fp.sub (Fp.sub Ap1 (Fp.mul Am1 cw)) t2
      | .bandPass | .highPass | .lowPass => Fp.sub Fp.one alpha
    let pass := Fp.isFinite a0 = true ∧ Fp.eq a0 0 = false
      ∧ ∀ c ∈ [b0, b1, b2, a1, a2], Fp.isFinite (Fp.div c a0) = true
    ∃ t, exec (.bqdsn u kind) s = .next t
      ∧ (pass → t.reg (.bq u .b0) = Fp.div b0 a0 ∧ t.reg (.bq u .b1) = Fp.div b1 a0
        ∧ t.reg (.bq u .b2) = Fp.div b2 a0 ∧ t.reg (.bq u .a0) = 0x3FF0000000000000
        ∧ t.reg (.bq u .a1) = Fp.div a1 a0 ∧ t.reg (.bq u .a2) = Fp.div a2 a0
        ∧ t.reg (.bq u .ctl) = (match kind with
            | .peaking => 0x01
            | .lowShelf => 0x11
            | .highShelf => 0x21
            | .bandPass => 0x31
            | .highPass => 0x41
            | .lowPass => 0x51)
        ∧ Unchanged s t [.bq u .b0, .bq u .b1, .bq u .b2, .bq u .a1, .bq u .a2, .bq u .ctl])
      ∧ (¬pass → Failed (.bqdsn u kind) .invalidParameter s t)

/-- R122 checks 1 to 4: BQDSN without a sample rate raises NotConfigured; with one, an illegal frequency, Q or
gain raises InvalidParameter. The slot's VALID bit is cleared (R246). That half the rate is one rounded division is
the model's reading of R122, log entry 12. -/
def Obligations.BqdsnRejectsIllegalOperands : Prop :=
  ∀ (u : BqIndex) (kind : FilterKind) (s : State),
    let fs := s.reg .fs
    let f := s.reg .op0
    let q := s.reg .op1
    let g := s.reg .op2
    (Fp.eq fs 0 = true → ∃ t, exec (.bqdsn u kind) s = .next t ∧ Failed (.bqdsn u kind) .notConfigured s t)
    ∧ (Fp.eq fs 0 = false →
        (Fp.isFinite f = false ∨ Fp.gt f 0 = false ∨ Fp.lt f (Fp.div fs Fp.two) = false
          ∨ Fp.isFinite q = false ∨ Fp.gt q 0 = false ∨ Fp.isFinite g = false) →
        ∃ t, exec (.bqdsn u kind) s = .next t ∧ Failed (.bqdsn u kind) .invalidParameter s t)

/-- R126: BQLD with finite operands, a non-zero a0 and finite quotients stores the five quotients, KIND 0xF and
VALID, and leaves the taps. -/
def Obligations.BqldStoresTheQuotients : Prop :=
  ∀ (u : BqIndex) (s : State),
    let a0 := s.reg .op3
    (∀ r ∈ [Reg.op0, .op1, .op2, .op3, .op4, .op5], Fp.isFinite (s.reg r) = true) → Fp.eq a0 0 = false →
    (∀ r ∈ [Reg.op0, .op1, .op2, .op4, .op5], Fp.isFinite (Fp.div (s.reg r) a0) = true) →
    ∃ t, exec (.bqld u) s = .next t
      ∧ t.reg (.bq u .b0) = Fp.div (s.reg .op0) a0 ∧ t.reg (.bq u .b1) = Fp.div (s.reg .op1) a0
      ∧ t.reg (.bq u .b2) = Fp.div (s.reg .op2) a0 ∧ t.reg (.bq u .a1) = Fp.div (s.reg .op4) a0
      ∧ t.reg (.bq u .a2) = Fp.div (s.reg .op5) a0 ∧ t.reg (.bq u .ctl) = 0xF1
      ∧ Unchanged s t [.bq u .b0, .bq u .b1, .bq u .b2, .bq u .a1, .bq u .a2, .bq u .ctl]

/-- R126: any other operands make BQLD raise InvalidParameter. -/
def Obligations.BqldRejectsIllegalOperands : Prop :=
  ∀ (u : BqIndex) (s : State),
    ((∃ r ∈ [Reg.op0, .op1, .op2, .op3, .op4, .op5], Fp.isFinite (s.reg r) = false) ∨ Fp.eq (s.reg .op3) 0 = true
      ∨ ∃ r ∈ [Reg.op0, .op1, .op2, .op4, .op5], Fp.isFinite (Fp.div (s.reg r) (s.reg .op3)) = false) →
    ∃ t, exec (.bqld u) s = .next t ∧ Failed (.bqld u) .invalidParameter s t

/-- R127, R130: BQSTEP on a configured slot with a finite sample computes the Direct Form I output in the order
of R127 and moves the taps. -/
def Obligations.BqstepFiltersOneSample : Prop :=
  ∀ (u : BqIndex) (s : State),
    let x := s.reg .op0
    let x1 := s.reg (.bq u .x1)
    let y1 := s.reg (.bq u .y1)
    let acc0 := Fp.mul (s.reg (.bq u .b0)) x
    let acc1 := Fp.add acc0 (Fp.mul (s.reg (.bq u .b1)) x1)
    let acc2 := Fp.add acc1 (Fp.mul (s.reg (.bq u .b2)) (s.reg (.bq u .x2)))
    let acc3 := Fp.sub acc2 (Fp.mul (s.reg (.bq u .a1)) y1)
    let y := Fp.sub acc3 (Fp.mul (s.reg (.bq u .a2)) (s.reg (.bq u .y2)))
    (s.reg (.bq u .ctl)).getLsbD 0 = true → Fp.isFinite x = true →
    ∃ t, exec (.bqstep u) s = .next t
      ∧ t.reg (.bq u .x2) = x1 ∧ t.reg (.bq u .x1) = x ∧ t.reg (.bq u .y2) = y1 ∧ t.reg (.bq u .y1) = y
      ∧ t.reg .res0 = y ∧ t.reg .status = resultStatus s [x1, x, y1, y]
      ∧ Unchanged s t [.bq u .x1, .bq u .x2, .bq u .y1, .bq u .y2, .res0, .status]

/-- R131: BQCLR clears the four taps of its slot, configured or not, and nothing else. -/
def Obligations.BqclrClearsTheTaps : Prop :=
  ∀ (u : BqIndex) (s : State), ∃ t, exec (.bqclr u) s = .next t
    ∧ t.reg (.bq u .x1) = 0 ∧ t.reg (.bq u .x2) = 0 ∧ t.reg (.bq u .y1) = 0 ∧ t.reg (.bq u .y2) = 0
    ∧ Unchanged s t [.bq u .x1, .bq u .x2, .bq u .y1, .bq u .y2]

/-! ## Smoother -/

/-- R151, R155: with FS set and legal time constants, ENVCFG stores the coefficients where both are in
[0.0, 1.0] and keeps PREV; where one is not, it raises InvalidParameter. Which it is depends on the free fexp. -/
def Obligations.EnvcfgStoresTheCoefficients : Prop :=
  ∀ (e : EnvIndex) (s : State),
    let fs := s.reg .fs
    let ta := s.reg .op0
    let tr := s.reg .op1
    let aa := Config.fexp (Fp.div Fp.negOne (Fp.mul ta fs))
    let ar := Config.fexp (Fp.div Fp.negOne (Fp.mul tr fs))
    let pass := Fp.ge aa 0 = true ∧ Fp.le aa Fp.one = true ∧ Fp.ge ar 0 = true ∧ Fp.le ar Fp.one = true
    Fp.eq fs 0 = false → Fp.isFinite ta = true → Fp.gt ta 0 = true → Fp.isFinite tr = true → Fp.gt tr 0 = true →
    ∃ t, exec (.envcfg e) s = .next t
      ∧ (pass → t.reg (.env e .aatt) = aa ∧ t.reg (.env e .arel) = ar ∧ t.reg (.env e .ctl) = 1
        ∧ Unchanged s t [.env e .aatt, .env e .arel, .env e .ctl])
      ∧ (¬pass → Failed (.envcfg e) .invalidParameter s t)

/-- R156: ENVLD with both operands in [0.0, 1.0] stores them bit for bit and keeps PREV. -/
def Obligations.EnvldStoresTheCoefficients : Prop :=
  ∀ (e : EnvIndex) (s : State),
    (∀ r ∈ [Reg.op0, .op1], Fp.ge (s.reg r) 0 = true ∧ Fp.le (s.reg r) Fp.one = true) →
    ∃ t, exec (.envld e) s = .next t
      ∧ t.reg (.env e .aatt) = s.reg .op0 ∧ t.reg (.env e .arel) = s.reg .op1 ∧ t.reg (.env e .ctl) = 1
      ∧ Unchanged s t [.env e .aatt, .env e .arel, .env e .ctl]

/-- R151, R156: ENVCFG without a sample rate raises NotConfigured, with an illegal time constant
InvalidParameter; ENVLD with an operand outside [0.0, 1.0] raises InvalidParameter. -/
def Obligations.SmootherConfigurationRejectsIllegalOperands : Prop :=
  ∀ (e : EnvIndex) (s : State),
    (Fp.eq (s.reg .fs) 0 = true → ∃ t, exec (.envcfg e) s = .next t ∧ Failed (.envcfg e) .notConfigured s t)
    ∧ (Fp.eq (s.reg .fs) 0 = false →
        (∃ r ∈ [Reg.op0, .op1], Fp.isFinite (s.reg r) = false ∨ Fp.gt (s.reg r) 0 = false) →
        ∃ t, exec (.envcfg e) s = .next t ∧ Failed (.envcfg e) .invalidParameter s t)
    ∧ ((∃ r ∈ [Reg.op0, .op1], Fp.ge (s.reg r) 0 = false ∨ Fp.le (s.reg r) Fp.one = false) →
        ∃ t, exec (.envld e) s = .next t ∧ Failed (.envld e) .invalidParameter s t)

/-- R150, R152, R157: ENVSTEP on a configured slot with a finite target writes
`(a * p) + ((1.0 - a) * t)` to PREV and RES0, with the attack coefficient where the target exceeds PREV and the
release coefficient otherwise. -/
def Obligations.EnvstepSmoothsOneTarget : Prop :=
  ∀ (e : EnvIndex) (s : State),
    let x := s.reg .op0
    let p := s.reg (.env e .prev)
    let a := if Fp.gt x p = true then s.reg (.env e .aatt) else s.reg (.env e .arel)
    let v := Fp.add (Fp.mul a p) (Fp.mul (Fp.sub Fp.one a) x)
    (s.reg (.env e .ctl)).getLsbD 0 = true → Fp.isFinite x = true →
    ∃ t, exec (.envstep e) s = .next t ∧ t.reg (.env e .prev) = v ∧ t.reg .res0 = v
      ∧ t.reg .status = resultStatus s [v] ∧ Unchanged s t [.env e .prev, .res0, .status]

/-- R158: ENVCLR clears PREV of its slot, configured or not, and nothing else. -/
def Obligations.EnvclrClearsThePreviousValue : Prop :=
  ∀ (e : EnvIndex) (s : State), ∃ t, exec (.envclr e) s = .next t
    ∧ t.reg (.env e .prev) = 0 ∧ Unchanged s t [.env e .prev]

/-! ## Gain computers -/

/-- R176: with FS set and legal parameters, VCACFG stores them and the coefficients of ENV[4] where both are in
[0.0, 1.0], and keeps ENV[4].PREV; where one is not, it raises InvalidParameter. -/
def Obligations.VcacfgStoresTheParameters : Prop :=
  ∀ s : State,
    let fs := s.reg .fs
    let aa := Config.fexp (Fp.div Fp.negOne (Fp.mul (s.reg .op2) fs))
    let ar := Config.fexp (Fp.div Fp.negOne (Fp.mul (s.reg .op3) fs))
    let pass := Fp.ge aa 0 = true ∧ Fp.le aa Fp.one = true ∧ Fp.ge ar 0 = true ∧ Fp.le ar Fp.one = true
    Fp.eq fs 0 = false → (∀ r ∈ [Reg.op0, .op1, .op2, .op3, .op4], Fp.isFinite (s.reg r) = true) →
    Fp.ge (s.reg .op1) Fp.one = true → Fp.gt (s.reg .op2) 0 = true → Fp.gt (s.reg .op3) 0 = true →
    ∃ t, exec .vcacfg s = .next t
      ∧ (pass → t.reg (.vca .th) = s.reg .op0 ∧ t.reg (.vca .ratio) = s.reg .op1 ∧ t.reg (.vca .mkup) = s.reg .op4
        ∧ t.reg (.vca .ctl) = 1 ∧ t.reg (.env 4 .aatt) = aa ∧ t.reg (.env 4 .arel) = ar ∧ t.reg (.env 4 .ctl) = 1
        ∧ Unchanged s t [.vca .th, .vca .ratio, .vca .mkup, .vca .ctl, .env 4 .aatt, .env 4 .arel, .env 4 .ctl])
      ∧ (¬pass → Failed .vcacfg .invalidParameter s t)

/-- R184, R186: with FS set and legal parameters, OPTCFG stores them, their linear images and the coefficients
of ENV[5] where all of these are in range, and keeps ENV[5].PREV; where one is not, it raises
InvalidParameter. -/
def Obligations.OptcfgStoresTheParameters : Prop :=
  ∀ s : State,
    let fs := s.reg .fs
    let tl := Config.fpow10 (Fp.div (s.reg .op0) Fp.twenty)
    let ml := Config.fpow10 (Fp.div (s.reg .op4) Fp.twenty)
    let aa := Config.fexp (Fp.div Fp.negOne (Fp.mul (s.reg .op2) fs))
    let ar := Config.fexp (Fp.div Fp.negOne (Fp.mul (s.reg .op3) fs))
    let pass := Fp.isFinite tl = true ∧ Fp.ge tl 0 = true ∧ Fp.isFinite ml = true ∧ Fp.ge ml 0 = true
      ∧ Fp.ge aa 0 = true ∧ Fp.le aa Fp.one = true ∧ Fp.ge ar 0 = true ∧ Fp.le ar Fp.one = true
    Fp.eq fs 0 = false → (∀ r ∈ [Reg.op0, .op1, .op2, .op3, .op4], Fp.isFinite (s.reg r) = true) →
    Fp.ge (s.reg .op1) Fp.one = true → Fp.gt (s.reg .op2) 0 = true → Fp.gt (s.reg .op3) 0 = true →
    ∃ t, exec .optcfg s = .next t
      ∧ (pass → t.reg (.opt .th) = s.reg .op0 ∧ t.reg (.opt .ratio) = s.reg .op1 ∧ t.reg (.opt .mkup) = s.reg .op4
        ∧ t.reg (.opt .tlin) = tl ∧ t.reg (.opt .mklin) = ml ∧ t.reg (.opt .ctl) = 1
        ∧ t.reg (.env 5 .aatt) = aa ∧ t.reg (.env 5 .arel) = ar ∧ t.reg (.env 5 .ctl) = 1
        ∧ Unchanged s t [.opt .th, .opt .ratio, .opt .mkup, .opt .tlin, .opt .mklin, .opt .ctl,
          .env 5 .aatt, .env 5 .arel, .env 5 .ctl])
      ∧ (¬pass → Failed .optcfg .invalidParameter s t)

/-- R171, R183: VCACFG and OPTCFG without a sample rate raise NotConfigured; with one, a threshold or makeup that
is not finite, a ratio that is not finite or below 1.0, or a time that is not finite or not positive raises
InvalidParameter. Both VALID bits of the unit are cleared (R246). -/
def Obligations.DynamicsConfigurationRejectsIllegalParameters : Prop :=
  ∀ (i : Instr) (s : State), i = .vcacfg ∨ i = .optcfg →
    (Fp.eq (s.reg .fs) 0 = true → ∃ t, exec i s = .next t ∧ Failed i .notConfigured s t)
    ∧ (Fp.eq (s.reg .fs) 0 = false →
        ((∃ r ∈ [Reg.op0, .op1, .op2, .op3, .op4], Fp.isFinite (s.reg r) = false)
          ∨ Fp.ge (s.reg .op1) Fp.one = false ∨ Fp.gt (s.reg .op2) 0 = false ∨ Fp.gt (s.reg .op3) 0 = false) →
        ∃ t, exec i s = .next t ∧ Failed i .invalidParameter s t)

/-- R170, R172, R173, R174, R177: VCASTEP with the VCA and ENV[4] configured and a finite sample detects the
level, applies the hard-knee curve, smooths the reduction in ENV[4] and multiplies the sample by the control. -/
def Obligations.VcastepProcessesOneSample : Prop :=
  ∀ s : State,
    let x := s.reg .op0
    let th := s.reg (.vca .th)
    let m := Fp.abs x
    let lvl := if Fp.lt m Fp.eps = true then Fp.levelFloor else Fp.mul Fp.twenty (Config.flog10 m)
    let tgt := if Fp.ge lvl th = true then Fp.add th (Fp.div (Fp.sub lvl th) (s.reg (.vca .ratio))) else lvl
    let gr := Fp.sub lvl tgt
    let p := s.reg (.env 4 .prev)
    let a := if Fp.gt gr p = true then s.reg (.env 4 .aatt) else s.reg (.env 4 .arel)
    let sm := Fp.add (Fp.mul a p) (Fp.mul (Fp.sub Fp.one a) gr)
    let c := Config.fpow10 (Fp.div (Fp.sub (s.reg (.vca .mkup)) sm) Fp.twenty)
    let y := Fp.mul x c
    (s.reg (.vca .ctl)).getLsbD 0 = true → (s.reg (.env 4 .ctl)).getLsbD 0 = true → Fp.isFinite x = true →
    ∃ t, exec .vcastep s = .next t ∧ t.reg (.env 4 .prev) = sm
      ∧ t.reg .res0 = y ∧ t.reg .res1 = c ∧ t.reg .res2 = sm ∧ t.reg .res3 = lvl
      ∧ t.reg .status = resultStatus s [sm, y, c, lvl]
      ∧ Unchanged s t [.env 4 .prev, .res0, .res1, .res2, .res3, .status]

/-- R172, R178: VCAGR with the VCA configured and a finite level writes the reduction and the target and changes
no unit. -/
def Obligations.VcagrEvaluatesTheCurve : Prop :=
  ∀ s : State,
    let l := s.reg .op0
    let th := s.reg (.vca .th)
    let tgt := if Fp.ge l th = true then Fp.add th (Fp.div (Fp.sub l th) (s.reg (.vca .ratio))) else l
    (s.reg (.vca .ctl)).getLsbD 0 = true → Fp.isFinite l = true →
    ∃ t, exec .vcagr s = .next t ∧ t.reg .res0 = Fp.sub l tgt ∧ t.reg .res1 = tgt
      ∧ t.reg .status = resultStatus s [Fp.sub l tgt, tgt] ∧ Unchanged s t [.res0, .res1, .status]

/-- R172, R179: below the threshold the reduction is +0.0 exactly and the target is the level. -/
def Obligations.VcaReductionIsZeroBelowThreshold : Prop :=
  ∀ s : State, (s.reg (.vca .ctl)).getLsbD 0 = true → Fp.isFinite (s.reg .op0) = true →
    Fp.lt (s.reg .op0) (s.reg (.vca .th)) = true →
    ∃ t, exec .vcagr s = .next t ∧ t.reg .res0 = 0x0000000000000000 ∧ t.reg .res1 = s.reg .op0
      ∧ t.reg .status = s.reg .status

/-- R181, R182, R185, R187: OPTSTEP with the optical unit and ENV[5] configured and a finite sample smooths |x| in
ENV[5], computes the clamped gain and multiplies the sample by gain and makeup. -/
def Obligations.OptstepProcessesOneSample : Prop :=
  ∀ s : State,
    let x := s.reg .op0
    let tl := s.reg (.opt .tlin)
    let m := Fp.abs x
    let p := s.reg (.env 5 .prev)
    let a := if Fp.gt m p = true then s.reg (.env 5 .aatt) else s.reg (.env 5 .arel)
    let env := Fp.add (Fp.mul a p) (Fp.mul (Fp.sub Fp.one a) m)
    let g0 := if Fp.le env tl = true then Fp.one
      else Fp.div (Fp.add tl (Fp.div (Fp.sub env tl) (s.reg (.opt .ratio)))) env
    let g := if Fp.lt g0 0 = true then 0 else if Fp.gt g0 Fp.one = true then Fp.one else g0
    let c := Fp.mul g (s.reg (.opt .mklin))
    let y := Fp.mul x c
    (s.reg (.opt .ctl)).getLsbD 0 = true → (s.reg (.env 5 .ctl)).getLsbD 0 = true → Fp.isFinite x = true →
    ∃ t, exec .optstep s = .next t ∧ t.reg (.env 5 .prev) = env
      ∧ t.reg .res0 = y ∧ t.reg .res1 = c ∧ t.reg .res2 = env ∧ t.reg .res3 = g
      ∧ t.reg .status = resultStatus s [env, g, c, y]
      ∧ Unchanged s t [.env 5 .prev, .res0, .res1, .res2, .res3, .status]

/-- R188 word for word: the gain is in [0.0, 1.0] whenever the envelope is not NaN. Expected to FAIL: the host
may write +infinity to ENV[5].PREV (R75), and R182 then divides infinity by infinity (log entry 13). -/
def Obligations.OpticalGainBoundedUnlessNaN : Prop :=
  ∀ s : State, RegistersLegal s → (s.reg (.opt .ctl)).getLsbD 0 = true → (s.reg (.env 5 .ctl)).getLsbD 0 = true →
    Fp.isFinite (s.reg .op0) = true →
    ∃ t, exec .optstep s = .next t
      ∧ (Fp.isNaN (t.reg .res2) = false → Fp.ge (t.reg .res3) 0 = true ∧ Fp.le (t.reg .res3) Fp.one = true)

/-- R188, R182, for a finite envelope: the gain is in [0.0, 1.0]. For an infinite one the model follows R182, log
entry 13. -/
def Obligations.OpticalGainBoundedForFiniteEnvelope : Prop :=
  ∀ s : State, RegistersLegal s → (s.reg (.opt .ctl)).getLsbD 0 = true → (s.reg (.env 5 .ctl)).getLsbD 0 = true →
    Fp.isFinite (s.reg .op0) = true → Fp.isFinite (smooth 5 (Fp.abs (s.reg .op0)) s) = true →
    ∃ t, exec .optstep s = .next t ∧ Fp.ge (t.reg .res3) 0 = true ∧ Fp.le (t.reg .res3) Fp.one = true

/-! ## Soft knee -/

/-- R205: KNCFG with a finite threshold, a finite positive range and a finite non-negative reduction stores
them; FS is not read. -/
def Obligations.KncfgStoresTheParameters : Prop :=
  ∀ s : State, (∀ r ∈ [Reg.op0, .op1, .op2], Fp.isFinite (s.reg r) = true) →
    Fp.gt (s.reg .op1) 0 = true → Fp.ge (s.reg .op2) 0 = true →
    ∃ t, exec .kncfg s = .next t ∧ t.reg (.knee .th) = s.reg .op0 ∧ t.reg (.knee .range) = s.reg .op1
      ∧ t.reg (.knee .red) = s.reg .op2 ∧ t.reg (.knee .ctl) = 1
      ∧ Unchanged s t [.knee .th, .knee .range, .knee .red, .knee .ctl]

/-- R201: any other parameters make KNCFG raise InvalidParameter and clear KNEE.CTL.VALID. -/
def Obligations.KncfgRejectsIllegalParameters : Prop :=
  ∀ s : State, ((∃ r ∈ [Reg.op0, .op1, .op2], Fp.isFinite (s.reg r) = false)
      ∨ Fp.gt (s.reg .op1) 0 = false ∨ Fp.ge (s.reg .op2) 0 = false) →
    ∃ t, exec .kncfg s = .next t ∧ Failed .kncfg .invalidParameter s t

/-- R202, R203, R206: KNEVAL on a configured unit with a finite level writes the reduction ratio and the gain and
changes no unit. -/
def Obligations.KnevalEvaluatesTheKnee : Prop :=
  ∀ s : State,
    let l := s.reg .op0
    let rg := s.reg (.knee .range)
    let red := s.reg (.knee .red)
    let d := Fp.sub l (s.reg (.knee .th))
    let r := if Fp.gt d 0 = false then 0
      else if Fp.lt d rg = true then Fp.mul (Fp.div d rg) (Fp.div red Fp.twenty) else Fp.div red Fp.twenty
    let g := if Fp.eq r 0 = true then Fp.one else Config.fpow10 (Fp.neg r)
    (s.reg (.knee .ctl)).getLsbD 0 = true → Fp.isFinite l = true →
    ∃ t, exec .kneval s = .next t ∧ t.reg .res0 = r ∧ t.reg .res1 = g
      ∧ t.reg .status = resultStatus s [r, g] ∧ Unchanged s t [.res0, .res1, .status]

/-- R202, R203, R204: for finite level and threshold the first test of the knee is `l > th`. At or below the
threshold the ratio is +0.0 and the gain 1.0 exactly. Above it, beyond the window of a unit whose ratio limit
exceeds 0.0, the ratio is that limit, so it is not neutral there; a unit with reduction 0.0 of either sign is
neutral above the threshold too (V6.10). -/
def Obligations.KneeIsNeutralUpToThreshold : Prop :=
  ∀ s : State, (s.reg (.knee .ctl)).getLsbD 0 = true →
    Fp.isFinite (s.reg .op0) = true → Fp.isFinite (s.reg (.knee .th)) = true →
    Fp.gt (Fp.sub (s.reg .op0) (s.reg (.knee .th))) 0 = Fp.gt (s.reg .op0) (s.reg (.knee .th))
    ∧ (Fp.le (s.reg .op0) (s.reg (.knee .th)) = true →
        ∃ t, exec .kneval s = .next t ∧ t.reg .res0 = 0 ∧ t.reg .res1 = 0x3FF0000000000000)
    ∧ (Fp.gt (s.reg .op0) (s.reg (.knee .th)) = true →
        Fp.ge (Fp.sub (s.reg .op0) (s.reg (.knee .th))) (s.reg (.knee .range)) = true →
        Fp.gt (Fp.div (s.reg (.knee .red)) Fp.twenty) 0 = true →
        ∃ t, exec .kneval s = .next t ∧ t.reg .res0 = Fp.div (s.reg (.knee .red)) Fp.twenty
          ∧ Fp.gt (t.reg .res0) 0 = true)
    ∧ (Fp.gt (s.reg .op0) (s.reg (.knee .th)) = true → Fp.eq (s.reg (.knee .red)) 0 = true →
        ∃ t, exec .kneval s = .next t ∧ Fp.eq (t.reg .res0) 0 = true ∧ t.reg .res1 = 0x3FF0000000000000)

/-! ## Errors -/

/-- R248: a step or evaluation on a unit that is not configured raises NotConfigured whatever its sample operand,
and so does a configuration command that needs FS while FS = 0.0. -/
def Obligations.NotConfiguredIsRaised : Prop :=
  ∀ s : State,
    (∀ u, (s.reg (.bq u .ctl)).getLsbD 0 = false →
      ∃ t, exec (.bqstep u) s = .next t ∧ Failed (.bqstep u) .notConfigured s t)
    ∧ (∀ e, (s.reg (.env e .ctl)).getLsbD 0 = false →
      ∃ t, exec (.envstep e) s = .next t ∧ Failed (.envstep e) .notConfigured s t)
    ∧ ((s.reg (.vca .ctl)).getLsbD 0 = false ∨ (s.reg (.env 4 .ctl)).getLsbD 0 = false →
      ∃ t, exec .vcastep s = .next t ∧ Failed .vcastep .notConfigured s t)
    ∧ ((s.reg (.vca .ctl)).getLsbD 0 = false → ∃ t, exec .vcagr s = .next t ∧ Failed .vcagr .notConfigured s t)
    ∧ ((s.reg (.opt .ctl)).getLsbD 0 = false ∨ (s.reg (.env 5 .ctl)).getLsbD 0 = false →
      ∃ t, exec .optstep s = .next t ∧ Failed .optstep .notConfigured s t)
    ∧ ((s.reg (.knee .ctl)).getLsbD 0 = false → ∃ t, exec .kneval s = .next t ∧ Failed .kneval .notConfigured s t)
    ∧ (Fp.eq (s.reg .fs) 0 = true →
      (∀ u kind, ∃ t, exec (.bqdsn u kind) s = .next t ∧ Failed (.bqdsn u kind) .notConfigured s t)
      ∧ (∀ e, ∃ t, exec (.envcfg e) s = .next t ∧ Failed (.envcfg e) .notConfigured s t)
      ∧ (∃ t, exec .vcacfg s = .next t ∧ Failed .vcacfg .notConfigured s t)
      ∧ (∃ t, exec .optcfg s = .next t ∧ Failed .optcfg .notConfigured s t))

/-- R247: a NaN or infinite sample operand makes a step or evaluation on a configured unit raise NonFiniteInput
and write nothing. -/
def Obligations.NonFiniteInputIsRaised : Prop :=
  ∀ s : State, Fp.isFinite (s.reg .op0) = false →
    (∀ u, (s.reg (.bq u .ctl)).getLsbD 0 = true →
      ∃ t, exec (.bqstep u) s = .next t ∧ Failed (.bqstep u) .nonFiniteInput s t)
    ∧ (∀ e, (s.reg (.env e .ctl)).getLsbD 0 = true →
      ∃ t, exec (.envstep e) s = .next t ∧ Failed (.envstep e) .nonFiniteInput s t)
    ∧ ((s.reg (.vca .ctl)).getLsbD 0 = true ∧ (s.reg (.env 4 .ctl)).getLsbD 0 = true →
      ∃ t, exec .vcastep s = .next t ∧ Failed .vcastep .nonFiniteInput s t)
    ∧ ((s.reg (.vca .ctl)).getLsbD 0 = true → ∃ t, exec .vcagr s = .next t ∧ Failed .vcagr .nonFiniteInput s t)
    ∧ ((s.reg (.opt .ctl)).getLsbD 0 = true ∧ (s.reg (.env 5 .ctl)).getLsbD 0 = true →
      ∃ t, exec .optstep s = .next t ∧ Failed .optstep .nonFiniteInput s t)
    ∧ ((s.reg (.knee .ctl)).getLsbD 0 = true → ∃ t, exec .kneval s = .next t ∧ Failed .kneval .nonFiniteInput s t)

/-- R45, R246: a configuration command either completes, leaving every VALID bit it owns at 1 and the latch as it
was, or raises NotConfigured or InvalidParameter, leaving every VALID bit it owns at 0, the rest of those
registers and all others as they were. -/
def Obligations.ConfigurationCompletesOrInvalidates : Prop :=
  ∀ (i : Instr) (s : State), isConfiguration i = true →
    ∃ t, exec i s = .next t
      ∧ (((∀ c ∈ validBitsOf i, (t.reg c).getLsbD 0 = true) ∧ Unchanged s t (writtenBy i))
        ∨ (∃ e, (e = .notConfigured ∨ e = .invalidParameter) ∧ Failed i e s t
            ∧ ∀ c ∈ validBitsOf i, (t.reg c).getLsbD 0 = false))

/-- R250: a step or evaluation command that completes sets STATUS.NF exactly where a value it wrote is not finite
and leaves the rest of STATUS and ERRCMD; no other command changes NF but CLRST and RESET. -/
def Obligations.NonFiniteFlagFollowsTheResults : Prop :=
  ∀ (i : Instr) (s : State), ∃ t, exec i s = .next t
    ∧ (isRuntime i = true →
        (t.reg .status = resultStatus s ((writtenBy i).map t.reg) ∧ Unchanged s t (.status :: writtenBy i))
          ∨ Failed i .notConfigured s t ∨ Failed i .nonFiniteInput s t)
    ∧ (isRuntime i = false → i ≠ .clrst → i ≠ .reset → (t.reg .status).getLsbD 2 = (s.reg .status).getLsbD 2)

/-- R32, R33, R244: every command answers a next state, and whether it completes or fails, only the registers its
rule lists, the VALID bits it owns, STATUS and ERRCMD can differ after it; RESET apart, no command writes an
operand register. No command, RESET included, touches the host's side of the model (log entry 11). -/
def Obligations.CommandsWriteOnlyTheirRegisters : Prop :=
  ∀ (i : Instr) (s : State),
    ∃ t, exec i s = .next t ∧ t.pending = s.pending ∧ t.reads = s.reads
      ∧ (i ≠ .reset → Unchanged s t (.status :: .errcmd :: (validBitsOf i ++ writtenBy i))
        ∧ ∀ r ∈ [Reg.op0, .op1, .op2, .op3, .op4, .op5], t.reg r = s.reg r)

/-- R242, R95, R99: writing to CMD a word whose fields are not those of a command records IllegalCommand with the
whole word and executes nothing. -/
def Obligations.IllegalWordsRaiseIllegalCommand : Prop :=
  ∀ (s : State) (w : Word), fieldsWellFormed (fieldsOf w) = false →
    ∃ t, serve (.write 0x000 w) s = .next t ∧ ErrorRecorded .illegalCommand w s t
      ∧ Unchanged s t [.status, .errcmd]

/-! ## Host accesses -/

/-- R23, R34, R76: a step serves the oldest pending access, whatever it is and wherever it goes, in the state with
the access taken off the list; where that is a write to CMD of a word that decodes, it runs exactly that command.
The list of pending accesses is the model's own, log entry 1. -/
def Obligations.StepRunsDecodedCommand : Prop :=
  (∀ (s : State) (a : HostAccess) (rest : List HostAccess), s.pending = a :: rest →
    step s = serve a { s with pending := rest })
  ∧ ∀ (s : State) (w : Word) (i : Instr) (rest : List HostAccess),
    s.pending = .write 0x000 w :: rest → decode w = .instr i → step s = exec i { s with pending := rest }

/-- R71, R72, R74: a pending read answers the register at the index, or 0 where it is unmapped, and changes no
register. With nothing pending the core waits: the model's choice, log entry 3. -/
def Obligations.StepServesReadsAndWaits : Prop :=
  ∀ s : State,
    (s.pending = [] → step s = .next s)
    ∧ (∀ a rest, s.pending = .read a :: rest →
        ∃ t, step s = .next t ∧ t.pending = rest ∧ (∀ r, t.reg r = s.reg r)
          ∧ (∀ r, regAt a = some r → t.reads = s.reads ++ [s.reg r])
          ∧ (regAt a = none → t.reads = s.reads ++ [0]))

/-- R75: a write to OP0..OP5, a tap or PREV stores the word exactly; it is read back unchanged, and no other
register changes. A write to CMD executes the command and stores nothing: CMD reads 0 whatever was written. -/
def Obligations.WritableRegistersStoreTheWord : Prop :=
  (∀ (s : State) (r : Reg) (v : Word),
    (r ∈ [Reg.op0, .op1, .op2, .op3, .op4, .op5] ∨ (∃ u, r = .bq u .x1 ∨ r = .bq u .x2 ∨ r = .bq u .y1 ∨ r = .bq u .y2)
      ∨ ∃ e, r = .env e .prev) →
    ∃ t, serve (.write r.index v) s = .next t ∧ t.reg r = v ∧ t.peek r.index = v ∧ Unchanged s t [r])
  ∧ (∀ (s : State) (w : Word) (i : Instr), decode w = .instr i → serve (.write 0x000 w) s = exec i s)
  ∧ ∀ s : State, s.peek 0x000 = 0

/-- R72, R73, R243: a write to any index but CMD and those of the writable registers is discarded and records
IllegalWrite with `0xFFFFFFFF00000000 | index`. -/
def Obligations.OtherWritesRaiseIllegalWrite : Prop :=
  ∀ (s : State) (a : RegIndex) (v : Word),
    a ≠ 0x000 → ¬(0x008 ≤ a.toNat ∧ a.toNat ≤ 0x00D) →
    (∀ u, u < 4 → ¬(0x106 + 0x10 * u ≤ a.toNat ∧ a.toNat ≤ 0x109 + 0x10 * u)) →
    (∀ e, e < 6 → a.toNat ≠ 0x202 + 0x8 * e) →
    ∃ t, serve (.write a v) s = .next t ∧ ErrorRecorded .illegalWrite (0xFFFFFFFF00000000 ||| a.setWidth 64) s t
      ∧ Unchanged s t [.status, .errcmd]

/-- R79: reading an index, or writing a writable register, twice over leaves the registers as once does. -/
def Obligations.ReadsAndStoresAreIdempotent : Prop :=
  ∀ (s t : State) (a : HostAccess),
    ((∃ i, a = .read i) ∨ ∃ (r : Reg) (v : Word), a = .write r.index v ∧ r.access = .readWrite) → serve a s = .next t →
    ∃ t', serve a t = .next t' ∧ ∀ r, t'.reg r = t.reg r

/-- R51, R85: every register is at the index R51 gives it, no two at one, and the unmapped indices are exactly the
gaps R85 lists. -/
def Obligations.RegisterMapHasExactlyTheListedGaps : Prop :=
  ([Reg.cmd, .status, .errcmd, .fs, .id, .op0, .op1, .op2, .op3, .op4, .op5, .res0, .res1, .res2, .res3].map Reg.index
      = [0x000, 0x001, 0x002, 0x003, 0x004, 0x008, 0x009, 0x00A, 0x00B, 0x00C, 0x00D, 0x010, 0x011, 0x012, 0x013]
    ∧ (∀ u : BqIndex, [BqReg.b0, .b1, .b2, .a0, .a1, .a2, .x1, .x2, .y1, .y2, .ctl].map
          (fun r => (Reg.bq u r).index.toNat)
        = [0x0, 0x1, 0x2, 0x3, 0x4, 0x5, 0x6, 0x7, 0x8, 0x9, 0xA].map (fun n => 0x100 + 0x10 * u.val + n))
    ∧ (∀ e : EnvIndex, [EnvReg.aatt, .arel, .prev, .ctl].map (fun r => (Reg.env e r).index.toNat)
        = [0x0, 0x1, 0x2, 0x3].map (fun n => 0x200 + 0x8 * e.val + n))
    ∧ [Reg.vca .th, .vca .ratio, .vca .mkup, .vca .ctl, .opt .th, .opt .ratio, .opt .mkup, .opt .tlin, .opt .mklin,
        .opt .ctl, .knee .th, .knee .range, .knee .red, .knee .ctl].map Reg.index
      = [0x300, 0x301, 0x302, 0x303, 0x310, 0x311, 0x312, 0x313, 0x314, 0x315, 0x320, 0x321, 0x322, 0x323])
    ∧ (∀ r : Reg, regAt r.index = some r) ∧ (∀ (a : RegIndex) (r : Reg), regAt a = some r → r.index = a)
    ∧ ∀ a : RegIndex, regAt a = none ↔
      ((0x005 ≤ a.toNat ∧ a.toNat ≤ 0x007) ∨ (0x00E ≤ a.toNat ∧ a.toNat ≤ 0x00F)
        ∨ (0x014 ≤ a.toNat ∧ a.toNat ≤ 0x0FF)
        ∨ (∃ u, u < 4 ∧ 0x10B + 0x10 * u ≤ a.toNat ∧ a.toNat ≤ 0x10F + 0x10 * u)
        ∨ (0x140 ≤ a.toNat ∧ a.toNat ≤ 0x1FF)
        ∨ (∃ e, e < 6 ∧ 0x204 + 0x8 * e ≤ a.toNat ∧ a.toNat ≤ 0x207 + 0x8 * e)
        ∨ (0x230 ≤ a.toNat ∧ a.toNat ≤ 0x2FF) ∨ (0x304 ≤ a.toNat ∧ a.toNat ≤ 0x30F)
        ∨ (0x316 ≤ a.toNat ∧ a.toNat ≤ 0x31F) ∨ 0x324 ≤ a.toNat)

/-- R53: two cores that read alike at every index, with the same host side, are in the same state: no state is
hidden from host reads. -/
def Obligations.HostReadsShowTheWholeState : Prop :=
  ∀ s t : State, (∀ a : RegIndex, s.peek a = t.peek a) → s.pending = t.pending → s.reads = t.reads → s = t

/-! ## Encoding -/

/-- R90, R98, R100: a word decodes to a command exactly when it is that command's encoding: no bit is dropped,
and no second word stands for it. -/
def Obligations.DecodeAcceptsExactlyTheEncodings : Prop :=
  ∀ (w : Word) (i : Instr), decode w = .instr i ↔ w = encode i

/-- R98: the decoder gives a mnemonic exactly to the words its row's match, mask and ranges accept. R92, R93, R94:
the slot of the command is the number in UNIT, and the kind of BQDSN has the code in KIND; both fields are 0 where
the command has none. -/
def Obligations.DecodeFollowsTheOpcodeTable : Prop :=
  (∀ (w : Word) (m : String),
    (∃ i, decode w = .instr i ∧ mnemonicOf i = m) ↔ ∃ row ∈ opcodeRows, row.mnemonic = m ∧ row.accepts w = true)
  ∧ ∀ (w : Word) (i : Instr), decode w = .instr i →
    (w.extractLsb' 20 4).toNat = (match i with
      | .bqdsn u _ | .bqld u | .bqstep u | .bqclr u => u.val
      | .envcfg e | .envld e | .envstep e | .envclr e => e.val
      | .nop | .reset | .clrst | .setfs | .vcacfg | .vcastep | .vcagr | .optcfg | .optstep | .kncfg | .kneval => 0)
    ∧ (w.extractLsb' 16 4).toNat = (match i with
      | .bqdsn _ .peaking => 0
      | .bqdsn _ .lowShelf => 1
      | .bqdsn _ .highShelf => 2
      | .bqdsn _ .bandPass => 3
      | .bqdsn _ .highPass => 4
      | .bqdsn _ .lowPass => 5
      | .bqld _ | .bqstep _ | .bqclr _ | .envcfg _ | .envld _ | .envstep _ | .envclr _ => 0
      | .nop | .reset | .clrst | .setfs | .vcacfg | .vcastep | .vcagr | .optcfg | .optstep | .kncfg | .kneval => 0)

/-- R104: the encoding examples, and the words it calls illegal. -/
def Obligations.EncodingExamplesDecode : Prop :=
  decode 0x00000000 = .instr .nop ∧ decode 0x01000000 = .instr .reset ∧ decode 0x03000000 = .instr .setfs
    ∧ decode 0x10000000 = .instr (.bqdsn 0 .peaking) ∧ decode 0x10240000 = .instr (.bqdsn 2 .highPass)
    ∧ decode 0x10350000 = .instr (.bqdsn 3 .lowPass) ∧ decode 0x11100000 = .instr (.bqld 1)
    ∧ decode 0x12000000 = .instr (.bqstep 0) ∧ decode 0x12300000 = .instr (.bqstep 3)
    ∧ decode 0x22500000 = .instr (.envstep 5) ∧ decode 0x31000000 = .instr .vcastep
    ∧ decode 0x51000000 = .instr .kneval
    ∧ ∀ w ∈ [(0x12400000 : Word), 0x10060000, 0x31000001, 0x31100000, 0x60000000, 0x0000000100000000],
        ∀ i, decode w ≠ .instr i

/-! ## Invariants and whole-machine rules -/

/-- R35, R37, R41, R49, R50, R240: every step keeps the registers legal, whatever the parameter functions
return. -/
def Obligations.StepKeepsRegistersLegal : Prop :=
  ∀ s t : State, RegistersLegal s → step s = .next t → RegistersLegal t

/-- R270: the registers are legal after reset. -/
def Obligations.ResetRegistersAreLegal : Prop := RegistersLegal State.reset

/-- R128: BQDSN and BQLD write, of the registers other than STATUS and ERRCMD, only the coefficients and CTL of
their slot, and a tap changes in a step only by BQSTEP or BQCLR of its slot, by RESET, or by a host write to that
tap. -/
def Obligations.TapsChangeOnlyByTheirCommands : Prop :=
  (∀ (i : Instr) (u : BqIndex) (s : State), ((∃ kind, i = .bqdsn u kind) ∨ i = .bqld u) →
    ∃ t, exec i s = .next t ∧ Unchanged s t [.status, .errcmd, .bq u .b0, .bq u .b1, .bq u .b2, .bq u .a1, .bq u .a2,
      .bq u .ctl])
  ∧ ∀ (s t : State) (u : BqIndex) (r : BqReg), r = .x1 ∨ r = .x2 ∨ r = .y1 ∨ r = .y2 → step s = .next t →
    t.reg (.bq u r) ≠ s.reg (.bq u r) →
    ∃ a rest, s.pending = a :: rest
      ∧ (a = .write 0x000 (encode (.bqstep u)) ∨ a = .write 0x000 (encode (.bqclr u))
        ∨ a = .write 0x000 (encode .reset) ∨ ∃ v, a = .write (Reg.bq u r).index v)

/-- R153: the configuration commands never write a PREV, and a PREV changes in a step only by ENVSTEP or ENVCLR of
its slot, VCASTEP for slot 4, OPTSTEP for slot 5, RESET, or a host write to it. -/
def Obligations.PreviousValuesChangeOnlyByTheirCommands : Prop :=
  (∀ (i : Instr) (s : State), isConfiguration i = true →
    ∃ t, exec i s = .next t ∧ ∀ e, t.reg (.env e .prev) = s.reg (.env e .prev))
  ∧ ∀ (s t : State) (e : EnvIndex), step s = .next t → t.reg (.env e .prev) ≠ s.reg (.env e .prev) →
    ∃ a rest, s.pending = a :: rest
      ∧ (a = .write 0x000 (encode (.envstep e)) ∨ a = .write 0x000 (encode (.envclr e))
        ∨ (e = 4 ∧ a = .write 0x000 (encode .vcastep)) ∨ (e = 5 ∧ a = .write 0x000 (encode .optstep))
        ∨ a = .write 0x000 (encode .reset) ∨ ∃ v, a = .write (Reg.env e .prev).index v)

/-- R35: ERR, OVF and NF are sticky: a step that clears one of them serves CLRST or RESET. -/
def Obligations.StatusFlagsAreSticky : Prop :=
  ∀ (s t : State) (b : Nat), b < 3 → step s = .next t →
    (s.reg .status).getLsbD b = true → (t.reg .status).getLsbD b = false →
    ∃ rest, s.pending = .write 0x000 (encode .clrst) :: rest ∨ s.pending = .write 0x000 (encode .reset) :: rest

/-! ## Arithmetic -/

/-- R7, R13: a sum or difference of finite values is the exact one rounded once to nearest, ties to even. Where
overflow to infinity begins is presumed from IEEE 754, log entry 20. -/
def Obligations.AddAndSubRoundToNearestEven : Prop :=
  ∀ a b : Word, Fp.isFinite a = true → Fp.isFinite b = true →
    RoundsTo ((value a : ℝ) + (value b : ℝ)) (Fp.add a b) ∧ RoundsTo ((value a : ℝ) - (value b : ℝ)) (Fp.sub a b)

/-- R7, R13: a product of finite values, or a quotient by one that is not zero, is the exact one rounded once to
nearest, ties to even. Where overflow to infinity begins is presumed from IEEE 754, log entry 20; division by zero
is in NaNExactlyInTheInvalidCases. -/
def Obligations.MulAndDivRoundToNearestEven : Prop :=
  ∀ a b : Word, Fp.isFinite a = true → Fp.isFinite b = true →
    RoundsTo ((value a : ℝ) * (value b : ℝ)) (Fp.mul a b)
    ∧ (value b ≠ 0 → RoundsTo ((value a : ℝ) / (value b : ℝ)) (Fp.div a b))

/-- R7, R13: the square root of a finite non-negative value is the exact one rounded once to nearest, ties to
even. The rounding at the range's end is presumed from IEEE 754, log entry 20. -/
def Obligations.SqrtRoundsToNearestEven : Prop :=
  ∀ a : Word, Fp.isFinite a = true → 0 ≤ value a → RoundsTo (Real.sqrt (value a : ℝ)) (Fp.sqrt a)

/-- R13: on finite values the comparisons are those of the numbers, so both zeros are equal; with a NaN operand
every comparison is false. -/
def Obligations.ComparisonsFollowTheNumbers : Prop :=
  ∀ a b : Word,
    (Fp.isFinite a = true → Fp.isFinite b = true →
      (Fp.lt a b = true ↔ value a < value b) ∧ (Fp.le a b = true ↔ value a ≤ value b)
        ∧ (Fp.eq a b = true ↔ value a = value b))
    ∧ (Fp.isNaN a = true ∨ Fp.isNaN b = true →
      Fp.lt a b = false ∧ Fp.le a b = false ∧ Fp.gt a b = false ∧ Fp.ge a b = false ∧ Fp.eq a b = false)

/-- R16, R17: the operations answer a NaN exactly in the invalid cases of IEEE 754 and where an operand is NaN; its
payload is free (log entry 4). Outside those cases: what they answer with an infinite operand, what a non-zero
number divided by zero gives, and the sign of every zero result. All of it is presumed from the standard, which the
spec refers to: log entry 20. -/
def Obligations.NaNExactlyInTheInvalidCases : Prop :=
  ∀ a b : Word,
    (Fp.isNaN (Fp.add a b) = true ↔
      Fp.isNaN a = true ∨ Fp.isNaN b = true ∨ (Fp.isInf a = true ∧ Fp.isInf b = true ∧ a ≠ b))
    ∧ (Fp.isNaN (Fp.sub a b) = true ↔
      Fp.isNaN a = true ∨ Fp.isNaN b = true ∨ (Fp.isInf a = true ∧ a = b))
    ∧ (Fp.isNaN (Fp.mul a b) = true ↔
      Fp.isNaN a = true ∨ Fp.isNaN b = true ∨ (Fp.isInf a = true ∧ Fp.isZero b = true)
        ∨ (Fp.isZero a = true ∧ Fp.isInf b = true))
    ∧ (Fp.isNaN (Fp.div a b) = true ↔
      Fp.isNaN a = true ∨ Fp.isNaN b = true ∨ (Fp.isInf a = true ∧ Fp.isInf b = true)
        ∨ (Fp.isZero a = true ∧ Fp.isZero b = true))
    ∧ (Fp.isNaN (Fp.sqrt a) = true ↔ Fp.isNaN a = true ∨ Fp.lt a 0 = true)
    -- a sum or difference with an infinite term is that infinity
    ∧ (Fp.isInf a = true → Fp.isFinite b = true →
      Fp.add a b = a ∧ Fp.add b a = a ∧ Fp.sub a b = a ∧ Fp.sub b a = Fp.neg a)
    ∧ (Fp.isInf a = true → Fp.add a a = a ∧ Fp.sub a (Fp.neg a) = a)
    -- an exact zero sum is +0.0 unless both terms are negative
    ∧ (Fp.isFinite a = true → Fp.isFinite b = true → value a + value b = 0 →
      Fp.add a b = if a.getLsbD 63 && b.getLsbD 63 then 0x8000000000000000 else 0)
    ∧ (Fp.isFinite a = true → Fp.isFinite b = true → value a - value b = 0 →
      Fp.sub a b = if a.getLsbD 63 && !b.getLsbD 63 then 0x8000000000000000 else 0)
    -- products and quotients, zeros and infinities included, take the exclusive or of the signs
    ∧ (Fp.isNaN (Fp.mul a b) = false → (Fp.mul a b).getLsbD 63 = (a.getLsbD 63 != b.getLsbD 63))
    ∧ (Fp.isNaN (Fp.div a b) = false → (Fp.div a b).getLsbD 63 = (a.getLsbD 63 != b.getLsbD 63))
    ∧ (Fp.isInf a = true → Fp.isNaN b = false → Fp.isZero b = false →
      Fp.isInf (Fp.mul a b) = true ∧ Fp.isInf (Fp.mul b a) = true)
    ∧ (Fp.isInf a = true → Fp.isFinite b = true → Fp.isInf (Fp.div a b) = true ∧ Fp.isZero (Fp.div b a) = true)
    ∧ (Fp.isFinite a = true → Fp.isZero a = false → Fp.isZero b = true → Fp.isInf (Fp.div a b) = true)
    -- the root of a zero or of +infinity is that operand, and no other root is negative
    ∧ (Fp.isZero a = true → Fp.sqrt a = a)
    ∧ Fp.sqrt 0x7FF0000000000000 = 0x7FF0000000000000
    ∧ (Fp.isNaN (Fp.sqrt a) = false → Fp.isZero a = false → (Fp.sqrt a).getLsbD 63 = false)

/-! ## Derived properties -/

/-- R125, under P1 of R20: a peaking design at 0 dB that completes has B0 = 1.0 exactly, B1 = A1 and B2 = A2 bit
for bit. -/
def Obligations.PeakingAtZeroGainIsUnity : Prop :=
  P1 → ∀ (u : BqIndex) (s t : State), Fp.eq (s.reg .op2) 0 = true → exec (.bqdsn u .peaking) s = .next t →
    (t.reg (.bq u .ctl)).getLsbD 0 = true →
    t.reg (.bq u .b0) = 0x3FF0000000000000 ∧ t.reg (.bq u .b1) = t.reg (.bq u .a1)
      ∧ t.reg (.bq u .b2) = t.reg (.bq u .a2)

/-- R130: a zero sample through a configured slot with zero taps and finite coefficients gives a zero, and sets no
flag. -/
def Obligations.BiquadKeepsSilence : Prop :=
  ∀ (u : BqIndex) (s : State), (s.reg (.bq u .ctl)).getLsbD 0 = true →
    (∀ r ∈ [BqReg.b0, .b1, .b2, .a1, .a2], Fp.isFinite (s.reg (.bq u r)) = true) →
    (∀ r ∈ [BqReg.x1, .x2, .y1, .y2], Fp.eq (s.reg (.bq u r)) 0 = true) → Fp.eq (s.reg .op0) 0 = true →
    ∃ t, exec (.bqstep u) s = .next t ∧ Fp.eq (t.reg .res0) 0 = true ∧ t.reg .status = s.reg .status

/-- R129: filtering samples in two parts, with any accesses between them that spare the slot, reads the same
results and leaves the same slot as filtering them in one. It rests on log entry 4 (a NaN's payload is a function
of the operation and its operands). -/
def Obligations.BiquadStreamingEquivalence : Prop :=
  ∀ (u : BqIndex) (s : State) (xs ys : List Word) (between : List HostAccess),
    (s.reg (.bq u .ctl)).getLsbD 0 = true → (∀ x ∈ xs ++ ys, Fp.isFinite x = true) →
    (∀ a ∈ between, sparesBq u a = true) →
    let whole := afterAccesses (filterAccesses u (xs ++ ys)) { s with reads := [] }
    let first := afterAccesses (filterAccesses u xs) { s with reads := [] }
    let second := afterAccesses (filterAccesses u ys) { afterAccesses between first with reads := [] }
    whole.reads = first.reads ++ second.reads ∧ whole.bq.get u = second.bq.get u

/-- R159: the same for a smoother slot and its targets. It rests on log entry 4. -/
def Obligations.SmootherStreamingEquivalence : Prop :=
  ∀ (e : EnvIndex) (s : State) (xs ys : List Word) (between : List HostAccess),
    (s.reg (.env e .ctl)).getLsbD 0 = true → (∀ x ∈ xs ++ ys, Fp.isFinite x = true) →
    (∀ a ∈ between, sparesEnv e a = true) →
    let whole := afterAccesses (smoothAccesses e (xs ++ ys)) { s with reads := [] }
    let first := afterAccesses (smoothAccesses e xs) { s with reads := [] }
    let second := afterAccesses (smoothAccesses e ys) { afterAccesses between first with reads := [] }
    whole.reads = first.reads ++ second.reads ∧ whole.env.get e = second.env.get e

/-- R263: whatever the interleaving, each core ends as the accesses to it alone leave it, the values read from it
included. That several cores are a list of states is the model's choice, log entry 15. -/
def Obligations.ChannelsAreIndependent : Prop :=
  ∀ (as : List (Nat × HostAccess)) (cores : List State) (k : Nat),
    (serveCores as cores)[k]? = (cores[k]?).map (afterAccesses (accessesTo k as))
end

