-- ==== Sys2Proof/Laws/Float.lean ====
section
/-! SUPPORT. Small lemmas of the binary64 operations: the parts of a packed word, the bound of a rounded
magnitude, and what is known of a produced NaN. -/

namespace Sys2Proof.Machine.Fp

theorem sign_ofMag (s : Bool) (m : Nat) : sign (ofMag s m) = s := by
  unfold sign ofMag
  rw [BitVec.getLsbD_append]
  cases s <;> simp [BitVec.ofBool]

theorem magBits_ofMag (s : Bool) {m : Nat} (h : m < 2 ^ 63) : magBits (ofMag s m) = m := by
  unfold magBits ofMag
  have e : (BitVec.ofBool s ++ BitVec.ofNat 63 m).extractLsb' 0 63 = BitVec.ofNat 63 m := by
    apply BitVec.eq_of_getLsbD_eq
    intro i hi
    simp only [BitVec.getLsbD_extractLsb', BitVec.getLsbD_append, Nat.zero_add, hi]
    simp
  rw [e, BitVec.toNat_ofNat]
  exact Nat.mod_eq_of_lt h

theorem magBits_lt (w : Word) : magBits w < 2 ^ 63 := (w.extractLsb' 0 63).isLt

theorem packBits_le (k q : Nat) : packBits k q ≤ infBits := Nat.min_le_right _ _

/-- A rounded magnitude is at most infinity, so it is never a NaN. -/
theorem roundUnits_le (n d : Nat) : roundUnits n d ≤ infBits := by
  simp only [roundUnits]
  split <;> exact packBits_le _ _

theorem roundRoot_le (m : Nat) : roundRoot m ≤ infBits := by
  simp only [roundRoot]
  split <;> exact packBits_le _ _

/-- A value is exactly one of finite, infinite and NaN. -/
theorem finite_or_inf_or_nan (w : Word) : isFinite w = true ∨ isInf w = true ∨ isNaN w = true := by
  simp only [isFinite, isInf, isNaN, decide_eq_true_eq]
  omega

theorem not_nan_of_finite {w : Word} (h : isFinite w = true) : isNaN w = false := by
  simp only [isFinite, isNaN, decide_eq_true_eq, decide_eq_false_iff_not] at *
  omega

theorem not_inf_of_finite {w : Word} (h : isFinite w = true) : isInf w = false := by
  simp only [isFinite, isInf, decide_eq_true_eq, decide_eq_false_iff_not] at *
  omega

/-- A packed rounded magnitude is no NaN. -/
theorem not_nan_ofMag (s : Bool) {m : Nat} (h : m ≤ infBits) : isNaN (ofMag s m) = false := by
  have hm : m < 2 ^ 63 := lt_of_le_of_lt h (by norm_num [infBits])
  simp only [isNaN, magBits_ofMag s hm, decide_eq_false_iff_not]
  omega

/-- All that is known of a NaN an operation produces (R17). -/
theorem isNaN_nanResult (op : Config.FpOp) (a b : Word) : isNaN (nanResult op a b) = true := by
  unfold nanResult
  simp only
  split
  · assumption
  · decide

end Sys2Proof.Machine.Fp
end

