-- ==== Sys2Proof/Laws/State.lean ====
section
/-! SUPPORT. Small lemmas of the register file: what each register reads after each write. -/

namespace Sys2Proof.Machine

/-! ## Slots -/

@[simp] theorem BqBank.get_set (b : BqBank) (u v : BqIndex) (x : BqSlot) :
    (b.set u x).get v = if v = u then x else b.get v := by
  fin_cases u <;> fin_cases v <;> rfl

@[simp] theorem EnvBank.get_set (b : EnvBank) (e f : EnvIndex) (x : EnvSlot) :
    (b.set e x).get f = if f = e then x else b.get f := by
  fin_cases e <;> fin_cases f <;> rfl

@[simp] theorem BqSlot.reg_a0 (x : BqSlot) : x.reg .a0 = Fp.one := rfl

@[simp] theorem BqSlot.reg_setReg (x : BqSlot) (r q : BqReg) (v : Word) :
    (x.setReg r v).reg q = if q = r ∧ r ≠ .a0 then v else x.reg q := by
  cases r <;> cases q <;> rfl

@[simp] theorem EnvSlot.reg_setReg (x : EnvSlot) (r q : EnvReg) (v : Word) :
    (x.setReg r v).reg q = if q = r then v else x.reg q := by
  cases r <;> cases q <;> rfl

@[simp] theorem VcaRegs.reg_setReg (x : VcaRegs) (r q : VcaReg) (v : Word) :
    (x.setReg r v).reg q = if q = r then v else x.reg q := by
  cases r <;> cases q <;> rfl

@[simp] theorem OptRegs.reg_setReg (x : OptRegs) (r q : OptReg) (v : Word) :
    (x.setReg r v).reg q = if q = r then v else x.reg q := by
  cases r <;> cases q <;> rfl

@[simp] theorem KneeRegs.reg_setReg (x : KneeRegs) (r q : KneeReg) (v : Word) :
    (x.setReg r v).reg q = if q = r then v else x.reg q := by
  cases r <;> cases q <;> rfl

/-! ## The fields of State under `setReg` -/

@[simp] theorem State.setReg_pending (s : State) (r : Reg) (v : Word) : (s.setReg r v).pending = s.pending := by
  cases r <;> rfl

@[simp] theorem State.setReg_reads (s : State) (r : Reg) (v : Word) : (s.setReg r v).reads = s.reads := by
  cases r <;> rfl

/-! ## The register file -/

@[simp] theorem Reg.stored_cmd : Reg.stored .cmd = false := rfl

@[simp] theorem Reg.stored_id : Reg.stored .id = false := rfl

@[simp] theorem Reg.stored_a0 (u : BqIndex) : Reg.stored (.bq u .a0) = false := rfl

@[simp] theorem State.reg_cmd (s : State) : s.reg .cmd = 0 := rfl

@[simp] theorem State.reg_id (s : State) : s.reg .id = idWord := rfl

@[simp] theorem State.reg_a0 (s : State) (u : BqIndex) : s.reg (.bq u .a0) = Fp.one := rfl

@[simp] theorem State.reg_status (s : State) : s.reg .status = s.status := rfl

@[simp] theorem State.reg_errcmd (s : State) : s.reg .errcmd = s.errcmd := rfl

/-- A register that stores nothing keeps the state as it is. -/
theorem State.setReg_of_not_stored {s : State} {r : Reg} (v : Word) (h : r.stored = false) : s.setReg r v = s := by
  cases r with
  | bq u q =>
    cases q with
    | a0 => fin_cases u <;> rfl
    | _ => simp [Reg.stored] at h
  | cmd => rfl
  | id => rfl
  | _ => simp [Reg.stored] at h

theorem State.reg_setReg_bq (s : State) (u : BqIndex) (r : BqReg) (v : Word) (q : Reg) :
    (s.setReg (.bq u r) v).reg q = if q = .bq u r ∧ r ≠ .a0 then v else s.reg q := by
  cases q with
  | bq w p =>
    simp only [State.reg, State.setReg, BqBank.get_set, Reg.bq.injEq]
    by_cases hw : w = u
    · subst hw; simp
    · simp [hw]
  | _ => simp [State.reg, State.setReg]

theorem State.reg_setReg_env (s : State) (e : EnvIndex) (r : EnvReg) (v : Word) (q : Reg) :
    (s.setReg (.env e r) v).reg q = if q = .env e r then v else s.reg q := by
  cases q with
  | env w p =>
    simp only [State.reg, State.setReg, EnvBank.get_set, Reg.env.injEq]
    by_cases hw : w = e
    · subst hw; simp
    · simp [hw]
  | _ => simp [State.reg, State.setReg]

/-- What a register reads after a write: the value, where it is the register written and holds one, else what
it read before. -/
theorem State.reg_setReg (s : State) (r q : Reg) (v : Word) :
    (s.setReg r v).reg q = if q = r ∧ r.stored = true then v else s.reg q := by
  cases r with
  | bq u p =>
    rw [State.reg_setReg_bq]
    cases p <;> simp [Reg.stored]
  | env e p => simp [State.reg_setReg_env, Reg.stored]
  | vca p => cases q <;> simp [State.reg, State.setReg, Reg.stored]
  | opt p => cases q <;> simp [State.reg, State.setReg, Reg.stored]
  | knee p => cases q <;> simp [State.reg, State.setReg, Reg.stored]
  | _ => cases q <;> simp [State.reg, State.setReg, Reg.stored]

theorem State.reg_setReg_same {s : State} {r : Reg} (v : Word) (h : r.stored = true) : (s.setReg r v).reg r = v := by
  simp [State.reg_setReg, h]

theorem State.reg_setReg_ne {s : State} {r q : Reg} (v : Word) (h : q ≠ r) : (s.setReg r v).reg q = s.reg q := by
  simp [State.reg_setReg, h]

/-! ## One lemma per field of State and register written, and the host's fields -/

@[simp] theorem State.setReg_status (s : State) (v : Word) : (s.setReg .status v).status = v := rfl

@[simp] theorem State.setReg_errcmd (s : State) (v : Word) : (s.setReg .errcmd v).errcmd = v := rfl

@[simp] theorem State.setReg_fs (s : State) (v : Word) : (s.setReg .fs v).fs = v := rfl

@[simp] theorem State.setReg_bq (s : State) (u : BqIndex) (r : BqReg) (v : Word) :
    (s.setReg (.bq u r) v).bq = s.bq.set u ((s.bq.get u).setReg r v) := rfl

@[simp] theorem State.setReg_env (s : State) (e : EnvIndex) (r : EnvReg) (v : Word) :
    (s.setReg (.env e r) v).env = s.env.set e ((s.env.get e).setReg r v) := rfl

@[simp] theorem State.setReg_vca (s : State) (r : VcaReg) (v : Word) :
    (s.setReg (.vca r) v).vca = s.vca.setReg r v := rfl

@[simp] theorem State.setReg_opt (s : State) (r : OptReg) (v : Word) :
    (s.setReg (.opt r) v).opt = s.opt.setReg r v := rfl

@[simp] theorem State.setReg_knee (s : State) (r : KneeReg) (v : Word) :
    (s.setReg (.knee r) v).knee = s.knee.setReg r v := rfl

@[simp] theorem State.reg_with_pending (s : State) (l : List HostAccess) (r : Reg) :
    State.reg { s with pending := l } r = s.reg r := by
  cases r <;> rfl

@[simp] theorem State.reg_with_reads (s : State) (l : List Word) (r : Reg) :
    State.reg { s with reads := l } r = s.reg r := by
  cases r <;> rfl

theorem State.reg_with_status (s : State) (v : Word) (r : Reg) :
    State.reg { s with status := v } r = if r = .status then v else s.reg r := by
  cases r <;> simp [State.reg]

end Sys2Proof.Machine
end

