-- ==== Sys2Proof/Laws/Ops.lean ====
section
/-! SUPPORT. What each shared operation does, said once: flags, commit, results, raising an error. -/

namespace Sys2Proof.Machine

/-! ## Flags -/

@[simp] theorem statusErr_zero : statusErr 0 = false := rfl

theorem getLsbD_statusWithError (w : Word) (c : BitVec 8) (i : Nat) :
    (statusWithError w c).getLsbD i =
      if i = 0 then true else if 8 ≤ i ∧ i < 16 then c.getLsbD (i - 8) else w.getLsbD i := by
  unfold statusWithError
  simp only [BitVec.getLsbD_append, BitVec.getLsbD_extractLsb']
  by_cases h0 : i = 0
  · subst h0; rfl
  · by_cases h1 : i < 8
    · have : ¬ i < 1 := by omega
      have h7 : i - 1 < 7 := by omega
      have hn : ¬ (8 ≤ i ∧ i < 16) := by omega
      have e : 1 + (i - 1) = i := by omega
      simp [this, h7, h0, hn, e]
    · by_cases h2 : i < 16
      · have a1 : ¬ i < 1 := by omega
        have a2 : ¬ i - 1 < 7 := by omega
        have a3 : i - 1 - 7 < 8 := by omega
        have a4 : 8 ≤ i ∧ i < 16 := by omega
        have e : i - 1 - 7 = i - 8 := by omega
        have a5 : i - 8 < 8 := by omega
        simp [a1, a2, a5, h0, a4, e]
      · have a1 : ¬ i < 1 := by omega
        have a2 : ¬ i - 1 < 7 := by omega
        have a3 : ¬ i - 1 - 7 < 8 := by omega
        have a4 : ¬ (8 ≤ i ∧ i < 16) := by omega
        have e : 16 + (i - 1 - 7 - 8) = i := by omega
        simp only [a1, a2, a3, h0, a4, e, if_false, decide_false]
        by_cases h3 : i < 64
        · have : i - 1 - 7 - 8 < 48 := by omega
          simp [this]
        · have : ¬ i - 1 - 7 - 8 < 48 := by omega
          simp [this, BitVec.getLsbD_of_ge w i (by omega)]

@[simp] theorem statusErr_withError (w : Word) (c : BitVec 8) : statusErr (statusWithError w c) = true := by
  simp only [statusErr, getLsbD_statusWithError]
  rfl

@[simp] theorem statusOvf_withError (w : Word) (c : BitVec 8) : statusOvf (statusWithError w c) = statusOvf w := by
  simp only [statusOvf, getLsbD_statusWithError]
  rfl

@[simp] theorem statusNf_withError (w : Word) (c : BitVec 8) : statusNf (statusWithError w c) = statusNf w := by
  simp only [statusNf, getLsbD_statusWithError]
  rfl

@[simp] theorem statusCode_withError (w : Word) (c : BitVec 8) : statusCode (statusWithError w c) = c := by
  apply BitVec.eq_of_getLsbD_eq
  intro i hi
  simp only [statusCode, BitVec.getLsbD_extractLsb', getLsbD_statusWithError]
  have a1 : ¬ 8 + i = 0 := by omega
  have a2 : 8 ≤ 8 + i ∧ 8 + i < 16 := by omega
  simp [hi, a2.2]

theorem getLsbD_statusWithOvf (w : Word) (i : Nat) :
    (statusWithOvf w).getLsbD i = (w.getLsbD i || decide (i = 1)) := by
  unfold statusWithOvf
  by_cases h : i < 64
  · interval_cases i <;> simp
  · simp [BitVec.getLsbD_of_ge _ i (Nat.not_lt.mp h)]
    omega

theorem getLsbD_statusWithNf (w : Word) (i : Nat) :
    (statusWithNf w).getLsbD i = (w.getLsbD i || decide (i = 2)) := by
  unfold statusWithNf
  by_cases h : i < 64
  · interval_cases i <;> simp
  · simp [BitVec.getLsbD_of_ge _ i (Nat.not_lt.mp h)]
    omega

theorem getLsbD_ctlInvalidated (w : Word) (i : Nat) :
    (ctlInvalidated w).getLsbD i = (w.getLsbD i && decide (i ≠ 0)) := by
  unfold ctlInvalidated
  by_cases h : i < 64
  · interval_cases i <;> simp
  · simp [BitVec.getLsbD_of_ge _ i (Nat.not_lt.mp h)]

@[simp] theorem ctlValid_invalidated (w : Word) : ctlValid (ctlInvalidated w) = false := by
  simp only [ctlValid, getLsbD_ctlInvalidated]
  simp

@[simp] theorem ctlKind_invalidated (w : Word) : ctlKind (ctlInvalidated w) = ctlKind w := by
  apply BitVec.eq_of_getLsbD_eq
  intro i hi
  simp [ctlKind, getLsbD_ctlInvalidated, hi]

@[simp] theorem ctlValid_configured : ctlValid ctlConfigured = true := rfl

@[simp] theorem ctlValid_bqConfigured (k : BitVec 4) : ctlValid (bqCtlConfigured k) = true := by
  simp [ctlValid, bqCtlConfigured]

/-! ## Committing writes -/

@[simp] theorem commit_nil (s : State) : commit [] s = s := rfl

@[simp] theorem commit_cons (w : Reg × Word) (ws : List (Reg × Word)) (s : State) :
    commit (w :: ws) s = commit ws (s.setReg w.1 w.2) := rfl

@[simp] theorem commit_pending (ws : List (Reg × Word)) (s : State) : (commit ws s).pending = s.pending := by
  induction ws generalizing s with
  | nil => rfl
  | cons w ws ih => simp [ih]

@[simp] theorem commit_reads (ws : List (Reg × Word)) (s : State) : (commit ws s).reads = s.reads := by
  induction ws generalizing s with
  | nil => rfl
  | cons w ws ih => simp [ih]

/-- A register no write names keeps its value. -/
theorem reg_commit_of_ne {ws : List (Reg × Word)} {s : State} {r : Reg} (h : ∀ w ∈ ws, r ≠ w.1) :
    (commit ws s).reg r = s.reg r := by
  induction ws generalizing s with
  | nil => rfl
  | cons w ws ih =>
    rw [commit_cons, ih (fun x hx => h x (List.mem_cons_of_mem _ hx))]
    exact State.reg_setReg_ne _ (h w List.mem_cons_self)

/-- A register written once reads the value written to it. -/
theorem reg_commit_of_mem {ws : List (Reg × Word)} {s : State} {r : Reg} {v : Word} (hm : (r, v) ∈ ws)
    (hd : (ws.map Prod.fst).Nodup) (hs : r.stored = true) : (commit ws s).reg r = v := by
  induction ws generalizing s with
  | nil => simp at hm
  | cons w ws ih =>
    rw [List.map_cons, List.nodup_cons] at hd
    rw [commit_cons]
    rcases List.mem_cons.mp hm with h | h
    · subst h
      rw [reg_commit_of_ne, State.reg_setReg_same _ hs]
      intro x hx he
      exact hd.1 (List.mem_map.mpr ⟨x, hx, he.symm⟩)
    · exact ih h hd.2

@[simp] theorem commitResults_pending (ws : List (Reg × Word)) (s : State) :
    (commitResults ws s).pending = s.pending := by simp [commitResults]

@[simp] theorem commitResults_reads (ws : List (Reg × Word)) (s : State) :
    (commitResults ws s).reads = s.reads := by simp [commitResults]

@[simp] theorem commitResults_status (ws : List (Reg × Word)) (s : State) :
    (commitResults ws s).status = statusAfterResults s.status (ws.map Prod.snd) := rfl

/-- The results of a step command: every register but STATUS is as its commit leaves it (R250). -/
theorem reg_commitResults {ws : List (Reg × Word)} {s : State} {r : Reg} (h : r ≠ .status) :
    (commitResults ws s).reg r = (commit ws s).reg r := by
  rw [commitResults, State.reg_with_status, if_neg h]

/-! ## Errors -/

@[simp] theorem raise_pending (e : ErrorCode) (info : Word) (s : State) : (raise e info s).pending = s.pending := rfl

@[simp] theorem raise_reads (e : ErrorCode) (info : Word) (s : State) : (raise e info s).reads = s.reads := rfl

@[simp] theorem raise_status (e : ErrorCode) (info : Word) (s : State) :
    (raise e info s).status = statusAfterError s.status (codeOf e) := rfl

@[simp] theorem raise_errcmd (e : ErrorCode) (info : Word) (s : State) :
    (raise e info s).errcmd = errcmdAfterError s.status s.errcmd info := rfl

/-- Raising an error changes STATUS and ERRCMD and no other register (R244). -/
theorem reg_raise_of_ne {e : ErrorCode} {info : Word} {s : State} {r : Reg} (h1 : r ≠ .status) (h2 : r ≠ .errcmd) :
    (raise e info s).reg r = s.reg r := by
  cases r <;> first | rfl | exact absurd rfl h1 | exact absurd rfl h2

@[simp] theorem invalidate_nil (s : State) : invalidate [] s = s := rfl

@[simp] theorem invalidate_pending (cs : List Reg) (s : State) : (invalidate cs s).pending = s.pending := by
  simp [invalidate]

@[simp] theorem invalidate_reads (cs : List Reg) (s : State) : (invalidate cs s).reads = s.reads := by
  simp [invalidate]

theorem reg_invalidate_of_not_mem {cs : List Reg} {s : State} {r : Reg} (h : r ∉ cs) :
    (invalidate cs s).reg r = s.reg r := by
  apply reg_commit_of_ne
  intro w hw he
  obtain ⟨c, hc, rfl⟩ := List.mem_map.mp hw
  exact h (he ▸ hc)

theorem reg_invalidate_of_mem {cs : List Reg} {s : State} {r : Reg} (h : r ∈ cs) (hd : cs.Nodup)
    (hs : r.stored = true) : (invalidate cs s).reg r = ctlInvalidated (s.reg r) := by
  apply reg_commit_of_mem (List.mem_map.mpr ⟨r, h, rfl⟩) _ hs
  simpa [List.map_map, Function.comp_def] using hd

theorem configuredCtls_nodup (i : Instr) : (configuredCtls i).Nodup := by
  cases i <;> simp [configuredCtls]

theorem configuredCtls_stored {i : Instr} {r : Reg} (h : r ∈ configuredCtls i) : r.stored = true := by
  cases i <;> simp [configuredCtls] at h <;> first | (subst h; rfl) | (rcases h with h | h <;> subst h <;> rfl)

/-- STATUS and ERRCMD are no CTL register, so the VALID bits and the latch do not meet. -/
theorem status_not_mem_configuredCtls (i : Instr) : Reg.status ∉ configuredCtls i ∧ Reg.errcmd ∉ configuredCtls i := by
  cases i <;> simp [configuredCtls]

/-- A command that ends with an error (R244, R246): it completes with the error latched under its own word, the
VALID bits it owns cleared and nothing else changed. -/
theorem commandError_next (i : Instr) (e : ErrorCode) (s : State) :
    ∃ t, commandError i e s = .next t
      ∧ t.status = statusAfterError s.status (codeOf e)
      ∧ t.errcmd = errcmdAfterError s.status s.errcmd (encode i)
      ∧ (∀ r ∈ configuredCtls i, t.reg r = ctlInvalidated (s.reg r))
      ∧ (∀ r, r ≠ .status → r ≠ .errcmd → r ∉ configuredCtls i → t.reg r = s.reg r)
      ∧ t.pending = s.pending ∧ t.reads = s.reads := by
  have hst : (invalidate (configuredCtls i) s).status = s.status :=
    reg_invalidate_of_not_mem (r := .status) (status_not_mem_configuredCtls i).1
  have her : (invalidate (configuredCtls i) s).errcmd = s.errcmd :=
    reg_invalidate_of_not_mem (r := .errcmd) (status_not_mem_configuredCtls i).2
  refine ⟨_, rfl, by simp [hst], by simp [hst, her], ?_, ?_, by simp, by simp⟩
  · intro r hr
    rw [reg_raise_of_ne (fun h => (status_not_mem_configuredCtls i).1 (h ▸ hr))
      (fun h => (status_not_mem_configuredCtls i).2 (h ▸ hr))]
    exact reg_invalidate_of_mem hr (configuredCtls_nodup i) (configuredCtls_stored hr)
  · intro r h1 h2 hr
    rw [reg_raise_of_ne h1 h2, reg_invalidate_of_not_mem hr]

end Sys2Proof.Machine
end

