-- ==== Sys2Proof/Laws/PerInstr.lean ====
section
/-! SUPPORT. One lemma per command: its encoding has the fields of R90 and R98, and they are well formed. -/

namespace Sys2Proof.Laws

theorem fieldsOf_commandWord (opc : BitVec 8) (unit kind : BitVec 4) :
    fieldsOf (commandWord opc unit kind) = ⟨0, opc, unit, kind, 0⟩ := by
  unfold fieldsOf commandWord
  congr 1 <;> apply BitVec.eq_of_getLsbD_eq <;> intro i hi <;>
    simp only [BitVec.getLsbD_extractLsb', BitVec.getLsbD_append, BitVec.getLsbD_zero, hi] <;>
    interval_cases i <;> simp

namespace EncodedFields

/-- The encoding of a command has its operation code, its slot and its kind in their fields and zero elsewhere
(R90), and these fields are those of a command (R98). -/
def Statement (i : Instr) : Prop :=
  fieldsOf (encode i) = ⟨0, opcOf i, unitOf i, kindFieldOf i, 0⟩ ∧ fieldsWellFormed (fieldsOf (encode i)) = true

theorem nop : Statement .nop := ⟨fieldsOf_commandWord _ _ _, by decide⟩

theorem reset : Statement .reset := ⟨fieldsOf_commandWord _ _ _, by decide⟩

theorem clrst : Statement .clrst := ⟨fieldsOf_commandWord _ _ _, by decide⟩

theorem setfs : Statement .setfs := ⟨fieldsOf_commandWord _ _ _, by decide⟩

theorem bqdsn (u : BqIndex) (kind : FilterKind) : Statement (.bqdsn u kind) :=
  ⟨fieldsOf_commandWord _ _ _, by revert u; cases kind <;> decide⟩

theorem bqld (u : BqIndex) : Statement (.bqld u) := ⟨fieldsOf_commandWord _ _ _, by revert u; decide⟩

theorem bqstep (u : BqIndex) : Statement (.bqstep u) := ⟨fieldsOf_commandWord _ _ _, by revert u; decide⟩

theorem bqclr (u : BqIndex) : Statement (.bqclr u) := ⟨fieldsOf_commandWord _ _ _, by revert u; decide⟩

theorem envcfg (e : EnvIndex) : Statement (.envcfg e) := ⟨fieldsOf_commandWord _ _ _, by revert e; decide⟩

theorem envld (e : EnvIndex) : Statement (.envld e) := ⟨fieldsOf_commandWord _ _ _, by revert e; decide⟩

theorem envstep (e : EnvIndex) : Statement (.envstep e) := ⟨fieldsOf_commandWord _ _ _, by revert e; decide⟩

theorem envclr (e : EnvIndex) : Statement (.envclr e) := ⟨fieldsOf_commandWord _ _ _, by revert e; decide⟩

theorem vcacfg : Statement .vcacfg := ⟨fieldsOf_commandWord _ _ _, by decide⟩

theorem vcastep : Statement .vcastep := ⟨fieldsOf_commandWord _ _ _, by decide⟩

theorem vcagr : Statement .vcagr := ⟨fieldsOf_commandWord _ _ _, by decide⟩

theorem optcfg : Statement .optcfg := ⟨fieldsOf_commandWord _ _ _, by decide⟩

theorem optstep : Statement .optstep := ⟨fieldsOf_commandWord _ _ _, by decide⟩

theorem kncfg : Statement .kncfg := ⟨fieldsOf_commandWord _ _ _, by decide⟩

theorem kneval : Statement .kneval := ⟨fieldsOf_commandWord _ _ _, by decide⟩

end EncodedFields

end Sys2Proof.Laws
end

