-- ==== Sys2Proof/Laws/Step.lean ====
section
/-! SUPPORT. What a command, a host access and a step can do, each said once. -/

namespace Sys2Proof.Machine

open Sys2Proof.Safety

/-- Everything a command can do: end with an error; complete a commit of the registers it owns, with the flag
NF where it is a step or evaluation command; or reset the core. -/
theorem exec_cases (i : Instr) (s : State) :
    (∃ e, exec i s = commandError i e s)
    ∨ (isRuntime i = false ∧ i ≠ .reset ∧ ∃ ws, exec i s = .next (commit ws s) ∧ ws.map Prod.fst = writtenBy i)
    ∨ (isRuntime i = true ∧ ∃ ws, exec i s = .next (commitResults ws s) ∧ ws.map Prod.fst = writtenBy i)
    ∨ (i = .reset ∧ exec i s = .next { State.reset with pending := s.pending, reads := s.reads }) := by
  cases i with
  | nop => exact .inr (.inl ⟨rfl, by simp, [], rfl, rfl⟩)
  | reset => exact .inr (.inr (.inr ⟨rfl, rfl⟩))
  | clrst => exact .inr (.inl ⟨rfl, by simp, _, rfl, rfl⟩)
  | setfs =>
    simp only [exec, execSetfs]
    split
    · exact .inl ⟨_, rfl⟩
    · exact .inr (.inl ⟨rfl, by simp, _, rfl, rfl⟩)
  | bqdsn u kind =>
    simp only [exec, execBqdsn]
    split
    · exact .inl ⟨_, rfl⟩
    split
    · exact .inl ⟨_, rfl⟩
    split
    · exact .inl ⟨_, rfl⟩
    · exact .inr (.inl ⟨rfl, by simp, _, rfl, rfl⟩)
  | bqld u =>
    simp only [exec, execBqld]
    split
    · exact .inl ⟨_, rfl⟩
    split
    · exact .inl ⟨_, rfl⟩
    · exact .inr (.inl ⟨rfl, by simp, _, rfl, rfl⟩)
  | bqstep u =>
    simp only [exec, execBqstep]
    split
    · exact .inl ⟨_, rfl⟩
    split
    · exact .inl ⟨_, rfl⟩
    · exact .inr (.inr (.inl ⟨rfl, _, rfl, rfl⟩))
  | bqclr u => exact .inr (.inl ⟨rfl, by simp, _, rfl, rfl⟩)
  | envcfg e =>
    simp only [exec, execEnvcfg]
    split
    · exact .inl ⟨_, rfl⟩
    split
    · exact .inl ⟨_, rfl⟩
    split
    · exact .inl ⟨_, rfl⟩
    · exact .inr (.inl ⟨rfl, by simp, _, rfl, rfl⟩)
  | envld e =>
    simp only [exec, execEnvld]
    split
    · exact .inl ⟨_, rfl⟩
    · exact .inr (.inl ⟨rfl, by simp, _, rfl, rfl⟩)
  | envstep e =>
    simp only [exec, execEnvstep]
    split
    · exact .inl ⟨_, rfl⟩
    split
    · exact .inl ⟨_, rfl⟩
    · exact .inr (.inr (.inl ⟨rfl, _, rfl, rfl⟩))
  | envclr e => exact .inr (.inl ⟨rfl, by simp, _, rfl, rfl⟩)
  | vcacfg =>
    simp only [exec, execVcacfg]
    split
    · exact .inl ⟨_, rfl⟩
    split
    · exact .inl ⟨_, rfl⟩
    split
    · exact .inl ⟨_, rfl⟩
    · exact .inr (.inl ⟨rfl, by simp, _, rfl, rfl⟩)
  | vcastep =>
    simp only [exec, execVcastep]
    split
    · exact .inl ⟨_, rfl⟩
    split
    · exact .inl ⟨_, rfl⟩
    · exact .inr (.inr (.inl ⟨rfl, _, rfl, rfl⟩))
  | vcagr =>
    simp only [exec, execVcagr]
    split
    · exact .inl ⟨_, rfl⟩
    split
    · exact .inl ⟨_, rfl⟩
    · exact .inr (.inr (.inl ⟨rfl, _, rfl, rfl⟩))
  | optcfg =>
    simp only [exec, execOptcfg]
    split
    · exact .inl ⟨_, rfl⟩
    split
    · exact .inl ⟨_, rfl⟩
    split
    · exact .inl ⟨_, rfl⟩
    split
    · exact .inl ⟨_, rfl⟩
    · exact .inr (.inl ⟨rfl, by simp, _, rfl, rfl⟩)
  | optstep =>
    simp only [exec, execOptstep]
    split
    · exact .inl ⟨_, rfl⟩
    split
    · exact .inl ⟨_, rfl⟩
    · exact .inr (.inr (.inl ⟨rfl, _, rfl, rfl⟩))
  | kncfg =>
    simp only [exec, execKncfg]
    split
    · exact .inl ⟨_, rfl⟩
    · exact .inr (.inl ⟨rfl, by simp, _, rfl, rfl⟩)
  | kneval =>
    simp only [exec, execKneval]
    split
    · exact .inl ⟨_, rfl⟩
    split
    · exact .inl ⟨_, rfl⟩
    · exact .inr (.inr (.inl ⟨rfl, _, rfl, rfl⟩))

theorem writtenBy_nodup (i : Instr) : (writtenBy i).Nodup := by
  cases i <;> simp [writtenBy]

theorem writtenBy_stored {i : Instr} {r : Reg} (h : r ∈ writtenBy i) : r.stored = true := by
  have hall : (writtenBy i).all Reg.stored = true := by cases i <;> rfl
  exact List.all_eq_true.mp hall r h

/-- Everything a host write can do: run a decoded command, record IllegalCommand, store a word, or record
IllegalWrite. -/
theorem serveWrite_cases (a : RegIndex) (v : Word) (s : State) :
    (regAt a = some .cmd ∧ ∃ i, decode v = .instr i ∧ serveWrite a v s = exec i s)
    ∨ (regAt a = some .cmd ∧ (∃ why, decode v = .illegal why)
        ∧ serveWrite a v s = .next (raise .illegalCommand v s))
    ∨ (∃ r, regAt a = some r ∧ r.access = .readWrite ∧ serveWrite a v s = .next (s.setReg r v))
    ∨ ((∀ r, regAt a = some r → r.access = .readOnly ∨ r.access = .hardwired)
        ∧ serveWrite a v s = .next (raise .illegalWrite (illegalWriteInfo a) s)) := by
  unfold serveWrite
  cases hr : regAt a with
  | none => exact .inr (.inr (.inr ⟨by simp, rfl⟩))
  | some r =>
    cases hacc : r.access with
    | readWrite => exact .inr (.inr (.inl ⟨r, rfl, hacc, by simp [hacc]⟩))
    | readOnly =>
      refine .inr (.inr (.inr ⟨?_, by simp [hacc]⟩))
      intro q hq
      cases hq
      exact .inl hacc
    | hardwired =>
      refine .inr (.inr (.inr ⟨?_, by simp [hacc]⟩))
      intro q hq
      cases hq
      exact .inr hacc
    | writeOnly =>
      have hc : r = .cmd := by
        cases r with
        | bq u p => cases p <;> simp [Reg.access] at hacc
        | env e p => cases p <;> simp [Reg.access] at hacc
        | cmd => rfl
        | _ => simp [Reg.access] at hacc
      subst hc
      cases hd : decode v with
      | instr i => exact .inl ⟨rfl, i, rfl, by simp [hacc, writeCmd, hd]⟩
      | illegal why => exact .inr (.inl ⟨rfl, ⟨why, rfl⟩, by simp [hacc, writeCmd, hd]⟩)

/-- A register the host may write holds a value. -/
theorem stored_of_readWrite {r : Reg} (h : r.access = .readWrite) : r.stored = true := by
  cases r with
  | bq u p => cases p <;> simp_all [Reg.access, Reg.stored]
  | env e p => rfl
  | _ => simp_all [Reg.access, Reg.stored]

/-- The machine clears the VALID bits that R246 lists. -/
theorem configuredCtls_eq_validBitsOf (i : Instr) : configuredCtls i = validBitsOf i := by
  cases i <;> rfl

/-- The machine records the codes that R240 lists. -/
theorem codeOf_setWidth (e : ErrorCode) : (codeOf e).setWidth 64 = errorNumber e := by
  cases e <;> rfl

/-- Everything a step can do: wait, answer a read, or serve a write (R23). -/
theorem step_cases (s : State) :
    (s.pending = [] ∧ step s = .next s)
    ∨ (∃ a rest, s.pending = .read a :: rest
        ∧ step s = .next { s with pending := rest, reads := s.reads ++ [s.peek a] })
    ∨ (∃ a v rest, s.pending = .write a v :: rest ∧ step s = serveWrite a v { s with pending := rest }) := by
  unfold step serveNext
  cases hp : s.pending with
  | nil => exact .inl ⟨rfl, rfl⟩
  | cons x rest =>
    cases x with
    | read a =>
      refine .inr (.inl ⟨a, rest, rfl, ?_⟩)
      have h : State.peek { s with pending := rest } a = s.peek a := by
        simp [State.peek]
      simp [serve, serveRead, h]
    | write a v => exact .inr (.inr ⟨a, v, rest, rfl, rfl⟩)

end Sys2Proof.Machine
end

