-- ==== Sys2Proof/Machine/HostText.lean ====
section
/-! DEFINITION. The text of a host program (R102, R103) read into its lines. What R102 leaves open (blanks,
the grammar of a decimal literal, where letter case counts) is a DESIGN CHOICE: log entry 16. -/

namespace Sys2Proof.Machine

/-- A blank within a line. -/
def isBlank (c : Char) : Bool := c == ' ' || c == '\t' || c == '\r'

/-- A line without the blanks at its ends. -/
def trimBlanks (cs : List Char) : List Char := ((cs.dropWhile isBlank).reverse.dropWhile isBlank).reverse

/-- The pieces between the separators. -/
def splitAtChar (sep : Char) : List Char → List (List Char)
  | [] => [[]]
  | c :: cs =>
    match splitAtChar sep cs with
    | [] => if c = sep then [[], []] else [[c]]
    | piece :: more => if c = sep then [] :: piece :: more else (c :: piece) :: more

/-- The value of a decimal digit. -/
def decimalDigit (c : Char) : Option Nat :=
  if '0'.toNat ≤ c.toNat ∧ c.toNat ≤ '9'.toNat then some (c.toNat - '0'.toNat) else none

/-- The value of a hexadecimal digit of either case. -/
def hexDigit (c : Char) : Option Nat :=
  if 'a'.toNat ≤ c.toLower.toNat ∧ c.toLower.toNat ≤ 'f'.toNat then some (c.toLower.toNat - 'a'.toNat + 10)
  else decimalDigit c

/-- The number a sequence of digits stands for, added to `acc` digits already read. -/
def readDigits (digit : Char → Option Nat) (base : Nat) : Nat → List Char → Option Nat
  | acc, [] => some acc
  | acc, c :: cs =>
    match digit c with
    | some d => readDigits digit base (acc * base + d) cs
    | none => none

/-- A number of at least one decimal digit. -/
def readNat (cs : List Char) : Option Nat := if cs = [] then none else readDigits decimalDigit 10 0 cs

/-- A number of at least one and at most `most` hexadecimal digits after `0x`. How many digits the 64-bit value
of a `wr` has is left open by R102: a shorter one is zero-extended. DESIGN CHOICE: log entry 16. -/
def readHex (most : Nat) (cs : List Char) : Option Nat :=
  match cs with
  | '0' :: 'x' :: ds => if ds = [] ∨ most < ds.length then none else readDigits hexDigit 16 0 ds
  | _ => none

/-- A leading sign: true for minus. -/
def readSign : List Char → Bool × List Char
  | '-' :: cs => (true, cs)
  | '+' :: cs => (false, cs)
  | cs => (false, cs)

/-- The exponent of a decimal literal, 0 where there is none. -/
def readExponent (cs : List Char) : Option Int :=
  match cs with
  | [] => some 0
  | _ :: ds =>
    match readNat (readSign ds).2 with
    | some n => some (if (readSign ds).1 then -(n : Int) else (n : Int))
    | none => none

/-- The binary64 nearest `m * 10 ^ e` (R102). -/
def decimalWord (neg : Bool) (m : Nat) (e : Int) : Word :=
  if 0 ≤ e then Fp.ofRatio neg (m * 10 ^ e.toNat) 1 else Fp.ofRatio neg m (10 ^ (-e).toNat)

/-- A decimal binary64 literal, rounded to nearest by the assembler (R102): a sign, digits, a point with
further digits, an exponent, all but the first digits optional. -/
def readDecimal (cs : List Char) : Option Word :=
  let body := (readSign cs).2
  let isExp := fun c : Char => c == 'e' || c == 'E'
  let mantissa := body.takeWhile (fun c => !isExp c)
  let whole := mantissa.takeWhile (fun c => c != '.')
  let fraction := (mantissa.dropWhile (fun c => c != '.')).drop 1
  match readNat whole, readDigits decimalDigit 10 0 fraction, readExponent (body.dropWhile (fun c => !isExp c)) with
  | some _, some _, some e =>
    match readNat (whole ++ fraction) with
    | some m => some (decimalWord (readSign cs).1 m (e - (fraction.length : Int)))
    | none => none
  | _, _, _ => none

/-- A value of `wr`: a 64-bit hexadecimal word taken bit for bit, or a decimal literal (R102). -/
def readValue (cs : List Char) : Option Word :=
  match readHex 16 cs with
  | some n => some (BitVec.ofNat 64 n)
  | none => readDecimal cs

/-- The command word of `cmd 0xHHHHHHHH`: eight hexadecimal digits (R102). -/
def readRaw (cs : List Char) : Option (BitVec 32) :=
  if cs.length = 10 then (readHex 8 cs).map (BitVec.ofNat 32) else none

/-- A biquad slot number. -/
def readBqIndex (cs : List Char) : Option BqIndex :=
  match readNat cs with
  | some n => if h : n < 4 then some ⟨n, h⟩ else none
  | none => none

/-- A smoother slot number. -/
def readEnvIndex (cs : List Char) : Option EnvIndex :=
  match readNat cs with
  | some n => if h : n < 6 then some ⟨n, h⟩ else none
  | none => none

/-- A kind name of BQDSN (R102). -/
def readKind (cs : List Char) : Option FilterKind :=
  match String.ofList cs with
  | "peaking" => some .peaking
  | "lowshelf" => some .lowShelf
  | "highshelf" => some .highShelf
  | "bandpass" => some .bandPass
  | "highpass" => some .highPass
  | "lowpass" => some .lowPass
  | _ => none

/-- The register of a biquad slot by its name in R51. -/
def readBqReg (u : BqIndex) (name : String) : Option Reg :=
  match name with
  | "B0" => some (.bq u .b0)
  | "B1" => some (.bq u .b1)
  | "B2" => some (.bq u .b2)
  | "A0" => some (.bq u .a0)
  | "A1" => some (.bq u .a1)
  | "A2" => some (.bq u .a2)
  | "X1" => some (.bq u .x1)
  | "X2" => some (.bq u .x2)
  | "Y1" => some (.bq u .y1)
  | "Y2" => some (.bq u .y2)
  | "CTL" => some (.bq u .ctl)
  | _ => none

/-- The register of a smoother slot by its name in R51. -/
def readEnvReg (e : EnvIndex) (name : String) : Option Reg :=
  match name with
  | "AATT" => some (.env e .aatt)
  | "AREL" => some (.env e .arel)
  | "PREV" => some (.env e .prev)
  | "CTL" => some (.env e .ctl)
  | _ => none

/-- A register outside the slots by its name in R51. -/
def readPlainReg (name : String) : Option Reg :=
  match name with
  | "CMD" => some .cmd
  | "STATUS" => some .status
  | "ERRCMD" => some .errcmd
  | "FS" => some .fs
  | "ID" => some .id
  | "OP0" => some .op0
  | "OP1" => some .op1
  | "OP2" => some .op2
  | "OP3" => some .op3
  | "OP4" => some .op4
  | "OP5" => some .op5
  | "RES0" => some .res0
  | "RES1" => some .res1
  | "RES2" => some .res2
  | "RES3" => some .res3
  | "VCA.TH" => some (.vca .th)
  | "VCA.RATIO" => some (.vca .ratio)
  | "VCA.MKUP" => some (.vca .mkup)
  | "VCA.CTL" => some (.vca .ctl)
  | "OPT.TH" => some (.opt .th)
  | "OPT.RATIO" => some (.opt .ratio)
  | "OPT.MKUP" => some (.opt .mkup)
  | "OPT.TLIN" => some (.opt .tlin)
  | "OPT.MKLIN" => some (.opt .mklin)
  | "OPT.CTL" => some (.opt .ctl)
  | "KNEE.TH" => some (.knee .th)
  | "KNEE.RANGE" => some (.knee .range)
  | "KNEE.RED" => some (.knee .red)
  | "KNEE.CTL" => some (.knee .ctl)
  | _ => none

/-- A register name of R51, such as `OP0`, `BQ[1].Y1` or `ENV[4].PREV` (R102). -/
def readReg (cs : List Char) : Option Reg :=
  match cs with
  | 'B' :: 'Q' :: '[' :: d :: ']' :: '.' :: name => (readBqIndex [d]).bind (fun u => readBqReg u (String.ofList name))
  | 'E' :: 'N' :: 'V' :: '[' :: d :: ']' :: '.' :: name =>
    (readEnvIndex [d]).bind (fun e => readEnvReg e (String.ofList name))
  | _ => readPlainReg (String.ofList cs)

/-- A command by its mnemonic and its arguments (R102). -/
def readCommand (name : String) (args : List (List Char)) : Option Instr :=
  match name, args with
  | "nop", [] => some .nop
  | "reset", [] => some .reset
  | "clrst", [] => some .clrst
  | "setfs", [] => some .setfs
  | "bqdsn", [u, k] => (readBqIndex u).bind (fun u => (readKind k).map (Instr.bqdsn u))
  | "bqld", [u] => (readBqIndex u).map .bqld
  | "bqstep", [u] => (readBqIndex u).map .bqstep
  | "bqclr", [u] => (readBqIndex u).map .bqclr
  | "envcfg", [e] => (readEnvIndex e).map .envcfg
  | "envld", [e] => (readEnvIndex e).map .envld
  | "envstep", [e] => (readEnvIndex e).map .envstep
  | "envclr", [e] => (readEnvIndex e).map .envclr
  | "vcacfg", [] => some .vcacfg
  | "vcastep", [] => some .vcastep
  | "vcagr", [] => some .vcagr
  | "optcfg", [] => some .optcfg
  | "optstep", [] => some .optstep
  | "kncfg", [] => some .kncfg
  | "kneval", [] => some .kneval
  | _, _ => none

/-- A pseudo-instruction whose arguments are all values (R103). A mnemonic that is also a pseudo-instruction
is told apart by its number of arguments (DEDUCED: log entry 16). -/
def readValuePseudo (name : String) (args : List Word) : Option Pseudo :=
  match name, args with
  | "fs", [v] => some (.fs v)
  | "vcacfg", [th, r, ta, tr, mk] => some (.vcacfg th r ta tr mk)
  | "vca", [x] => some (.vca x)
  | "optcfg", [th, r, ta, tr, mk] => some (.optcfg th r ta tr mk)
  | "opt", [x] => some (.opt x)
  | "kncfg", [th, rg, red] => some (.kncfg th rg red)
  | "knee", [l] => some (.knee l)
  | "chk", [] => some .chk
  | _, _ => none

/-- A pseudo-instruction on a biquad slot (R103). -/
def readBqPseudo (name : String) (u : BqIndex) (args : List Word) : Option Pseudo :=
  match name, args with
  | "bqload", [b0, b1, b2, a0, a1, a2] => some (.bqload u b0 b1 b2 a0 a1 a2)
  | "bq", [x] => some (.bq u x)
  | "bqsave", [] => some (.bqsave u)
  | "bqrestore", [p, q, r, t] => some (.bqrestore u p q r t)
  | _, _ => none

/-- A pseudo-instruction on a smoother slot (R103). -/
def readEnvPseudo (name : String) (e : EnvIndex) (args : List Word) : Option Pseudo :=
  match name, args with
  | "envcfg", [ta, tr] => some (.envcfg e ta tr)
  | "envload", [aa, ar] => some (.envload e aa ar)
  | "env", [t] => some (.env e t)
  | _, _ => none

/-- Every argument read as a value. -/
def readValues : List (List Char) → Option (List Word)
  | [] => some []
  | a :: rest => (readValue a).bind (fun v => (readValues rest).map (fun vs => v :: vs))

/-- A pseudo-instruction by its name and its arguments (R103). -/
def readPseudo (name : String) (args : List (List Char)) : Option Pseudo :=
  match name, args with
  | "bqdesign", u :: k :: rest =>
    match readBqIndex u, readKind k, readValues rest with
    | some u, some k, some [f, q, g] => some (.bqdesign u k f q g)
    | _, _, _ => none
  | _, _ =>
    match (readValues args).bind (readValuePseudo name) with
    | some p => some p
    | none =>
      match args with
      | [] => none
      | slot :: rest =>
        match (readBqIndex slot).bind (fun u => (readValues rest).bind (readBqPseudo name u)) with
        | some p => some p
        | none => (readEnvIndex slot).bind (fun e => (readValues rest).bind (readEnvPseudo name e))

/-- One statement of a host program by its first word, in lower case, and its arguments (R102, R103). -/
def readStatement (name : String) (args : List (List Char)) : Option (List HostLine) :=
  match name, args with
  | "wr", [r, v] => (readReg r).bind (fun r => (readValue v).map (fun v => [.wr r v]))
  | "rd", [r] => (readReg r).map (fun r => [.rd r])
  | "cmd", [w] => (readRaw w).map (fun w => [.raw w])
  | _, _ =>
    match readCommand name args with
    | some i => some [.command i]
    | none => (readPseudo name args).map expand

/-- One line of text: blank lines and comments stand for nothing (R102). -/
def readLine (cs : List Char) : Option (List HostLine) :=
  let body := trimBlanks (cs.takeWhile (fun c => c != ';'))
  if body = [] then some []
  else
    let word := body.takeWhile (fun c => !isBlank c)
    let rest := trimBlanks (body.drop word.length)
    readStatement (String.ofList (word.map Char.toLower))
      (if rest = [] then [] else (splitAtChar ',' rest).map trimBlanks)

/-- The lines of a program; none where a line is not one of R102 or R103. -/
def readLines : List (List Char) → Option (List HostLine)
  | [] => some []
  | l :: rest => (readLine l).bind (fun a => (readLines rest).map (fun b => a ++ b))

/-- A host program's text (R102). -/
def readProgram (text : String) : Option (List HostLine) := readLines (splitAtChar '\n' text.toList)

end Sys2Proof.Machine
end

