-- ==== Sys2Proof/Tests/Slice0.lean ====
section
/-! SUPPORT. Tests: the checks of WellFormed, one decoded word per command, one or two steps per command with
results from spec/95_test_vectors.md (the vector is named at each), and a witness for the hypotheses of every
obligation that has some. -/

namespace Sys2Proof.Tests

open Sys2Proof.Machine Sys2Proof.Safety

set_option exponentiation.threshold 5000
set_option maxRecDepth 20000

/-! ## WellFormed: an ill-formed term for each check -/

theorem test_wellFormed_accepts : fieldsWellFormed ⟨0, 0x10, 3, 5, 0⟩ = true := by decide

theorem test_upperZero_refuses : upperZero ⟨1, 0x00, 0, 0, 0⟩ = false := by decide

theorem test_lowerZero_refuses : lowerZero ⟨0, 0x31, 0, 0, 1⟩ = false := by decide

theorem test_opcDefined_refuses : opcDefined ⟨0, 0x60, 0, 0, 0⟩ = false := by decide

theorem test_unitInRange_refuses : unitInRange ⟨0, 0x12, 4, 0, 0⟩ = false := by decide

theorem test_kindInRange_refuses : kindInRange ⟨0, 0x10, 0, 6, 0⟩ = false := by decide

theorem test_wellFormed_refuses : [(⟨1, 0x00, 0, 0, 0⟩ : CommandFields), ⟨0, 0x31, 0, 0, 1⟩, ⟨0, 0x60, 0, 0, 0⟩,
    ⟨0, 0x12, 4, 0, 0⟩, ⟨0, 0x10, 0, 6, 0⟩, ⟨0, 0x31, 1, 0, 0⟩, ⟨0, 0x22, 6, 0, 0⟩, ⟨0, 0x12, 0, 1, 0⟩].all
      (fun f => !fieldsWellFormed f) = true := by decide

/-! ## Decoding: words written out from R90 and R98 as OPC UNIT KIND and sixteen zeros -/

/-- The word with its upper half zero and the fields given bit by bit. -/
def bits (opc : BitVec 8) (unit kind : BitVec 4) (low : BitVec 16) : Word := 0#32 ++ opc ++ unit ++ kind ++ low

theorem test_decode_nop : decode (bits 0b00000000 0b0000 0b0000 0) = .instr .nop := by decide

theorem test_decode_reset : decode (bits 0b00000001 0b0000 0b0000 0) = .instr .reset := by decide

theorem test_decode_clrst : decode (bits 0b00000010 0b0000 0b0000 0) = .instr .clrst := by decide

theorem test_decode_setfs : decode (bits 0b00000011 0b0000 0b0000 0) = .instr .setfs := by decide

theorem test_decode_bqdsn : decode (bits 0b00010000 0b0010 0b0100 0) = .instr (.bqdsn 2 .highPass) := by decide

theorem test_decode_bqld : decode (bits 0b00010001 0b0001 0b0000 0) = .instr (.bqld 1) := by decide

theorem test_decode_bqstep : decode (bits 0b00010010 0b0011 0b0000 0) = .instr (.bqstep 3) := by decide

theorem test_decode_bqclr : decode (bits 0b00010011 0b0000 0b0000 0) = .instr (.bqclr 0) := by decide

theorem test_decode_envcfg : decode (bits 0b00100000 0b0101 0b0000 0) = .instr (.envcfg 5) := by decide

theorem test_decode_envld : decode (bits 0b00100001 0b0001 0b0000 0) = .instr (.envld 1) := by decide

theorem test_decode_envstep : decode (bits 0b00100010 0b0100 0b0000 0) = .instr (.envstep 4) := by decide

theorem test_decode_envclr : decode (bits 0b00100011 0b0010 0b0000 0) = .instr (.envclr 2) := by decide

theorem test_decode_vcacfg : decode (bits 0b00110000 0b0000 0b0000 0) = .instr .vcacfg := by decide

theorem test_decode_vcastep : decode (bits 0b00110001 0b0000 0b0000 0) = .instr .vcastep := by decide

theorem test_decode_vcagr : decode (bits 0b00110010 0b0000 0b0000 0) = .instr .vcagr := by decide

theorem test_decode_optcfg : decode (bits 0b01000000 0b0000 0b0000 0) = .instr .optcfg := by decide

theorem test_decode_optstep : decode (bits 0b01000001 0b0000 0b0000 0) = .instr .optstep := by decide

theorem test_decode_kncfg : decode (bits 0b01010000 0b0000 0b0000 0) = .instr .kncfg := by decide

theorem test_decode_kneval : decode (bits 0b01010001 0b0000 0b0000 0) = .instr .kneval := by decide

theorem test_decode_rejects : decode (bits 0b00010000 0b0000 0b1111 0) = .illegal .badKind
    ∧ decode (bits 0b00010010 0b0100 0b0000 0) = .illegal .badUnit
    ∧ decode (bits 0b00110001 0b0000 0b0000 1) = .illegal .reservedBits
    ∧ decode (bits 0b01100000 0b0000 0b0000 0) = .illegal .undefinedOpc := by decide

theorem test_decodeTableWord : decodeTableWord 64 0x12300000 = some (.bqstep 3) ∧ decodeTableWord 32 0x12400000 = none := by
  decide

/-- R77: byte 0 on a bus is bits 7:0. -/
theorem test_bus_bytes : busBytes 0x0000000010240000 = [0x00, 0x00, 0x24, 0x10, 0, 0, 0, 0]
    ∧ wordOfBusBytes [0x00, 0x00, 0x24, 0x10, 0, 0, 0, 0] = 0x0000000010240000 := by decide

/-! ## States -/

/-- The register after a step, none where the step stops. -/
def regAfter (x : Result) (r : Reg) : Option Word :=
  match x with
  | .next t => some (t.reg r)
  | .fault _ => none
  | .refused _ => none

/-- Several registers after a step. -/
def regsAfter (x : Result) (rs : List Reg) : List (Option Word) := rs.map (regAfter x)

/-- The operand registers set. -/
def withOps (s : State) (a b c d e f : Word) : State :=
  { s with op0 := a, op1 := b, op2 := c, op3 := d, op4 := e, op5 := f }

/-- The biquad slot of V1.1. -/
def slotV1 : BqSlot :=
  ⟨0x3FE0000000000000, 0x3FD0000000000000, 0x3FC0000000000000, 0xBFE0000000000000, 0x3FD0000000000000, 0, 0, 0, 0, 0xF1⟩

/-- A smoother slot with the coefficients of V3.1 and a previous value. -/
def slotV3 (prev : Word) : EnvSlot := ⟨0x3FE0000000000000, 0x3FE8000000000000, prev, 1⟩

/-- A core with FS = 48000.0 and every unit configured: biquad slots as in V1.1, smoothers as in V3.1, the VCA as
in V4.1, the optical unit as in V5, the soft knee as in V6. -/
def ready : State :=
  { State.reset with
    fs := 0x40E7700000000000
    op0 := 0x3FF0000000000000
    bq := ⟨slotV1, slotV1, slotV1, slotV1⟩
    env := ⟨slotV3 0, slotV3 0, slotV3 0, slotV3 0, slotV3 0, slotV3 0⟩
    vca := ⟨0xC028000000000000, 0x4010000000000000, 0, 1⟩
    opt := ⟨0, 0x4000000000000000, 0, 0x3FF0000000000000, 0x3FF0000000000000, 1⟩
    knee := ⟨0xC03E000000000000, 0x4024000000000000, 0x4018000000000000, 1⟩ }

/-! ## System commands -/

theorem test_nop : exec .nop ready = .next ready := rfl

/-- V0.15. -/
theorem test_reset : exec .reset ready = .next State.reset ∧ State.reset.reg (.bq 0 .a0) = 0x3FF0000000000000
    ∧ State.reset.reg .id = 0x0000000000060401 := ⟨rfl, rfl, rfl⟩

/-- V0.14. -/
theorem test_clrst : regsAfter (exec .clrst { ready with status := 0x0303, errcmd := 0x12400000 }) [.status, .errcmd, .fs]
    = [some 0, some 0, some 0x40E7700000000000] := by decide

/-- V0.3. -/
theorem test_setfs : regsAfter (exec .setfs { State.reset with op0 := 0x40E7700000000000 }) [.fs, .status]
    = [some 0x40E7700000000000, some 0] := by decide

/-- V0.4: FS 0.0 is rejected. -/
theorem test_setfs_zero : regsAfter (exec .setfs State.reset) [.fs, .status, .errcmd]
    = [some 0, some 0x0101, some 0x03000000] := by decide

/-! ## Biquad -/

/-- V2.1: no sample rate. -/
theorem test_bqdsn_no_rate : regsAfter (exec (.bqdsn 0 .peaking) State.reset) [.status, .errcmd, .bq 0 .ctl]
    = [some 0x0201, some 0x10000000, some 0] := by decide

/-- V2.2 and V2.8: half the sample rate is outside the open interval; VALID is cleared and KIND kept. -/
theorem test_bqdsn_half_rate :
    regsAfter (exec (.bqdsn 1 .peaking) (withOps ready 0x40D7700000000000 0x3FF0000000000000 0 0 0 0))
      [.status, .errcmd, .bq 1 .ctl, .bq 1 .b0] = [some 0x0101, some 0x10100000, some 0xF0, some 0x3FE0000000000000] := by
  decide

/-- V1.1. -/
theorem test_bqld :
    regsAfter (exec (.bqld 0) (withOps State.reset 0x3FF0000000000000 0x3FE0000000000000 0x3FD0000000000000
      0x4000000000000000 0xBFF0000000000000 0x3FE0000000000000)) [.bq 0 .b0, .bq 0 .b1, .bq 0 .b2, .bq 0 .a1, .bq 0 .a2, .bq 0 .ctl]
    = [some 0x3FE0000000000000, some 0x3FD0000000000000, some 0x3FC0000000000000, some 0xBFE0000000000000,
      some 0x3FD0000000000000, some 0xF1] := by decide

/-- V1.6: a0 = -0.0 counts as zero. -/
theorem test_bqld_negative_zero :
    regsAfter (exec (.bqld 0) (withOps ready 0 0 0 0x8000000000000000 0 0)) [.status, .bq 0 .ctl, .bq 0 .b0]
    = [some 0x0101, some 0xF0, some 0x3FE0000000000000] := by decide

/-- V1.2 and V1.3: the fifth output of the impulse response, and the taps. -/
theorem test_bqstep :
    regsAfter (exec (.bqstep 0) { ready with op0 := 0, bq := { ready.bq with s0 := { slotV1 with y2 := 0x3FD0000000000000 } } })
      [.res0, .bq 0 .y1, .bq 0 .y2, .bq 0 .x1] = [some 0xBFB0000000000000, some 0xBFB0000000000000, some 0, some 0] := by
  decide

/-- V1.13: an infinite tap gives an infinite output and sets NF only. -/
theorem test_bqstep_infinite_tap :
    regsAfter (exec (.bqstep 0) { ready with op0 := 0, bq := { ready.bq with s0 := { slotV1 with y1 := 0x7FF0000000000000 } } })
      [.res0, .bq 0 .y1, .bq 0 .y2, .status]
    = [some 0x7FF0000000000000, some 0x7FF0000000000000, some 0x7FF0000000000000, some 0x4] := by decide

/-- R131. -/
theorem test_bqclr :
    regsAfter (exec (.bqclr 2) { ready with bq := { ready.bq with s2 := { slotV1 with x1 := 1, x2 := 2, y1 := 3, y2 := 4 } } })
      [.bq 2 .x1, .bq 2 .x2, .bq 2 .y1, .bq 2 .y2, .bq 2 .b0, .bq 2 .ctl]
    = [some 0, some 0, some 0, some 0, some 0x3FE0000000000000, some 0xF1] := by decide

/-! ## Smoother -/

/-- V3.9: no sample rate. -/
theorem test_envcfg_no_rate : regsAfter (exec (.envcfg 0) { State.reset with op0 := 0x3FF0000000000000 }) [.status, .errcmd]
    = [some 0x0201, some 0x20000000] := by decide

/-- V3.8: a time constant of 0.0. -/
theorem test_envcfg_zero_time : regsAfter (exec (.envcfg 4) (withOps ready 0 0x3FF0000000000000 0 0 0 0)) [.status, .env 4 .ctl]
    = [some 0x0101, some 0] := by decide

/-- V3.6: -0.0 is accepted and stored as it is. -/
theorem test_envld : regsAfter (exec (.envld 0) (withOps State.reset 0x8000000000000000 0x3FE0000000000000 0 0 0 0))
      [.env 0 .aatt, .env 0 .arel, .env 0 .ctl, .status]
    = [some 0x8000000000000000, some 0x3FE0000000000000, some 1, some 0] := by decide

/-- V3.4: a coefficient of 1.5. -/
theorem test_envld_out_of_range : regsAfter (exec (.envld 0) (withOps ready 0x3FF8000000000000 0x3FE0000000000000 0 0 0 0))
      [.status, .env 0 .ctl] = [some 0x0101, some 0] := by decide

/-- V3.1, third step: release from 0.75 to 0.5625. -/
theorem test_envstep_release :
    regsAfter (exec (.envstep 1) { ready with op0 := 0, env := { ready.env with s1 := slotV3 0x3FE8000000000000 } })
      [.res0, .env 1 .prev] = [some 0x3FE2000000000000, some 0x3FE2000000000000] := by decide

/-- V3.2: at equality the release coefficient is used. -/
theorem test_envstep_equality :
    regAfter (exec (.envstep 1) { ready with op0 := 0x3FE0000000000000, env := { ready.env with s1 := slotV3 0x3FE0000000000000 } })
      .res0 = some 0x3FE0000000000000 := by decide

/-- V3.11. -/
theorem test_envclr :
    regsAfter (exec (.envclr 1) { ready with env := { ready.env with s1 := slotV3 0x3FE8000000000000 } })
      [.env 1 .prev, .env 1 .aatt] = [some 0, some 0x3FE0000000000000] := by decide

/-! ## Gain computers -/

/-- V4.7: a ratio below 1.0 clears both VALID bits. -/
theorem test_vcacfg_ratio :
    regsAfter (exec .vcacfg (withOps ready 0xC028000000000000 0x3FE0000000000000 0x3FF0000000000000 0x3FF0000000000000 0 0))
      [.status, .errcmd, .vca .ctl, .env 4 .ctl] = [some 0x0101, some 0x30000000, some 0, some 0] := by decide

/-- V4.4, third step: silence has level -120.0, and 6.75 is released to 3.375. -/
theorem test_vcastep_silence :
    regsAfter (exec .vcastep { ready with op0 := 0, env := { ready.env with s4 := ⟨0x3FE0000000000000, 0x3FE0000000000000, 0x401B000000000000, 1⟩ } })
      [.res3, .res2, .env 4 .prev] = [some 0xC05E000000000000, some 0x400B000000000000, some 0x400B000000000000] := by
  decide

/-- V4.11. -/
theorem test_vcastep_infinite : regsAfter (exec .vcastep { ready with op0 := 0x7FF0000000000000 }) [.status, .env 4 .prev]
    = [some 0x0401, some 0] := by decide

/-- V4.2 at -6.0: the worked value of the source. -/
theorem test_vcagr : regsAfter (exec .vcagr { ready with op0 := 0xC018000000000000 }) [.res0, .res1]
    = [some 0x4012000000000000, some 0xC025000000000000] := by decide

/-- V5.5: a ratio below 1.0. -/
theorem test_optcfg_ratio :
    regsAfter (exec .optcfg (withOps ready 0 0x3FECCCCCCCCCCCCD 0x3FF0000000000000 0x3FF0000000000000 0 0))
      [.status, .opt .ctl, .env 5 .ctl] = [some 0x0101, some 0, some 0] := by decide

/-- V5.1. -/
theorem test_optstep : regsAfter (exec .optstep { ready with op0 := 0x4008000000000000 }) [.res0, .res1, .res2, .res3]
    = [some 0x4004000000000000, some 0x3FEAAAAAAAAAAAAB, some 0x3FF8000000000000, some 0x3FEAAAAAAAAAAAAB] := by decide

/-- V5.4: a negative sample. -/
theorem test_optstep_negative :
    regsAfter (exec .optstep { ready with op0 := 0xC000000000000000, env := { ready.env with s5 := slotV3 0x3FEB000000000000 } })
      [.res0, .res2] = [some 0xBFFB40B40B40B40B, some 0x3FF6C00000000000] := by decide

/-! ## Soft knee -/

/-- V6.7: a range of 0.0. -/
theorem test_kncfg_zero_range :
    regsAfter (exec .kncfg (withOps ready 0xC03E000000000000 0 0x4018000000000000 0 0 0)) [.status, .errcmd, .knee .ctl]
    = [some 0x0101, some 0x50000000, some 0] := by decide

/-- The start of V6. -/
theorem test_kncfg :
    regsAfter (exec .kncfg (withOps State.reset 0xC03E000000000000 0x4024000000000000 0x4018000000000000 0 0 0))
      [.knee .th, .knee .range, .knee .red, .knee .ctl]
    = [some 0xC03E000000000000, some 0x4024000000000000, some 0x4018000000000000, some 1] := by decide

/-- V6.2: at the threshold. -/
theorem test_kneval_threshold : regsAfter (exec .kneval { ready with op0 := 0xC03E000000000000 }) [.res0, .res1]
    = [some 0, some 0x3FF0000000000000] := by decide

/-- V6.3 and V6.6: inside the window. -/
theorem test_kneval_window : regAfter (exec .kneval { ready with op0 := 0xC039000000000000 }) .res0 = some 0x3FC3333333333333
    ∧ regAfter (exec .kneval { ready with op0 := 0xC03DFFFFFFFFFFFF }) .res0 = some 0x3C9EB851EB851EB8 := by decide

/-! ## Host accesses and steps -/

/-- V0.13: a second error sets OVF and keeps the first word. -/
theorem test_second_error :
    regsAfter (serve (.write 0x000 0x10060000) { State.reset with status := 0x0301, errcmd := 0x12400000 }) [.status, .errcmd]
    = [some 0x0303, some 0x12400000] := by decide

/-- V0.12. -/
theorem test_upper_bit : regsAfter (serve (.write 0x000 0x0000000100000000) State.reset) [.status, .errcmd]
    = [some 0x0301, some 0x0000000100000000] := by decide

/-- V0.18 and V0.19. -/
theorem test_illegal_writes :
    regsAfter (serve (.write 0x103 0x4000000000000000) State.reset) [.status, .errcmd, .bq 0 .a0]
      = [some 0x0501, some 0xFFFFFFFF00000103, some 0x3FF0000000000000]
    ∧ regAfter (serve (.write 0x005 7) State.reset) .errcmd = some 0xFFFFFFFF00000005 := by decide

/-- V0.20 and V0.1. -/
theorem test_reads : State.reset.peek 0x005 = 0 ∧ State.reset.peek 0x004 = 0x0000000000060401
    ∧ State.reset.peek 0x133 = 0x3FF0000000000000 := by decide

/-- The first step after reset runs the word placed by `withFetchWord`. -/
theorem test_first_step : regAfter (step (State.reset.withFetchWord 64 0x12100000)) .status = some 0x0201 := by decide

/-! ## Host programs -/

/-- R102, R103: text, comments, letter case, a decimal literal and a pseudo-instruction. -/
theorem test_readLine : readLine "wr BQ[1].Y1, -0.1 ; a tap".toList = some [.wr (.bq 1 .y1) 0xBFB999999999999A]
    ∧ readLine "bqdsn 2, highpass".toList = some [.command (.bqdsn 2 .highPass)]
    ∧ readLine "env 5, 1e-6".toList = some [.wr .op0 Fp.eps, .command (.envstep 5), .rd .res0]
    ∧ readLine "cmd 0x31000001".toList = some [.raw 0x31000001] ∧ readLine "  ; nothing".toList = some [] := by decide

/-- R102: the access of a line. -/
theorem test_lineAccess : lineAccess (.command (.bqdsn 3 .lowPass)) = .write 0x000 0x10350000
    ∧ lineAccess (.wr (.env 4 .prev) 7) = .write 0x222 7 ∧ lineAccess (.rd .res0) = .read 0x010 := by decide

/-! ## Arithmetic: values of the vectors and of IEEE 754 -/

/-- V5.1: 1.25 / 1.5; a tie to even; overflow; the least subnormal halved. -/
theorem test_float_rounding : Fp.div 0x3FF4000000000000 0x3FF8000000000000 = 0x3FEAAAAAAAAAAAAB
    ∧ Fp.add 0x4340000000000000 0x3FF0000000000000 = 0x4340000000000000
    ∧ Fp.add 0x7FEFFFFFFFFFFFFF 0x7FEFFFFFFFFFFFFF = 0x7FF0000000000000
    ∧ Fp.mul 0x0000000000000001 0x3FE0000000000000 = 0 ∧ Fp.sqrt 0x4010000000000000 = 0x4000000000000000 := by decide

/-- V1.11 and V1.12: signed zeros. -/
theorem test_float_zeros : Fp.add 0x8000000000000000 0x8000000000000000 = 0x8000000000000000
    ∧ Fp.add 0x8000000000000000 0 = 0 ∧ Fp.sub 0x8000000000000000 0 = 0x8000000000000000
    ∧ Fp.eq 0 0x8000000000000000 = true := by decide

/-- R14. -/
theorem test_clamp_max : Fp.clamp 0xBFF0000000000000 0 Fp.one = 0 ∧ Fp.clamp 0x4000000000000000 0 Fp.one = Fp.one
    ∧ Fp.clamp 0x7FF8000000000000 0 Fp.one = 0x7FF8000000000000 ∧ Fp.max Fp.one Fp.two = Fp.two := by decide

/-! ## Witnesses: states that meet the hypotheses of each obligation -/

theorem test_witness_SetfsWritesTheRate : Fp.isFinite (ready.reg .op0) = true ∧ Fp.gt (ready.reg .op0) 0 = true := by decide

theorem test_witness_SetfsRejectsIllegalRates :
    ¬(Fp.isFinite (State.reset.reg .op0) = true ∧ Fp.gt (State.reset.reg .op0) 0 = true) := by decide

/-- FS 4.0, f 1.0, Q 0.5, gain 0.0. -/
def designState : State := withOps { ready with fs := 0x4010000000000000 } 0x3FF0000000000000 0x3FE0000000000000 0 0 0 0

theorem test_witness_BqdsnStoresTheDesign : Fp.eq (designState.reg .fs) 0 = false
    ∧ Fp.isFinite (designState.reg .op0) = true ∧ Fp.gt (designState.reg .op0) 0 = true
    ∧ Fp.lt (designState.reg .op0) (Fp.div (designState.reg .fs) Fp.two) = true
    ∧ Fp.isFinite (designState.reg .op1) = true ∧ Fp.gt (designState.reg .op1) 0 = true
    ∧ Fp.isFinite (designState.reg .op2) = true := by decide

/-- The clause that stores: with the cosine 0.0 and the sine 1.0 of a right angle the high-pass design passes
check 5. The values are assumed, since nothing is known of the parameter functions (R19). -/
theorem test_witness_BqdsnStoresTheDesign_pass
    (hc : Config.fcos (Fp.div (Fp.mul Fp.twoPi 0x3FF0000000000000) 0x4010000000000000) = 0)
    (hs : Config.fsin (Fp.div (Fp.mul Fp.twoPi 0x3FF0000000000000) 0x4010000000000000) = Fp.one) :
    legalQuotients (designCoeffs .highPass 0x4010000000000000 0x3FF0000000000000 0x3FE0000000000000 0).a0
      (normalize (designCoeffs .highPass 0x4010000000000000 0x3FF0000000000000 0x3FE0000000000000 0)) = true := by
  simp only [designCoeffs, designAngle, hc, hs]
  decide

/-- The clause that fails: with a cosine that is not finite the high-pass design does not pass. -/
theorem test_witness_BqdsnStoresTheDesign_fail
    (hc : Config.fcos (Fp.div (Fp.mul Fp.twoPi 0x3FF0000000000000) 0x4010000000000000) = 0x7FF0000000000000)
    (hs : Config.fsin (Fp.div (Fp.mul Fp.twoPi 0x3FF0000000000000) 0x4010000000000000) = Fp.one) :
    legalQuotients (designCoeffs .highPass 0x4010000000000000 0x3FF0000000000000 0x3FE0000000000000 0).a0
      (normalize (designCoeffs .highPass 0x4010000000000000 0x3FF0000000000000 0x3FE0000000000000 0)) = false := by
  simp only [designCoeffs, designAngle, hc, hs]
  decide

theorem test_witness_BqdsnRejectsIllegalOperands : Fp.eq (State.reset.reg .fs) 0 = true
    ∧ Fp.eq (ready.reg .fs) 0 = false ∧ Fp.lt 0x40D7700000000000 (Fp.div (ready.reg .fs) Fp.two) = false
    ∧ Fp.gt 0 0 = false ∧ Fp.isFinite 0x7FF0000000000000 = false := by decide

/-- The operands of V1.1. -/
def loadState : State :=
  withOps ready 0x3FF0000000000000 0x3FE0000000000000 0x3FD0000000000000 0x4000000000000000 0xBFF0000000000000 0x3FE0000000000000

theorem test_witness_BqldStoresTheQuotients :
    (∀ r ∈ [Reg.op0, .op1, .op2, .op3, .op4, .op5], Fp.isFinite (loadState.reg r) = true) ∧ Fp.eq (loadState.reg .op3) 0 = false
    ∧ (∀ r ∈ [Reg.op0, .op1, .op2, .op4, .op5], Fp.isFinite (Fp.div (loadState.reg r) (loadState.reg .op3)) = true) := by decide

/-- V1.7, V1.6 and V1.8: each of the three clauses. -/
theorem test_witness_BqldRejectsIllegalOperands : Fp.isFinite ({ loadState with op0 := 0x7FF8000000000000 }.reg .op0) = false
    ∧ Fp.eq ({ loadState with op3 := 0x8000000000000000 }.reg .op3) 0 = true
    ∧ Fp.isFinite (Fp.div ({ loadState with op0 := 0x7FE1CCF385EBC8A0, op3 := 0x3DDB7CDFD9D7BDBB }.reg .op0)
        ({ loadState with op0 := 0x7FE1CCF385EBC8A0, op3 := 0x3DDB7CDFD9D7BDBB }.reg .op3)) = false := by decide

/-- The configured units and the finite sample of BQSTEP, ENVSTEP, VCASTEP, VCAGR, OPTSTEP and KNEVAL; the zero taps
and finite coefficients of BiquadKeepsSilence; the slots of the streaming statements. -/
theorem test_witness_configured_units : (∀ u, (ready.reg (.bq u .ctl)).getLsbD 0 = true)
    ∧ (∀ e, (ready.reg (.env e .ctl)).getLsbD 0 = true) ∧ (ready.reg (.vca .ctl)).getLsbD 0 = true
    ∧ (ready.reg (.opt .ctl)).getLsbD 0 = true ∧ (ready.reg (.knee .ctl)).getLsbD 0 = true
    ∧ Fp.isFinite (ready.reg .op0) = true
    ∧ (∀ r ∈ [BqReg.b0, .b1, .b2, .a1, .a2], Fp.isFinite (ready.reg (.bq 0 r)) = true)
    ∧ (∀ r ∈ [BqReg.x1, .x2, .y1, .y2], Fp.eq (ready.reg (.bq 0 r)) 0 = true)
    ∧ Fp.eq ({ ready with op0 := 0x8000000000000000 }.reg .op0) 0 = true := by decide

/-- V1.3's end: other accesses spare the slot, and the slot's own do not. -/
theorem test_witness_streaming : [HostAccess.read 0x001, .write 0x000 0, .write 0x000 0x12100000, .write 0x116 7, .write 0x000 0x60000000].all
      (sparesBq 0) = true ∧ sparesBq 0 (.write 0x106 7) = false ∧ sparesBq 0 (.write 0x000 0x01000000) = false
    ∧ [HostAccess.read 0x001, .write 0x000 0x22100000, .write 0x000 0x31000000, .write 0x20A 7].all (sparesEnv 0) = true
    ∧ sparesEnv 4 (.write 0x000 0x31000000) = false ∧ [(Fp.one : Word), Fp.two].all Fp.isFinite = true := by decide

theorem test_witness_EnvcfgStoresTheCoefficients : Fp.eq (ready.reg .fs) 0 = false
    ∧ Fp.isFinite ((withOps ready Fp.one Fp.two 0 0 0 0).reg .op0) = true ∧ Fp.gt ((withOps ready Fp.one Fp.two 0 0 0 0).reg .op0) 0 = true
    ∧ Fp.isFinite ((withOps ready Fp.one Fp.two 0 0 0 0).reg .op1) = true
    ∧ Fp.gt ((withOps ready Fp.one Fp.two 0 0 0 0).reg .op1) 0 = true := by decide

/-- Under P3 the clauses that store are the ones that apply (R151): a time constant of 1.0 at 48000.0 hertz. -/
theorem test_witness_coefficients_pass (h : P3) : legalCoefficient (coef 0x40E7700000000000 Fp.one) = true :=
  h.2.2 _ (by decide)

/-- The clauses that fail apply where fexp answers, say, 2.0. -/
theorem test_witness_coefficients_fail
    (h : Config.fexp (Fp.div Fp.negOne (Fp.mul Fp.one 0x40E7700000000000)) = Fp.two) :
    legalCoefficient (coef 0x40E7700000000000 Fp.one) = false := by
  simp only [coef, h]
  decide

/-- V3.6 and the upper end: -0.0 and 1.0. -/
theorem test_witness_EnvldStoresTheCoefficients :
    ∀ r ∈ [Reg.op0, .op1], Fp.ge ((withOps ready 0x8000000000000000 Fp.one 0 0 0 0).reg r) 0 = true
      ∧ Fp.le ((withOps ready 0x8000000000000000 Fp.one 0 0 0 0).reg r) Fp.one = true := by decide

/-- Each clause: no rate, a zero time, a coefficient one unit above 1.0. -/
theorem test_witness_SmootherConfigurationRejectsIllegalOperands : Fp.eq (State.reset.reg .fs) 0 = true
    ∧ Fp.eq (ready.reg .fs) 0 = false ∧ Fp.gt ({ ready with op0 := 0 }.reg .op0) 0 = false
    ∧ Fp.le ({ ready with op0 := 0x3FF0000000000001 }.reg .op0) Fp.one = false := by decide

/-- The parameters of V4.1; a ratio of exactly 1.0 is legal. -/
def dynamicsState : State := withOps ready 0xC028000000000000 Fp.one 0x3F747AE147AE147B 0x3FA999999999999A 0 0

theorem test_witness_dynamics : Fp.eq (dynamicsState.reg .fs) 0 = false
    ∧ (∀ r ∈ [Reg.op0, .op1, .op2, .op3, .op4], Fp.isFinite (dynamicsState.reg r) = true)
    ∧ Fp.ge (dynamicsState.reg .op1) Fp.one = true ∧ Fp.gt (dynamicsState.reg .op2) 0 = true
    ∧ Fp.gt (dynamicsState.reg .op3) 0 = true := by decide

/-- Under P1 the linear images of V5 are in range. -/
theorem test_witness_OptcfgStoresTheParameters_pass (h : P1) : finiteNonNegative (decibelsToLinear 0) = true := by
  have e : Fp.div 0 Fp.twenty = 0 := by decide
  have h1 := h.1
  simp only [decibelsToLinear, e]
  simp only [Fp.eq, Fp.isNaN, Bool.and_eq_true, Bool.not_eq_true', decide_eq_false_iff_not, decide_eq_true_eq] at h1
  have k1 : Fp.orderKey Fp.one = 4607182418800017408 := by decide
  have k0 : Fp.orderKey Fp.zero = 0 := by decide
  have hz : Fp.isNaN Fp.zero = false := by decide
  have hm : Fp.orderKey (Config.fpow10 0x0000000000000000) = 4607182418800017408 := by rw [h1.2, k1]
  have hb : Fp.magBits (Config.fpow10 0x0000000000000000) = 4607182418800017408 := by
    unfold Fp.orderKey at hm
    split at hm <;> omega
  have hn : Fp.isNaN (Config.fpow10 0x0000000000000000) = false := by
    simp only [Fp.isNaN, hb]
    decide
  simp only [finiteNonNegative, Fp.ge, Fp.le, hz, Fp.isFinite, hb]
  change (_ && (!false && !(Fp.isNaN (Config.fpow10 0x0000000000000000)) && decide (Fp.orderKey Fp.zero ≤ Fp.orderKey (Config.fpow10 0x0000000000000000)))) = true
  rw [hn, hm, k0]
  decide

/-- Each clause: no rate, a ratio just below 1.0, a zero time, an infinite threshold (V4.7, V4.8). -/
theorem test_witness_DynamicsConfigurationRejectsIllegalParameters : Fp.eq (State.reset.reg .fs) 0 = true
    ∧ Fp.ge ({ dynamicsState with op1 := 0x3FEFFFFFFFFFFFFF }.reg .op1) Fp.one = false
    ∧ Fp.gt ({ dynamicsState with op2 := 0 }.reg .op2) 0 = false
    ∧ Fp.gt ({ dynamicsState with op3 := 0x8000000000000000 }.reg .op3) 0 = false
    ∧ Fp.isFinite ({ dynamicsState with op0 := 0x7FF0000000000000 }.reg .op0) = false := by decide

/-- A level below the threshold of V4. -/
theorem test_witness_VcaReductionIsZeroBelowThreshold : (ready.reg (.vca .ctl)).getLsbD 0 = true
    ∧ Fp.isFinite ({ ready with op0 := 0xC034000000000000 }.reg .op0) = true
    ∧ Fp.lt ({ ready with op0 := 0xC034000000000000 }.reg .op0) (ready.reg (.vca .th)) = true := by decide

/-- The configured core is legal, its optical envelope finite. -/
theorem test_witness_registers_legal : RegistersLegal ready
    ∧ Fp.isFinite (smooth 5 (Fp.abs (ready.reg .op0)) ready) = true := by
  unfold RegistersLegal
  decide

/-- The state that shows OpticalGainBoundedUnlessNaN to fail is a legal one. -/
theorem test_witness_infinite_envelope :
    RegistersLegal { ready with env := { ready.env with s5 := slotV3 0x7FF0000000000000 } }
    ∧ smooth 5 (Fp.abs Fp.one) { ready with env := { ready.env with s5 := slotV3 0x7FF0000000000000 } } = 0x7FF0000000000000 := by
  unfold RegistersLegal
  decide

theorem test_witness_KncfgStoresTheParameters :
    (∀ r ∈ [Reg.op0, .op1, .op2], Fp.isFinite ((withOps ready 0xC03E000000000000 0x4024000000000000 0x8000000000000000 0 0 0).reg r) = true)
    ∧ Fp.gt ((withOps ready 0xC03E000000000000 0x4024000000000000 0x8000000000000000 0 0 0).reg .op1) 0 = true
    ∧ Fp.ge ((withOps ready 0xC03E000000000000 0x4024000000000000 0x8000000000000000 0 0 0).reg .op2) 0 = true := by decide

/-- Each clause: an infinite threshold, a zero range, the least negative reduction. -/
theorem test_witness_KncfgRejectsIllegalParameters : Fp.isFinite ({ ready with op0 := 0xFFF0000000000000 }.reg .op0) = false
    ∧ Fp.gt ({ ready with op1 := 0 }.reg .op1) 0 = false ∧ Fp.ge ({ ready with op2 := 0x8000000000000001 }.reg .op2) 0 = false := by
  decide

/-- At and above the threshold of V6. -/
theorem test_witness_KneeIsNeutralUpToThreshold : Fp.isFinite (ready.reg (.knee .th)) = true
    ∧ Fp.le ({ ready with op0 := 0xC03E000000000000 }.reg .op0) (ready.reg (.knee .th)) = true
    ∧ Fp.gt ({ ready with op0 := 0xC03DFFFFFFFFFFFF }.reg .op0) (ready.reg (.knee .th)) = true := by decide

/-- The end of the window of V6, and V6.10: a reduction of 0.0 above the threshold. -/
theorem test_witness_KneeIsNeutralUpToThreshold_above :
    Fp.ge (Fp.sub 0xC034000000000000 (ready.reg (.knee .th))) (ready.reg (.knee .range)) = true
    ∧ Fp.gt (Fp.div (ready.reg (.knee .red)) Fp.twenty) 0 = true
    ∧ Fp.gt 0 (ready.reg (.knee .th)) = true
    ∧ regsAfter (exec .kneval { ready with op0 := 0, knee := { ready.knee with red := 0 } }) [.res0, .res1]
      = [some 0, some 0x3FF0000000000000] := by decide

/-- After reset nothing is configured; in `ready` everything is, and an infinite sample is not finite. -/
theorem test_witness_error_statements : (∀ u, (State.reset.reg (.bq u .ctl)).getLsbD 0 = false)
    ∧ (∀ e, (State.reset.reg (.env e .ctl)).getLsbD 0 = false) ∧ (State.reset.reg (.vca .ctl)).getLsbD 0 = false
    ∧ (State.reset.reg (.opt .ctl)).getLsbD 0 = false ∧ (State.reset.reg (.knee .ctl)).getLsbD 0 = false
    ∧ Fp.eq (State.reset.reg .fs) 0 = true ∧ Fp.isFinite ({ ready with op0 := 0x7FF0000000000000 }.reg .op0) = false := by decide

theorem test_witness_instruction_classes : isConfiguration (.bqdsn 0 .peaking) = true ∧ isConfiguration .kncfg = true
    ∧ isRuntime (.bqstep 3) = true ∧ isRuntime .setfs = false ∧ Instr.setfs ≠ .reset ∧ Instr.setfs ≠ .clrst := by decide

theorem test_witness_IllegalWordsRaiseIllegalCommand : fieldsWellFormed (fieldsOf 0x12400000) = false := by decide

theorem test_witness_StepRunsDecodedCommand : (ready.withFetchWord 64 0x12300000).pending = .write 0x000 0x12300000 :: []
    ∧ decode 0x12300000 = .instr (.bqstep 3)
    ∧ { ready with pending := [.write 0x005 7, .read 0x001] }.pending = .write 0x005 7 :: [.read 0x001] := by decide

theorem test_witness_StepServesReadsAndWaits : State.reset.pending = []
    ∧ { ready with pending := [.read 0x005] }.pending = .read 0x005 :: [] ∧ regAt 0x005 = none ∧ regAt 0x004 = some .id := by decide

/-- A register of each kind the host may write, the last of its slots included, and a word that decodes. -/
theorem test_witness_WritableRegistersStoreTheWord : (Reg.op5 ∈ [Reg.op0, .op1, .op2, .op3, .op4, .op5])
    ∧ [Reg.op5, .bq 3 .y2, .env 5 .prev].map Reg.index = [0x00D, 0x139, 0x22A]
    ∧ decode 0x01000000 = .instr .reset := by decide

/-- Two cores that read alike, and two that do not. -/
theorem test_witness_HostReadsShowTheWholeState : (∀ a : RegIndex, ready.peek a = ready.peek a)
    ∧ ready.peek 0x308 = State.reset.peek 0x308 ∧ ready.peek 0x300 ≠ State.reset.peek 0x300 := ⟨fun _ => rfl, by decide, by decide⟩

/-- Boundary indices of each range a write may or may not store to. -/
theorem test_witness_OtherWritesRaiseIllegalWrite : [(0x007 : RegIndex), 0x00E, 0x105, 0x10A, 0x136, 0x139, 0x201, 0x203, 0x22A].map regAt
    = [none, none, some (.bq 0 .a2), some (.bq 0 .ctl), some (.bq 3 .x1), some (.bq 3 .y2), some (.env 0 .arel), some (.env 0 .ctl),
      some (.env 5 .prev)]
    ∧ (∀ u, u < 4 → ¬(0x106 + 0x10 * u ≤ (0x105 : RegIndex).toNat ∧ (0x105 : RegIndex).toNat ≤ 0x109 + 0x10 * u))
    ∧ (∀ e, e < 6 → (0x105 : RegIndex).toNat ≠ 0x202 + 0x8 * e) ∧ ¬(0x008 ≤ (0x105 : RegIndex).toNat ∧ (0x105 : RegIndex).toNat ≤ 0x00D) := by
  decide

theorem test_witness_ReadsAndStoresAreIdempotent : Reg.op0.access = .readWrite ∧ (Reg.bq 3 .y2).access = .readWrite
    ∧ serve (.write Reg.op0.index 7) State.reset = .next { State.reset with op0 := 7 } := ⟨rfl, rfl, rfl⟩

/-- A step that changes a tap and one that clears a flag. -/
theorem test_witness_whole_machine_rules : regAfter (step (ready.withFetchWord 64 0x12000000)) (.bq 0 .x1) = some Fp.one
    ∧ regAfter (step (ready.withFetchWord 64 0x22100000)) (.env 1 .prev) = some Fp.half
    ∧ regAfter (step ({ ready with status := 0x0107 }.withFetchWord 64 0x02000000)) .status = some 0 := by decide

/-- The arithmetic statements hold of finite words, a non-zero divisor and a non-negative operand. -/
theorem test_witness_arithmetic : Fp.isFinite Fp.one = true ∧ Fp.isFinite 0x8000000000000001 = true
    ∧ Fp.isNaN 0x7FF0000000000001 = true ∧ value Fp.one = 1 := by
  refine ⟨by decide, by decide, by decide, ?_⟩
  have e : ((Fp.one : Word).extractLsb' 52 11).toNat = 1023 := by decide
  have f : ((Fp.one : Word).extractLsb' 0 52).toNat = 0 := by decide
  have s : (Fp.one : Word).getLsbD 63 = false := by decide
  unfold value
  rw [e, f, s]
  norm_num

/-- Infinite operands, a divisor of zero, equal numbers of either sign: each clause of NaNExactlyInTheInvalidCases. -/
theorem test_witness_special_values : Fp.isInf 0xFFF0000000000000 = true ∧ Fp.isFinite 0x0000000000000001 = true
    ∧ Fp.isZero 0x8000000000000000 = true ∧ Fp.isZero 0x0000000000000001 = false ∧ Fp.isNaN Fp.one = false
    ∧ Fp.isNaN (Fp.mul 0x8000000000000001 Fp.half) = false ∧ Fp.isNaN (Fp.div Fp.one 0) = false
    ∧ Fp.isNaN (Fp.sqrt Fp.two) = false ∧ value Fp.one - value Fp.one = 0
    ∧ value 0x8000000000000000 + value 0x8000000000000000 = 0 := by
  refine ⟨by decide, by decide, by decide, by decide, by decide, by decide, by decide, by decide, sub_self _, ?_⟩
  have e : ((0x8000000000000000 : Word).extractLsb' 52 11).toNat = 0 := by decide
  have f : ((0x8000000000000000 : Word).extractLsb' 0 52).toNat = 0 := by decide
  unfold value
  rw [e, f]
  norm_num

/-- PeakingAtZeroGainIsUnity: under P1, with a sine and a cosine of 1.0 and 0.0, the design completes. -/
theorem test_witness_PeakingAtZeroGainIsUnity (hp : Config.fpow10 0 = Fp.one)
    (hc : Config.fcos (Fp.div (Fp.mul Fp.twoPi 0x3FF0000000000000) 0x4010000000000000) = 0)
    (hs : Config.fsin (Fp.div (Fp.mul Fp.twoPi 0x3FF0000000000000) 0x4010000000000000) = Fp.one) :
    Fp.eq (designState.reg .op2) 0 = true
    ∧ legalQuotients (designCoeffs .peaking 0x4010000000000000 0x3FF0000000000000 0x3FE0000000000000 0).a0
      (normalize (designCoeffs .peaking 0x4010000000000000 0x3FF0000000000000 0x3FE0000000000000 0)) = true := by
  have e : Fp.div 0 Fp.forty = 0 := by decide
  refine ⟨by decide, ?_⟩
  simp only [designCoeffs, designAngle, rawCoeffs, designAmplitude, e, hp, hc, hs]
  decide

end Sys2Proof.Tests
end

section
/-! The number a word stands for, in units of 2^-1074, as a strictly increasing function of its magnitude bits
(R13, R77). -/

namespace Sys2Proof.Machine.Fp

open Sys2Proof.Safety

/-! ## Magnitude bits and units -/

/-- The units of the magnitude bits `m`, continued beyond the largest finite magnitude by the same rule, so that
`infBits` stands for 2^2098 units. -/
def magUnits (m : ℕ) : ℕ := if m / 2 ^ 52 = 0 then m else (2 ^ 52 + m % 2 ^ 52) * 2 ^ (m / 2 ^ 52 - 1)

theorem expField_eq (w : Word) : expField w = magBits w / 2 ^ 52 := by
  simp only [expField, magBits, BitVec.extractLsb'_toNat, Nat.shiftRight_eq_div_pow]
  omega

theorem fracField_eq (w : Word) : fracField w = magBits w % 2 ^ 52 := by
  simp only [fracField, magBits, BitVec.extractLsb'_toNat, Nat.shiftRight_eq_div_pow]
  omega

theorem units_eq_magUnits (w : Word) : units w = magUnits (magBits w) := by
  unfold units magUnits
  rw [expField_eq, fracField_eq]
  split
  · omega
  · rfl

/-- The units of a significand `q` of weight 2^k: a carry out of the significand needs no case of its own. -/
theorem magUnits_significand {k q : ℕ} (hq : q ≤ 2 ^ 53) (hk : k = 0 ∨ 2 ^ 52 ≤ q) :
    magUnits (k * 2 ^ 52 + q) = q * 2 ^ k := by
  unfold magUnits
  rcases Nat.lt_or_ge q (2 ^ 52) with h | h
  · obtain rfl : k = 0 := by omega
    rw [if_pos (by omega)]
    omega
  rcases Nat.lt_or_ge q (2 ^ 53) with h' | h'
  · have e : (k * 2 ^ 52 + q) / 2 ^ 52 = k + 1 := by omega
    have f : 2 ^ 52 + (k * 2 ^ 52 + q) % 2 ^ 52 = q := by omega
    rw [e, f, if_neg (by omega), Nat.add_sub_cancel]
  · obtain rfl : q = 2 ^ 53 := by omega
    have e : (k * 2 ^ 52 + 2 ^ 53) / 2 ^ 52 = k + 1 + 1 := by omega
    have f : 2 ^ 52 + (k * 2 ^ 52 + 2 ^ 53) % 2 ^ 52 = 2 ^ 52 := by omega
    rw [e, f, if_neg (by omega), Nat.add_sub_cancel, pow_succ 2 k]
    ring

/-- Every magnitude has a significand of 53 bits and a weight. -/
theorem exists_significand (m : ℕ) : ∃ k q, m = k * 2 ^ 52 + q ∧ q < 2 ^ 53 ∧ (k = 0 ∨ 2 ^ 52 ≤ q) := by
  refine ⟨m / 2 ^ 52 - 1, m - (m / 2 ^ 52 - 1) * 2 ^ 52, ?_, ?_, ?_⟩ <;> omega

theorem magUnits_strictMono : StrictMono magUnits := by
  refine strictMono_nat_of_lt_succ fun m => ?_
  obtain ⟨k, q, rfl, hq, hk⟩ := exists_significand m
  rw [magUnits_significand hq.le hk, add_assoc, magUnits_significand hq (by omega)]
  exact Nat.mul_lt_mul_of_pos_right q.lt_succ_self (by positivity)

@[simp] theorem magUnits_zero : magUnits 0 = 0 := rfl

/-- The number of units in 1.0. -/
def unitsPerOne : ℕ := 2 ^ 1074

theorem unitsPerOne_eq : unitsPerOne = 2 ^ 1074 := rfl

theorem unitsPerOne_pos : 0 < unitsPerOne := unitsPerOne_eq ▸ pow_pos two_pos _

theorem magUnits_infBits : magUnits infBits = 2 ^ 1024 * unitsPerOne := by
  have e := magUnits_significand (k := 2046) (q := 2 ^ 52) (by norm_num) (by norm_num)
  calc magUnits infBits = 2 ^ 52 * 2 ^ 2046 := e
    _ = 2 ^ 1024 * unitsPerOne := by rw [unitsPerOne_eq, ← pow_add, ← pow_add]

theorem magUnits_largestFinite : magUnits (infBits - 1) + 2 * (2 ^ 970 * unitsPerOne) = 2 ^ 1024 * unitsPerOne := by
  have e := magUnits_significand (k := 2045) (q := 2 ^ 53 - 1) (by norm_num) (by norm_num)
  have e' : magUnits (infBits - 1) = (2 ^ 53 - 1) * 2 ^ 2045 := e
  rw [e', unitsPerOne_eq, ← pow_add, ← pow_add, show 1024 + 1074 = 53 + 2045 from rfl,
    show 970 + 1074 = 2044 from rfl, pow_add 2 53, pow_succ 2 2044]
  omega

/-! ## Words -/

theorem ofMag_sign_magBits (w : Word) : ofMag (sign w) (magBits w) = w := by
  unfold ofMag magBits
  rw [BitVec.ofNat_toNat, BitVec.setWidth_eq]
  refine BitVec.eq_of_getLsbD_eq fun i hi => ?_
  rw [BitVec.getLsbD_append]
  rcases Nat.lt_or_ge i 63 with h | h
  · simp [h]
  · obtain rfl : i = 63 := by omega
    cases hs : sign w <;> simpa [sign, BitVec.ofBool] using hs.symm

theorem word_eq_iff (a b : Word) : a = b ↔ sign a = sign b ∧ magBits a = magBits b := by
  refine ⟨by rintro rfl; exact ⟨rfl, rfl⟩, fun ⟨hs, hm⟩ => ?_⟩
  rw [← ofMag_sign_magBits a, hs, hm, ofMag_sign_magBits]

@[simp] theorem sign_neg (w : Word) : sign (neg w) = !sign w := by
  simp [sign, neg]

@[simp] theorem magBits_neg (w : Word) : magBits (neg w) = magBits w := by
  have e : BitVec.extractLsb' 0 63 (neg w) = BitVec.extractLsb' 0 63 w := by
    refine BitVec.eq_of_getLsbD_eq fun i hi => ?_
    have h : (0x8000000000000000#64).getLsbD i = false := by
      rw [show 0x8000000000000000#64 = BitVec.twoPow 64 63 from rfl, BitVec.getLsbD_twoPow]
      simp [hi.ne']
    simp [neg, hi, h]
  rw [magBits, e, magBits]

theorem neg_neg_word (w : Word) : neg (neg w) = w := by simp [word_eq_iff]

theorem neg_ofMag (s : Bool) {m : ℕ} (h : m < 2 ^ 63) : neg (ofMag s m) = ofMag (!s) m := by
  simp [word_eq_iff, sign_ofMag, magBits_ofMag _ h]

@[simp] theorem isNaN_neg (w : Word) : isNaN (neg w) = isNaN w := by simp [isNaN]

@[simp] theorem isInf_neg (w : Word) : isInf (neg w) = isInf w := by simp [isInf]

@[simp] theorem isFinite_neg (w : Word) : isFinite (neg w) = isFinite w := by simp [isFinite]

/-! ## The number of a word -/

/-- The number of units with the sign of `z` whose magnitude bits are `|z|`: the units of an order key. -/
def keyUnits (z : ℤ) : ℤ := if z < 0 then -(magUnits z.natAbs : ℤ) else (magUnits z.natAbs : ℤ)

theorem keyUnits_strictMono : StrictMono keyUnits := by
  refine strictMono_of_odd_strictMonoOn_nonneg (fun z => ?_) fun x hx y hy h => ?_
  · rcases lt_trichotomy z 0 with h | rfl | h
    · simp [keyUnits, h, h.le]
    · simp [keyUnits]
    · simp [keyUnits, h, h.le]
  · rw [Set.mem_Ici] at hx hy
    simp only [keyUnits, hx.not_gt, hy.not_gt, if_false, Nat.cast_lt]
    exact magUnits_strictMono (by omega)

theorem keyUnits_natCast (n : ℕ) : keyUnits n = magUnits n := by simp [keyUnits]

theorem signedUnits_eq_keyUnits (w : Word) : signedUnits w = keyUnits (orderKey w) := by
  rw [signedUnits, orderKey, keyUnits, units_eq_magUnits]
  cases sign w
  · simp
  · rcases Nat.eq_zero_or_pos (magBits w) with h | h <;> simp [h]

/-- The number of a word, read from powers of two, is its units, counted in ones. -/
theorem value_eq_signedUnits (w : Word) : value w = (signedUnits w : ℚ) / unitsPerOne := by
  have hd : ((unitsPerOne : ℚ))⁻¹ = 2 ^ (-1074 : ℤ) := by rw [unitsPerOne_eq, zpow_neg, Nat.cast_pow]; rfl
  have hv : value w = (if sign w then -1 else 1) * (if (expField w : ℤ) = 0 then (fracField w : ℚ) * 2 ^ (-1074 : ℤ)
      else (1 + (fracField w : ℚ) / 2 ^ 52) * 2 ^ ((expField w : ℤ) - 1023)) := rfl
  have hu : (signedUnits w : ℚ) = (if sign w then -1 else 1) * (units w : ℚ) := by
    unfold signedUnits
    cases sign w <;> simp
  rw [hv, hu, div_eq_mul_inv _ (unitsPerOne : ℚ), hd, mul_assoc, units]
  congr 1
  rcases Nat.eq_zero_or_pos (expField w) with h | h
  · simp [h]
  · obtain ⟨e, he⟩ : ∃ e, expField w = e + 1 := ⟨_, (Nat.succ_pred_eq_of_pos h).symm⟩
    have hp : (2 : ℚ) ^ (((e + 1 : ℕ) : ℤ) - 1023) = 2 ^ e * 2 ^ (52 : ℕ) * 2 ^ (-1074 : ℤ) := by
      rw [← zpow_natCast, ← zpow_natCast, ← zpow_add₀ two_ne_zero, ← zpow_add₀ two_ne_zero]
      congr 1
      push_cast
      ring
    rw [he, if_neg (by omega), if_neg (by omega), hp, Nat.add_sub_cancel]
    generalize (2 : ℚ) ^ (-1074 : ℤ) = unit
    push_cast
    ring

theorem value_lt_iff (a b : Word) : value a < value b ↔ orderKey a < orderKey b := by
  rw [value_eq_signedUnits, value_eq_signedUnits,
    div_lt_div_iff_of_pos_right (Nat.cast_pos.2 unitsPerOne_pos), Int.cast_lt, signedUnits_eq_keyUnits,
    signedUnits_eq_keyUnits, keyUnits_strictMono.lt_iff_lt]

theorem value_le_iff (a b : Word) : value a ≤ value b ↔ orderKey a ≤ orderKey b := by
  rw [← not_lt, value_lt_iff, not_lt]

theorem value_eq_iff (a b : Word) : value a = value b ↔ orderKey a = orderKey b := by
  rw [le_antisymm_iff, value_le_iff, value_le_iff, ← le_antisymm_iff]

@[simp] theorem signedUnits_neg (w : Word) : signedUnits (neg w) = -signedUnits w := by
  simp only [signedUnits, units_eq_magUnits, magBits_neg, sign_neg]
  cases sign w <;> simp

@[simp] theorem value_neg (w : Word) : value (neg w) = -value w := by
  rw [value_eq_signedUnits, signedUnits_neg, Int.cast_neg, neg_div, ← value_eq_signedUnits]

end Sys2Proof.Machine.Fp
end

section
/-! Rounding to nearest, ties to even (R7, R13): what it means on magnitude bits, and that a word of rounded magnitude
bits is the rounded number. -/

namespace Sys2Proof.Machine.Fp

open Sys2Proof.Safety

/-! ## The nearest of the numbers outside a gap -/

/-- The lower end of a gap is the nearest number outside it to an `x` in its lower half, the upper end as near at the
midpoint alone. -/
theorem lower_end_nearest {lo hi x v : ℝ} (hx : lo ≤ x) (hmid : 2 * x ≤ lo + hi) (hv : v ≤ lo ∨ hi ≤ v) :
    |lo - x| < |v - x| ∨ v = lo ∨ |lo - x| = |v - x| ∧ lo + hi = 2 * x := by
  have hlo : |lo - x| = x - lo := by rw [abs_sub_comm, abs_of_nonneg (by linarith)]
  rcases hv with h | h
  · rcases h.eq_or_lt with rfl | h
    · exact .inr (.inl rfl)
    · left
      rw [hlo, abs_sub_comm, abs_of_nonneg (by linarith)]
      linarith
  · have hvx : |v - x| = v - x := abs_of_nonneg (by linarith)
    rw [hlo, hvx]
    rcases (show x - lo ≤ v - x by linarith).lt_or_eq with h' | h'
    · exact .inl h'
    · exact .inr (.inr ⟨h', by linarith⟩)

/-- The mirror image of `lower_end_nearest`. -/
theorem upper_end_nearest {lo hi x v : ℝ} (hx : x ≤ hi) (hmid : lo + hi ≤ 2 * x) (hv : v ≤ lo ∨ hi ≤ v) :
    |hi - x| < |v - x| ∨ v = hi ∨ |hi - x| = |v - x| ∧ lo + hi = 2 * x := by
  have h := lower_end_nearest (lo := -hi) (hi := -lo) (x := -x) (v := -v) (by linarith) (by linarith)
    (hv.symm.imp neg_le_neg neg_le_neg)
  have hdist (r : ℝ) : |-r - -x| = |r - x| := by rw [neg_sub_neg, abs_sub_comm]
  rw [hdist, hdist, neg_inj] at h
  exact h.imp_right (.imp_right fun ⟨he, hm⟩ => ⟨he, by linarith⟩)

/-! ## The nearest magnitude -/

/-- A magnitude of `x` units, of which `n` is the magnitude bits below, goes to the magnitude bits above: it is beyond
the midpoint, or at it and `n` is odd. -/
def RoundsUp (x : ℝ) (n : ℕ) : Prop :=
  (magUnits n + magUnits (n + 1) : ℝ) < 2 * x ∨ (magUnits n + magUnits (n + 1) : ℝ) = 2 * x ∧ n % 2 = 1

/-- `m` is the magnitude bits of `x` units rounded to nearest, ties to even, `infBits` at the most. -/
def IsNearestMag (x : ℝ) (m : ℕ) : Prop :=
  ∃ n, (magUnits n : ℝ) ≤ x ∧ x < magUnits (n + 1)
    ∧ (RoundsUp x n ∧ m = min (n + 1) infBits ∨ ¬RoundsUp x n ∧ m = min n infBits)

theorem isNearestMag_zero : IsNearestMag 0 0 :=
  ⟨0, by simp, by simp [magUnits], .inr ⟨by simp [RoundsUp, magUnits], rfl⟩⟩

theorem IsNearestMag.le_infBits {x : ℝ} {m : ℕ} (h : IsNearestMag x m) : m ≤ infBits := by
  obtain ⟨n, -, -, ⟨-, rfl⟩ | ⟨-, rfl⟩⟩ := h <;> exact min_le_right _ _

/-- The overflow bound in units: halfway from the largest finite magnitude to that of `infBits`. -/
theorem overflowBound_units :
    2 * ((overflowBound : ℝ) * unitsPerOne) = magUnits (infBits - 1) + magUnits infBits := by
  have h₁ : (magUnits infBits : ℝ) = 2 ^ 1024 * unitsPerOne := by
    rw [magUnits_infBits, Nat.cast_mul, Nat.cast_pow, Nat.cast_ofNat]
  have h₂ := congrArg (Nat.cast (R := ℝ)) magUnits_largestFinite
  rw [Nat.cast_add, Nat.cast_mul, Nat.cast_mul, Nat.cast_mul, Nat.cast_pow, Nat.cast_pow, Nat.cast_ofNat] at h₂
  have h₃ : (overflowBound : ℝ) = 2 ^ 1024 - 2 ^ 970 := by
    rw [overflowBound, Rat.cast_sub, Rat.cast_pow, Rat.cast_pow, Rat.cast_ofNat]
  rw [h₃, h₁]
  generalize (2 : ℝ) ^ 1024 = p at *
  generalize (2 : ℝ) ^ 970 = r at *
  linarith

theorem magUnits_cast_lt {m n : ℕ} : (magUnits m : ℝ) < magUnits n ↔ m < n := by
  rw [Nat.cast_lt, magUnits_strictMono.lt_iff_lt]

/-- From the overflow bound up, the nearest magnitude is infinity. -/
theorem IsNearestMag.eq_infBits {x : ℝ} {m : ℕ} (h : IsNearestMag x m) (hx : (overflowBound : ℝ) * unitsPerOne ≤ x) :
    m = infBits := by
  obtain ⟨n, hlo, hhi, hm⟩ := h
  have hb := overflowBound_units
  have hlt : (magUnits (infBits - 1) : ℝ) < magUnits infBits := magUnits_cast_lt.2 (by decide)
  have hn : infBits - 1 < n + 1 := magUnits_cast_lt.1 (by linarith)
  rcases Nat.lt_or_ge n infBits with hlast | hbig
  · obtain rfl : n = infBits - 1 := by omega
    have hup : RoundsUp x (infBits - 1) := by
      rcases hx.eq_or_lt with h | h
      · exact .inr ⟨by rw [← h, hb]; rfl, by decide⟩
      · exact .inl (by rw [show infBits - 1 + 1 = infBits from rfl]; linarith)
    rcases hm with ⟨-, rfl⟩ | ⟨hno, -⟩
    · rfl
    · exact absurd hup hno
  · rcases hm with ⟨-, rfl⟩ | ⟨-, rfl⟩
    · exact min_eq_right (by omega)
    · exact min_eq_right hbig

/-- Below the overflow bound, the nearest magnitude is a finite one, with no bound to meet. -/
theorem IsNearestMag.lt_infBits {x : ℝ} {m : ℕ} (h : IsNearestMag x m) (hx : x < (overflowBound : ℝ) * unitsPerOne) :
    m < infBits ∧ ∃ n, (magUnits n : ℝ) ≤ x ∧ x < magUnits (n + 1)
      ∧ (RoundsUp x n ∧ m = n + 1 ∨ ¬RoundsUp x n ∧ m = n) := by
  obtain ⟨n, hlo, hhi, hm⟩ := h
  have hb := overflowBound_units
  have hlt : (magUnits (infBits - 1) : ℝ) < magUnits infBits := magUnits_cast_lt.2 (by decide)
  have hn : n < infBits := magUnits_cast_lt.1 (by linarith)
  have hlast : RoundsUp x n → n + 1 < infBits := by
    intro hup
    by_contra hge
    obtain rfl : n = infBits - 1 := by omega
    rw [RoundsUp, show infBits - 1 + 1 = infBits from rfl] at hup
    rcases hup with h | ⟨h, -⟩ <;> linarith
  rcases hm with ⟨hup, rfl⟩ | ⟨hno, rfl⟩
  · have := hlast hup
    exact ⟨by omega, n, hlo, hhi, .inl ⟨hup, by omega⟩⟩
  · exact ⟨by omega, n, hlo, hhi, .inr ⟨hno, by omega⟩⟩

/-- The units of an order key lie outside the gap between two neighbouring magnitudes. -/
theorem keyUnits_outside_gap (z : ℤ) (n : ℕ) :
    (keyUnits z : ℝ) ≤ magUnits n ∨ (magUnits (n + 1) : ℝ) ≤ keyUnits z := by
  have hcast (k : ℕ) : (magUnits k : ℝ) = keyUnits k := by rw [keyUnits_natCast, Int.cast_natCast]
  rw [hcast, hcast, Int.cast_le, Int.cast_le, keyUnits_strictMono.le_iff_le, keyUnits_strictMono.le_iff_le]
  omega

/-- The nearest magnitude has none nearer among the order keys, and is even where another is as near. -/
theorem nearest_among_keys {x : ℝ} {m n : ℕ} (hlo : (magUnits n : ℝ) ≤ x) (hhi : x < magUnits (n + 1))
    (hm : RoundsUp x n ∧ m = n + 1 ∨ ¬RoundsUp x n ∧ m = n) (z : ℤ) :
    |(magUnits m : ℝ) - x| < |(keyUnits z : ℝ) - x| ∨ (keyUnits z : ℝ) = magUnits m ∨
      |(magUnits m : ℝ) - x| = |(keyUnits z : ℝ) - x| ∧ m % 2 = 0 := by
  have hgap := keyUnits_outside_gap z n
  rcases hm with ⟨hup, rfl⟩ | ⟨hno, rfl⟩
  · have hmid : (magUnits n + magUnits (n + 1) : ℝ) ≤ 2 * x := hup.elim le_of_lt fun h => h.1.le
    refine (upper_end_nearest hhi.le hmid hgap).imp_right (.imp_right fun ⟨he, htie⟩ => ⟨he, ?_⟩)
    rcases hup with h | ⟨-, hodd⟩
    · exact absurd htie h.ne
    · omega
  · rw [RoundsUp, not_or, not_lt, not_and] at hno
    obtain ⟨hmid, heven⟩ := hno
    refine (lower_end_nearest hlo hmid hgap).imp_right (.imp_right fun ⟨he, htie⟩ => ⟨he, ?_⟩)
    have := heven htie
    omega

/-! ## Words -/

theorem value_eq_units (w : Word) : (value w : ℝ) = (keyUnits (orderKey w) : ℝ) / unitsPerOne := by
  rw [value_eq_signedUnits, signedUnits_eq_keyUnits, Rat.cast_div, Rat.cast_intCast, Rat.cast_natCast]

theorem isFinite_ofMag (s : Bool) {m : ℕ} (h : m < infBits) : isFinite (ofMag s m) = true := by
  rw [isFinite, magBits_ofMag s (h.trans (by decide)), decide_eq_true h]

theorem getLsbD_zero_eq (w : Word) : w.getLsbD 0 = decide (magBits w % 2 = 1) := by
  rw [magBits, BitVec.extractLsb'_toNat, BitVec.getLsbD, Nat.testBit_zero]
  congr 1
  rw [Nat.shiftRight_zero, Nat.mod_mod_of_dvd _ (by decide)]

/-- A word with the nearest magnitude bits and no sign is the number rounded. -/
theorem roundsTo_ofMag_false {x : ℝ} {m : ℕ} (hx : 0 ≤ x) (h : IsNearestMag x m) :
    RoundsTo (x / unitsPerOne) (ofMag false m) := by
  have hpos : (0 : ℝ) < unitsPerOne := Nat.cast_pos.2 unitsPerOne_pos
  have hbound : (0 : ℝ) < overflowBound := Rat.cast_pos.2 (sub_pos.2 (pow_lt_pow_right₀ one_lt_two (by decide)))
  have hx' : 0 ≤ x / unitsPerOne := div_nonneg hx hpos.le
  refine ⟨fun hbig => ?_, fun hneg => by linarith, fun hsmall => ?_⟩
  · rw [h.eq_infBits ((le_div_iff₀ hpos).1 hbig)]
    rfl
  · rw [abs_of_nonneg hx', div_lt_iff₀ hpos] at hsmall
    obtain ⟨hfin, n, hlo, hhi, hm⟩ := h.lt_infBits hsmall
    have hmag : magBits (ofMag false m) = m := magBits_ofMag _ (hfin.trans (by decide))
    have hval : (value (ofMag false m) : ℝ) = magUnits m / unitsPerOne := by
      rw [value_eq_units, orderKey, sign_ofMag, hmag, if_neg Bool.false_ne_true, keyUnits_natCast, Int.cast_natCast]
    refine ⟨isFinite_ofMag _ hfin, fun v _ => ?_⟩
    have hdist (r : ℝ) : |r / unitsPerOne - x / unitsPerOne| = |r - x| / unitsPerOne := by
      rw [← sub_div, abs_div, abs_of_pos hpos]
    rw [← Rat.cast_inj (α := ℝ), hval, value_eq_units, hdist, hdist, div_lt_div_iff_of_pos_right hpos,
      div_left_inj' hpos.ne', div_left_inj' hpos.ne', getLsbD_zero_eq, hmag, decide_eq_false_iff_not,
      Nat.mod_two_not_eq_one]
    exact nearest_among_keys hlo hhi hm (orderKey v)

theorem roundsTo_neg {x : ℝ} {w : Word} (h : RoundsTo x w) : RoundsTo (-x) (neg w) := by
  obtain ⟨hbig, hneg, hsmall⟩ := h
  refine ⟨fun hx => ?_, fun hx => ?_, fun hx => ?_⟩
  · rw [hneg (by linarith)]
    rfl
  · rw [hbig (by linarith)]
    rfl
  · rw [abs_neg] at hx
    obtain ⟨hfin, hnear⟩ := hsmall hx
    refine ⟨by rw [isFinite_neg, hfin], fun v hv => ?_⟩
    have hdist (r : ℝ) : |-r - -x| = |r - x| := by rw [neg_sub_neg, abs_sub_comm]
    have hbit : (neg w).getLsbD 0 = w.getLsbD 0 := by rw [getLsbD_zero_eq, magBits_neg, ← getLsbD_zero_eq]
    have h := hnear (neg v) (by rw [isFinite_neg, hv])
    rw [← hdist, ← hdist (value (neg v)), value_neg v, Rat.cast_neg, neg_neg, neg_eq_iff_eq_neg] at h
    rwa [hbit, value_neg w, Rat.cast_neg]

/-- A word with the nearest magnitude bits is the number rounded. -/
theorem roundsTo_ofMag (s : Bool) {x : ℝ} {m : ℕ} (hx : 0 ≤ x) (h : IsNearestMag x m) :
    RoundsTo ((if s then -1 else 1) * (x / unitsPerOne)) (ofMag s m) := by
  have hpos := roundsTo_ofMag_false hx h
  cases s
  · rwa [if_neg Bool.false_ne_true, one_mul]
  · have hneg := roundsTo_neg hpos
    rw [neg_ofMag false (lt_of_le_of_lt h.le_infBits (by decide))] at hneg
    rwa [if_pos rfl, neg_one_mul]

end Sys2Proof.Machine.Fp
end

section
/-! The two rounding functions of the arithmetic give the nearest magnitude: of a quotient of naturals, and of a square
root (R7, R13). -/

namespace Sys2Proof.Machine.Fp

/-- The leading 53 bits of a number, or all of it where it has no more. -/
theorem log2_significand (n : ℕ) :
    n / 2 ^ (n.log2 - 52) < 2 ^ 53 ∧ (n.log2 - 52 = 0 ∨ 2 ^ 52 ≤ n / 2 ^ (n.log2 - 52)) := by
  constructor
  · rw [Nat.div_lt_iff_lt_mul (by positivity), ← pow_add]
    exact Nat.lt_log2_self.trans_le (Nat.pow_le_pow_right two_pos (by omega))
  · refine or_iff_not_imp_left.2 fun hk => ?_
    have hn : n ≠ 0 := by rintro rfl; exact hk rfl
    rw [Nat.le_div_iff_mul_le (by positivity), ← pow_add, show 52 + (n.log2 - 52) = n.log2 by omega]
    exact Nat.log2_self_le hn

theorem packBits_eq (k q : ℕ) : packBits k q = min (k * 2 ^ 52 + q) infBits := rfl

/-- A significand rounded up where the exact magnitude is beyond the midpoint, or at it and the significand is odd, is
packed into the nearest magnitude. -/
theorem isNearestMag_packBits {x : ℝ} {k q : ℕ} {up : Prop} [Decidable up] (hq : q < 2 ^ 53) (hk : k = 0 ∨ 2 ^ 52 ≤ q)
    (hlo : (q * 2 ^ k : ℝ) ≤ x) (hhi : x < (q + 1) * 2 ^ k)
    (hup : up ↔ ((2 * q + 1) * 2 ^ k : ℝ) < 2 * x ∨ ((2 * q + 1) * 2 ^ k : ℝ) = 2 * x ∧ q % 2 = 1) :
    IsNearestMag x (if up then packBits k (q + 1) else packBits k q) := by
  have hn : (magUnits (k * 2 ^ 52 + q) : ℝ) = q * 2 ^ k := by exact_mod_cast magUnits_significand hq.le hk
  have hn' : (magUnits (k * 2 ^ 52 + q + 1) : ℝ) = (q + 1) * 2 ^ k := by
    rw [add_assoc, magUnits_significand hq (by omega)]
    push_cast
    rfl
  have hround : RoundsUp x (k * 2 ^ 52 + q) ↔ up := by
    rw [RoundsUp, hup, hn, hn', show (k * 2 ^ 52 + q) % 2 = q % 2 by omega,
      show (q * 2 ^ k + (q + 1) * 2 ^ k : ℝ) = (2 * q + 1) * 2 ^ k by ring]
  refine ⟨k * 2 ^ 52 + q, hn ▸ hlo, hn' ▸ hhi, ?_⟩
  rw [hround, packBits_eq, packBits_eq, ← add_assoc]
  by_cases h : up <;> simp [h]

theorem isNearestMag_roundUnits (n : ℕ) {d : ℕ} (hd : 0 < d) : IsNearestMag ((n : ℝ) / d) (roundUnits n d) := by
  obtain ⟨hq, hk⟩ := log2_significand (n / d)
  simp only [roundUnits]
  generalize (n / d).log2 - 52 = k at hq hk ⊢
  rw [Nat.div_div_eq_div_mul] at hq hk
  have hunit : 0 < d * 2 ^ k := by positivity
  have hdR : (0 : ℝ) < d := Nat.cast_pos.2 hd
  have hsplit := Nat.div_add_mod n (d * 2 ^ k)
  have hrem := Nat.mod_lt n hunit
  generalize n / (d * 2 ^ k) = q at *
  generalize n % (d * 2 ^ k) = r at *
  have hx : (n : ℝ) / d = q * 2 ^ k + r / d := by
    rw [← hsplit]
    push_cast
    field_simp
  have hr : (r : ℝ) / d < 2 ^ k := by
    rw [div_lt_iff₀ hdR, mul_comm]
    exact_mod_cast hrem
  have hr₂ : (2 : ℝ) * (r / d) = (2 * r : ℕ) / d := by push_cast; ring
  have hu : (2 : ℝ) ^ k = (d * 2 ^ k : ℕ) / d := by push_cast; field_simp
  refine isNearestMag_packBits hq hk ?_ ?_ ?_
  · rw [hx]
    exact le_add_of_nonneg_right (by positivity)
  · rw [hx]
    linarith
  · rw [← Nat.cast_lt (α := ℝ), ← Nat.cast_inj (R := ℝ), ← div_lt_div_iff_of_pos_right hdR, ← div_left_inj' hdR.ne',
      ← hu, ← hr₂, hx]
    refine or_congr ⟨fun h => by linarith, fun h => by linarith⟩ (and_congr_left' ?_)
    exact ⟨fun h => by linarith, fun h => by linarith⟩

theorem rootFrom_eq_sqrt (n bits acc : ℕ) (hlo : acc ≤ n.sqrt) (hhi : n.sqrt < acc + 2 ^ bits) :
    rootFrom n bits acc = n.sqrt := by
  induction bits generalizing acc with
  | zero =>
    rw [rootFrom]
    omega
  | succ bits ih =>
    rw [pow_succ] at hhi
    rw [rootFrom]
    split
    next h => exact ih _ (Nat.le_sqrt'.2 h) (by omega)
    next h => exact ih _ hlo (by rw [← Nat.le_sqrt'] at h; omega)

/-- The bits `roundRoot` searches are enough for the whole root. -/
theorem sqrt_lt_two_pow (m : ℕ) : m.sqrt < 2 ^ (m.log2 / 2 + 1) := by
  rw [Nat.sqrt_lt', ← pow_mul]
  exact Nat.lt_log2_self.trans_le (Nat.pow_le_pow_right two_pos (by omega))

theorem isNearestMag_roundRoot (m : ℕ) : IsNearestMag (√m) (roundRoot m) := by
  obtain ⟨hq, hk⟩ := log2_significand m.sqrt
  simp only [roundRoot, rootFrom_eq_sqrt m _ 0 (Nat.zero_le _) (by simpa using sqrt_lt_two_pow m)]
  generalize m.sqrt.log2 - 52 = k at hq hk ⊢
  have hlo : m.sqrt / 2 ^ k * 2 ^ k ≤ m.sqrt := Nat.div_mul_le_self _ _
  have hhi : m.sqrt < (m.sqrt / 2 ^ k + 1) * 2 ^ k := Nat.lt_mul_of_div_lt (Nat.lt_succ_self _) (by positivity)
  generalize m.sqrt / 2 ^ k = q at *
  rw [Nat.le_sqrt'] at hlo
  rw [Nat.sqrt_lt'] at hhi
  have h₂ : 2 * √(m : ℝ) = √((4 * m : ℕ) : ℝ) := by
    rw [Nat.cast_mul, Real.sqrt_mul (by positivity), show ((4 : ℕ) : ℝ) = 2 ^ 2 by norm_num, Real.sqrt_sq two_pos.le]
  refine isNearestMag_packBits hq hk ?_ ?_ ?_
  · exact Real.le_sqrt_of_sq_le (by exact_mod_cast hlo)
  · rw [Real.sqrt_lt' (by positivity)]
    exact_mod_cast hhi
  · rw [h₂, Real.lt_sqrt (by positivity), eq_comm (b := √_), Real.sqrt_eq_iff_eq_sq (by positivity) (by positivity)]
    refine or_congr ?_ (and_congr_left' ?_)
    · exact_mod_cast Iff.rfl
    · rw [eq_comm]
      exact_mod_cast Iff.rfl

end Sys2Proof.Machine.Fp
end

section
/-! The operations on finite words are the exact ones rounded once, and the comparisons are those of the numbers
(R7, R13). -/

namespace Sys2Proof.Machine.Fp

open Sys2Proof.Safety

/-! ## What each operation computes on finite words -/

theorem sum_of_finite (nan : Word) {a b : Word} (ha : isFinite a = true) (hb : isFinite b = true) :
    sum nan a b = if signedUnits a + signedUnits b = 0 then ofMag (sign a && sign b) 0
      else ofMag (decide (signedUnits a + signedUnits b < 0))
        (roundUnits (signedUnits a + signedUnits b).natAbs 1) := by
  simp [sum, not_nan_of_finite ha, not_nan_of_finite hb, not_inf_of_finite ha, not_inf_of_finite hb]

theorem mul_of_finite {a b : Word} (ha : isFinite a = true) (hb : isFinite b = true) :
    mul a b = ofMag (sign a != sign b) (roundUnits (units a * units b) unitsPerOne) := by
  simp only [mul, not_nan_of_finite ha, not_nan_of_finite hb, not_inf_of_finite ha, not_inf_of_finite hb]
  rfl

theorem div_of_finite {a b : Word} (ha : isFinite a = true) (hb : isFinite b = true) (h0 : isZero b = false) :
    div a b = ofMag (sign a != sign b) (roundUnits (units a * unitsPerOne) (units b)) := by
  simp only [div, not_nan_of_finite ha, not_nan_of_finite hb, not_inf_of_finite ha, not_inf_of_finite hb, h0]
  rfl

theorem sqrt_of_isZero {a : Word} (h0 : isZero a = true) : sqrt a = a := by
  have hnan : isNaN a = false := by
    simp only [isZero, isNaN, decide_eq_true_eq, decide_eq_false_iff_not] at *
    omega
  simp [sqrt, hnan, h0]

theorem sqrt_of_finite {a : Word} (ha : isFinite a = true) (h0 : isZero a = false) (hs : sign a = false) :
    sqrt a = ofMag false (roundRoot (units a * unitsPerOne)) := by
  simp only [sqrt, not_nan_of_finite ha, not_inf_of_finite ha, h0, hs]
  rfl

/-! ## Zeros and signs -/

theorem isZero_iff_units (w : Word) : isZero w = true ↔ units w = 0 := by
  rw [isZero, decide_eq_true_eq, units_eq_magUnits, ← magUnits_strictMono.injective.eq_iff, magUnits_zero]

theorem isZero_iff_value (w : Word) : isZero w = true ↔ value w = 0 := by
  have hU : (unitsPerOne : ℚ) ≠ 0 := Nat.cast_ne_zero.2 unitsPerOne_pos.ne'
  rw [isZero_iff_units, value_eq_signedUnits, div_eq_zero_iff, or_iff_left hU, Int.cast_eq_zero, signedUnits]
  cases sign w <;> simp

theorem value_eq_sign_mul (w : Word) : (value w : ℝ) = (if sign w then -1 else 1) * ((units w : ℝ) / unitsPerOne) := by
  rw [value_eq_signedUnits, Rat.cast_div, Rat.cast_intCast, Rat.cast_natCast, signedUnits]
  cases sign w
  · rw [if_neg Bool.false_ne_true, if_neg Bool.false_ne_true, one_mul, Int.cast_natCast]
  · rw [if_pos rfl, if_pos rfl, neg_one_mul, Int.cast_neg, Int.cast_natCast, neg_div]

theorem sign_factor_bne (s t : Bool) :
    (if s != t then -1 else 1 : ℝ) = (if s then -1 else 1) * (if t then -1 else 1) := by
  cases s <;> cases t <;> simp

theorem sign_factor_div (s t : Bool) :
    (if s != t then -1 else 1 : ℝ) = (if s then -1 else 1) / (if t then -1 else 1) := by
  cases s <;> cases t <;> simp

theorem sign_eq_false_of_value_nonneg {w : Word} (h : 0 ≤ value w) (h0 : isZero w = false) : sign w = false := by
  have hpos : 0 < value w := h.lt_of_ne' fun he => by simp [(isZero_iff_value w).2 he] at h0
  by_contra hs
  rw [value_eq_signedUnits, signedUnits, if_pos (by simpa using hs)] at hpos
  have hU : (0 : ℚ) ≤ unitsPerOne := Nat.cast_nonneg _
  refine absurd hpos (not_lt.2 (div_nonpos_of_nonpos_of_nonneg ?_ hU))
  simp

/-! ## Rounding once -/

theorem roundsTo_zero (s : Bool) : RoundsTo 0 (ofMag s 0) := by
  simpa only [zero_div, mul_zero] using roundsTo_ofMag s le_rfl isNearestMag_zero

theorem sum_roundsTo (nan : Word) {a b : Word} (ha : isFinite a = true) (hb : isFinite b = true) :
    RoundsTo ((value a : ℝ) + (value b : ℝ)) (sum nan a b) := by
  have hexact : (value a : ℝ) + value b = ((signedUnits a + signedUnits b : ℤ) : ℝ) / unitsPerOne := by
    rw [value_eq_signedUnits, value_eq_signedUnits, Int.cast_add, add_div, Rat.cast_div, Rat.cast_div,
      Rat.cast_intCast, Rat.cast_intCast, Rat.cast_natCast]
  rw [hexact, sum_of_finite nan ha hb]
  generalize signedUnits a + signedUnits b = z
  split
  case isTrue h =>
    rw [h, Int.cast_zero, zero_div]
    exact roundsTo_zero _
  case isFalse h =>
    have hz : (z : ℝ) = (if decide (z < 0) then -1 else 1) * ((z.natAbs : ℝ) / (1 : ℕ)) := by
      rw [Nat.cast_one, div_one, Nat.cast_natAbs, Int.cast_abs]
      split
      case isTrue hneg => rw [abs_of_neg (Int.cast_lt_zero.2 (of_decide_eq_true hneg)), neg_one_mul, neg_neg]
      case isFalse hpos =>
        rw [abs_of_nonneg (Int.cast_nonneg (not_lt.1 (by simpa using hpos))), one_mul]
    rw [hz, mul_div_assoc]
    exact roundsTo_ofMag _ (by positivity) (isNearestMag_roundUnits _ one_pos)

theorem mul_roundsTo {a b : Word} (ha : isFinite a = true) (hb : isFinite b = true) :
    RoundsTo ((value a : ℝ) * (value b : ℝ)) (mul a b) := by
  have hexact : (value a : ℝ) * value b
      = (if sign a != sign b then -1 else 1) * (((units a * units b : ℕ) : ℝ) / unitsPerOne / unitsPerOne) := by
    rw [value_eq_sign_mul, value_eq_sign_mul, sign_factor_bne, Nat.cast_mul]
    generalize (unitsPerOne : ℝ) = U
    ring
  rw [hexact, mul_of_finite ha hb]
  exact roundsTo_ofMag _ (div_nonneg (Nat.cast_nonneg _) (Nat.cast_nonneg _))
    (isNearestMag_roundUnits _ unitsPerOne_pos)

theorem div_roundsTo {a b : Word} (ha : isFinite a = true) (hb : isFinite b = true) (h0 : value b ≠ 0) :
    RoundsTo ((value a : ℝ) / (value b : ℝ)) (div a b) := by
  have hzero : isZero b = false := by rwa [← Bool.not_eq_true, isZero_iff_value]
  have hU : (unitsPerOne : ℝ) ≠ 0 := Nat.cast_ne_zero.2 unitsPerOne_pos.ne'
  have hub : units b ≠ 0 := by rwa [Ne, ← isZero_iff_units, isZero_iff_value]
  have hexact : (value a : ℝ) / value b
      = (if sign a != sign b then -1 else 1) * (((units a * unitsPerOne : ℕ) : ℝ) / units b / unitsPerOne) := by
    rw [value_eq_sign_mul, value_eq_sign_mul, sign_factor_div, Nat.cast_mul, mul_div_mul_comm,
      div_div_div_cancel_right₀ hU, div_right_comm, mul_div_cancel_right₀ _ hU]
  rw [hexact, div_of_finite ha hb hzero]
  exact roundsTo_ofMag _ (div_nonneg (Nat.cast_nonneg _) (Nat.cast_nonneg _))
    (isNearestMag_roundUnits _ (Nat.pos_of_ne_zero hub))

theorem sqrt_roundsTo {a : Word} (ha : isFinite a = true) (hnonneg : 0 ≤ value a) :
    RoundsTo (√(value a : ℝ)) (sqrt a) := by
  cases h0 : isZero a with
  | true =>
    have hmag : magBits a = 0 := of_decide_eq_true h0
    rw [sqrt_of_isZero h0, (isZero_iff_value a).1 h0, Rat.cast_zero, Real.sqrt_zero, ← ofMag_sign_magBits a, hmag]
    exact roundsTo_zero _
  | false =>
    have hs := sign_eq_false_of_value_nonneg hnonneg h0
    have hU : (0 : ℝ) < unitsPerOne := Nat.cast_pos.2 unitsPerOne_pos
    have hexact : √(value a : ℝ) = √((units a * unitsPerOne : ℕ) : ℝ) / unitsPerOne := by
      rw [value_eq_sign_mul, hs, if_neg Bool.false_ne_true, one_mul, Nat.cast_mul, Real.sqrt_mul (Nat.cast_nonneg _),
        Real.sqrt_div (Nat.cast_nonneg _), mul_div_assoc, Real.sqrt_div_self, div_eq_mul_inv]
    rw [hexact, sqrt_of_finite ha h0 hs]
    exact roundsTo_ofMag_false (Real.sqrt_nonneg _) (isNearestMag_roundRoot _)

end Sys2Proof.Machine.Fp

open Sys2Proof.Machine.Fp

/-- Settles O51: both are `Fp.sum`, whose exact result is a whole number of units. -/
theorem addAndSubRoundToNearestEven : Obligations.AddAndSubRoundToNearestEven := by
  intro a b ha hb
  refine ⟨sum_roundsTo _ ha hb, ?_⟩
  have h := sum_roundsTo (nanResult .sub a b) ha ((isFinite_neg b).trans hb)
  rwa [value_neg, Rat.cast_neg, ← sub_eq_add_neg] at h

/-- Settles O52. -/
theorem mulAndDivRoundToNearestEven : Obligations.MulAndDivRoundToNearestEven :=
  fun _ _ ha hb => ⟨mul_roundsTo ha hb, div_roundsTo ha hb⟩

/-- Settles O53. -/
theorem sqrtRoundsToNearestEven : Obligations.SqrtRoundsToNearestEven :=
  fun _ ha hnonneg => sqrt_roundsTo ha hnonneg

/-- Settles O54: the order keys the comparisons compare are ordered as the numbers are. -/
theorem comparisonsFollowTheNumbers : Obligations.ComparisonsFollowTheNumbers := by
  intro a b
  refine ⟨fun ha hb => ?_, fun hnan => ?_⟩
  · rw [value_lt_iff, value_le_iff, value_eq_iff]
    simp [lt, le, eq, not_nan_of_finite ha, not_nan_of_finite hb]
  · rcases hnan with h | h <;> simp [lt, le, gt, ge, eq, h]
end

section
/-! Outside exact arithmetic: the NaN of an invalid operation, infinite operands, division by zero, and the signs of
zeros, products and quotients (R16, R17, R13). -/

namespace Sys2Proof.Machine.Fp

open Sys2Proof.Safety

/-! ## Classes of words -/

theorem not_nan_of_inf {w : Word} (h : isInf w = true) : isNaN w = false := by
  simp only [isInf, isNaN, decide_eq_true_eq, decide_eq_false_iff_not] at *
  omega

theorem not_zero_of_inf {w : Word} (h : isInf w = true) : isZero w = false := by
  simp only [isInf, isZero, decide_eq_true_eq, decide_eq_false_iff_not] at *
  rw [h]
  decide

theorem not_inf_and_zero (w : Word) : ¬(isInf w = true ∧ isZero w = true) :=
  fun ⟨hi, hz⟩ => by simp [not_zero_of_inf hi] at hz

theorem finite_of_zero {w : Word} (h : isZero w = true) : isFinite w = true := by
  simp only [isFinite, isZero, decide_eq_true_eq] at *
  rw [h]
  decide

theorem finite_of_not_nan_of_not_inf {w : Word} (hn : isNaN w = false) (hi : isInf w = false) : isFinite w = true := by
  simpa [hn, hi] using finite_or_inf_or_nan w

/-- Infinities are equal if and only if their signs are. -/
theorem eq_iff_sign_of_inf {a b : Word} (ha : isInf a = true) (hb : isInf b = true) : a = b ↔ sign a = sign b := by
  simp only [isInf, decide_eq_true_eq] at ha hb
  rw [word_eq_iff, ha, hb, and_iff_left rfl]

@[simp] theorem isInf_ofMag_infBits (s : Bool) : isInf (ofMag s infBits) = true := by
  rw [isInf, magBits_ofMag s (by decide), decide_eq_true rfl]

@[simp] theorem isZero_ofMag_zero (s : Bool) : isZero (ofMag s 0) = true := by
  rw [isZero, magBits_ofMag s (by decide), decide_eq_true rfl]

theorem lt_zero_iff (w : Word) : lt w 0 = true ↔ isNaN w = false ∧ isZero w = false ∧ sign w = true := by
  have hkey : orderKey w < 0 ↔ isZero w = false ∧ sign w = true := by
    rw [orderKey, isZero, decide_eq_false_iff_not]
    cases sign w <;> simp
    omega
  rw [lt, show orderKey 0 = 0 from rfl, show isNaN 0 = false by decide]
  simp [hkey]

/-! ## Sums and differences -/

theorem isNaN_sum_of_inf_left {nan a b : Word} (hnan : isNaN nan = true) (ha : isInf a = true) (hb : isNaN b = false) :
    isNaN (sum nan a b) = true ↔ isInf b = true ∧ sign a ≠ sign b := by
  have han := not_nan_of_inf ha
  by_cases h : isInf b = true ∧ sign a ≠ sign b <;> simp [sum, ha, hb, han, h, hnan]

/-- A sum is NaN exactly where a term is, or the terms are infinities of opposite signs. -/
theorem isNaN_sum_iff {nan : Word} (hnan : isNaN nan = true) (a b : Word) :
    isNaN (sum nan a b) = true ↔
      isNaN a = true ∨ isNaN b = true ∨ isInf a = true ∧ isInf b = true ∧ sign a ≠ sign b := by
  cases ha : isNaN a with
  | true => simp [sum, ha, hnan]
  | false =>
  cases hb : isNaN b with
  | true => simp [sum, hb, hnan]
  | false =>
  cases hai : isInf a with
  | true => simpa using isNaN_sum_of_inf_left hnan hai hb
  | false =>
  cases hbi : isInf b with
  | true => simp [sum, ha, hb, hai, hbi]
  | false =>
    rw [sum_of_finite nan (finite_of_not_nan_of_not_inf ha hai) (finite_of_not_nan_of_not_inf hb hbi)]
    split
    · simp [not_nan_ofMag _ (Nat.zero_le _)]
    · simp [not_nan_ofMag _ (roundUnits_le _ _)]

theorem sum_inf_left (nan : Word) {a b : Word} (ha : isInf a = true) (hb : isFinite b = true) : sum nan a b = a := by
  simp [sum, ha, not_nan_of_inf ha, not_nan_of_finite hb, not_inf_of_finite hb]

theorem sum_inf_right (nan : Word) {a b : Word} (ha : isInf a = true) (hb : isFinite b = true) : sum nan b a = a := by
  simp [sum, ha, not_nan_of_inf ha, not_nan_of_finite hb, not_inf_of_finite hb]

theorem sum_inf_self (nan : Word) {a : Word} (ha : isInf a = true) : sum nan a a = a := by
  simp [sum, ha, not_nan_of_inf ha]

/-- An exact zero sum is +0.0 unless both terms are negative. -/
theorem sum_eq_zero (nan : Word) {a b : Word} (ha : isFinite a = true) (hb : isFinite b = true)
    (h : value a + value b = 0) : sum nan a b = if sign a && sign b then 0x8000000000000000 else 0 := by
  have hU : (unitsPerOne : ℚ) ≠ 0 := Nat.cast_ne_zero.2 unitsPerOne_pos.ne'
  rw [value_eq_signedUnits, value_eq_signedUnits, ← add_div, div_eq_zero_iff, or_iff_left hU, ← Int.cast_add,
    Int.cast_eq_zero] at h
  rw [sum_of_finite nan ha hb, if_pos h]
  cases sign a && sign b <;> rfl

theorem isNaN_add_iff (a b : Word) : isNaN (add a b) = true ↔
    isNaN a = true ∨ isNaN b = true ∨ isInf a = true ∧ isInf b = true ∧ a ≠ b := by
  rw [add, isNaN_sum_iff (isNaN_nanResult _ _ _)]
  refine or_congr_right (or_congr_right (and_congr_right fun ha => and_congr_right fun hb => ?_))
  rw [Ne, Ne, eq_iff_sign_of_inf ha hb]

theorem isNaN_sub_iff (a b : Word) : isNaN (sub a b) = true ↔
    isNaN a = true ∨ isNaN b = true ∨ isInf a = true ∧ a = b := by
  rw [sub, isNaN_sum_iff (isNaN_nanResult _ _ _), isNaN_neg, isInf_neg, sign_neg]
  refine or_congr_right (or_congr_right (and_congr_right fun ha => ⟨fun ⟨hb, hs⟩ => ?_, ?_⟩))
  · exact (eq_iff_sign_of_inf ha hb).2 (by simpa using hs)
  · rintro rfl
    exact ⟨ha, by simp⟩

theorem add_inf {a b : Word} (ha : isInf a = true) (hb : isFinite b = true) : add a b = a ∧ add b a = a :=
  ⟨sum_inf_left _ ha hb, sum_inf_right _ ha hb⟩

theorem sub_inf {a b : Word} (ha : isInf a = true) (hb : isFinite b = true) : sub a b = a ∧ sub b a = neg a :=
  ⟨sum_inf_left _ ha ((isFinite_neg b).trans hb), sum_inf_right _ ((isInf_neg a).trans ha) hb⟩

theorem sub_neg_self_of_inf {a : Word} (ha : isInf a = true) : sub a (neg a) = a := by
  rw [sub, neg_neg_word, sum_inf_self _ ha]

theorem sub_eq_zero_word {a b : Word} (ha : isFinite a = true) (hb : isFinite b = true)
    (h : value a - value b = 0) : sub a b = if sign a && !sign b then 0x8000000000000000 else 0 := by
  rw [sub, sum_eq_zero _ ha ((isFinite_neg b).trans hb) (by rwa [value_neg, ← sub_eq_add_neg]), sign_neg]

/-! ## Products and quotients -/

/-- The products that are NaN. -/
def MulInvalid (a b : Word) : Prop :=
  isNaN a = true ∨ isNaN b = true ∨ isInf a = true ∧ isZero b = true ∨ isZero a = true ∧ isInf b = true

/-- The quotients that are NaN. -/
def DivInvalid (a b : Word) : Prop :=
  isNaN a = true ∨ isNaN b = true ∨ isInf a = true ∧ isInf b = true ∨ isZero a = true ∧ isZero b = true

/-- An operation's result: a NaN where it is invalid, and a magnitude up to infinity of the sign `s` elsewhere. -/
def NaNOrSigned (invalid : Prop) (s : Bool) (r : Word) : Prop :=
  invalid ∧ isNaN r = true ∨ ¬invalid ∧ ∃ m ≤ infBits, r = ofMag s m

theorem NaNOrSigned.isNaN_iff {invalid : Prop} {s : Bool} {r : Word} (h : NaNOrSigned invalid s r) :
    isNaN r = true ↔ invalid := by
  obtain ⟨hi, hr⟩ | ⟨hi, m, hm, rfl⟩ := h
  · exact iff_of_true hr hi
  · exact iff_of_false (by simp [not_nan_ofMag s hm]) hi

theorem NaNOrSigned.sign_eq {invalid : Prop} {s : Bool} {r : Word} (h : NaNOrSigned invalid s r)
    (hr : isNaN r = false) : sign r = s := by
  obtain ⟨-, hn⟩ | ⟨-, m, -, rfl⟩ := h
  · simp [hn] at hr
  · exact sign_ofMag s m

theorem mul_nanOrSigned (a b : Word) : NaNOrSigned (MulInvalid a b) (sign a != sign b) (mul a b) := by
  have hxa := not_inf_and_zero a
  have hxb := not_inf_and_zero b
  simp only [mul, NaNOrSigned, MulInvalid, Bool.or_eq_true]
  split_ifs with hnan hinf hzero
  · exact .inl ⟨by tauto, isNaN_nanResult _ _ _⟩
  · exact .inl ⟨by tauto, isNaN_nanResult _ _ _⟩
  · exact .inr ⟨by tauto, infBits, le_rfl, rfl⟩
  · exact .inr ⟨by tauto, _, roundUnits_le _ _, rfl⟩

theorem div_nanOrSigned (a b : Word) : NaNOrSigned (DivInvalid a b) (sign a != sign b) (div a b) := by
  have hxa := not_inf_and_zero a
  have hxb := not_inf_and_zero b
  simp only [div, NaNOrSigned, DivInvalid, Bool.or_eq_true]
  split_ifs with hnan hai hbi hbi hbz haz
  · exact .inl ⟨by tauto, isNaN_nanResult _ _ _⟩
  · exact .inl ⟨by tauto, isNaN_nanResult _ _ _⟩
  · exact .inr ⟨by tauto, infBits, le_rfl, rfl⟩
  · exact .inr ⟨by tauto, 0, Nat.zero_le _, rfl⟩
  · exact .inl ⟨by tauto, isNaN_nanResult _ _ _⟩
  · exact .inr ⟨by tauto, infBits, le_rfl, rfl⟩
  · exact .inr ⟨by tauto, _, roundUnits_le _ _, rfl⟩

theorem isInf_mul_of_inf {a b : Word} (ha : isInf a = true) (hb : isNaN b = false) (h0 : isZero b = false) :
    isInf (mul a b) = true ∧ isInf (mul b a) = true := by
  simp [mul, ha, hb, h0, not_nan_of_inf ha, not_zero_of_inf ha]

theorem div_of_inf {a b : Word} (ha : isInf a = true) (hb : isFinite b = true) :
    isInf (div a b) = true ∧ isZero (div b a) = true := by
  simp [div, ha, not_nan_of_inf ha, not_nan_of_finite hb, not_inf_of_finite hb]

theorem isInf_div_by_zero {a b : Word} (ha : isFinite a = true) (ha0 : isZero a = false) (hb : isZero b = true) :
    isInf (div a b) = true := by
  have hbf := finite_of_zero hb
  simp [div, ha0, hb, not_nan_of_finite ha, not_inf_of_finite ha, not_nan_of_finite hbf, not_inf_of_finite hbf]

/-! ## Square roots -/

/-- A root is NaN exactly where the operand is NaN or below zero, and has no sign unless it is that of a zero. -/
theorem sqrt_nanOrSigned {a : Word} (h0 : isZero a = false) :
    NaNOrSigned (isNaN a = true ∨ lt a 0 = true) false (sqrt a) := by
  rw [lt_zero_iff]
  simp only [sqrt, h0, NaNOrSigned, Bool.false_eq_true, if_false]
  split_ifs with hnan hs hinf
  · exact .inl ⟨.inl hnan, isNaN_nanResult _ _ _⟩
  · exact .inl ⟨.inr ⟨by simpa using hnan, trivial, hs⟩, isNaN_nanResult _ _ _⟩
  · refine .inr ⟨by simp [hnan, hs], magBits a, (of_decide_eq_true hinf).le, ?_⟩
    rw [← Bool.eq_false_iff.2 hs, ofMag_sign_magBits]
  · exact .inr ⟨by simp [hnan, hs], _, roundRoot_le _, rfl⟩

theorem isNaN_sqrt_iff (a : Word) : isNaN (sqrt a) = true ↔ isNaN a = true ∨ lt a 0 = true := by
  cases h0 : isZero a with
  | true =>
    rw [sqrt_of_isZero h0, lt_zero_iff, h0]
    simp
  | false => exact (sqrt_nanOrSigned h0).isNaN_iff

end Sys2Proof.Machine.Fp

open Sys2Proof.Machine.Fp

/-- Settles O55, operation by operation: a difference is the sum with the negated second term. -/
theorem nanExactlyInTheInvalidCases : Obligations.NaNExactlyInTheInvalidCases := by
  intro a b
  exact ⟨isNaN_add_iff a b, isNaN_sub_iff a b, (mul_nanOrSigned a b).isNaN_iff, (div_nanOrSigned a b).isNaN_iff,
    isNaN_sqrt_iff a, fun ha hb => ⟨(add_inf ha hb).1, (add_inf ha hb).2, sub_inf ha hb⟩,
    fun ha => ⟨sum_inf_self _ ha, sub_neg_self_of_inf ha⟩, sum_eq_zero _, sub_eq_zero_word,
    (mul_nanOrSigned a b).sign_eq, (div_nanOrSigned a b).sign_eq, isInf_mul_of_inf, div_of_inf, isInf_div_by_zero,
    sqrt_of_isZero, by decide, fun hn h0 => (sqrt_nanOrSigned h0).sign_eq hn⟩
end

section
/-! The frame of a command: what a commit, a failed command and every other command leave as they were (R12, R33,
R244, R246). -/

namespace Sys2Proof.Machine

open Sys2Proof.Safety

/-! ## Frames -/

theorem unchanged_mono {s t : State} {rs qs : List Reg} (h : Unchanged s t rs) (hsub : rs ⊆ qs) : Unchanged s t qs :=
  ⟨fun r hr => h.1 r (fun hm => hr (hsub hm)), h.2⟩

theorem unchanged_commit (ws : List (Reg × Word)) (s : State) : Unchanged s (commit ws s) (ws.map Prod.fst) :=
  ⟨fun _ hr => reg_commit_of_ne (fun _ hw he => hr (he ▸ List.mem_map_of_mem hw)), by simp, by simp⟩

theorem unchanged_commitResults (ws : List (Reg × Word)) (s : State) :
    Unchanged s (commitResults ws s) (.status :: ws.map Prod.fst) := by
  refine ⟨fun r hr => ?_, by simp, by simp⟩
  rw [List.mem_cons, not_or] at hr
  rw [reg_commitResults hr.1, (unchanged_commit ws s).1 r hr.2]

/-! ## Recording an error -/

/-- R244, field by field as the model writes it and bit by bit as the spec does. -/
theorem statusWithError_eq (w : Word) (c : BitVec 8) :
    statusWithError w c = (w &&& 0xFFFFFFFFFFFF00FF) ||| (c.setWidth 64 <<< 8) ||| 0x1 := by
  apply BitVec.eq_of_getLsbD_eq
  intro i hi
  rw [getLsbD_statusWithError]
  interval_cases i <;> simp

/-- The latch after an error, as the model updates it and as R244 and R245 write it. -/
theorem errorRecorded_iff {e : ErrorCode} {info : Word} {s t : State} : ErrorRecorded e info s t ↔
    t.status = statusAfterError s.status (codeOf e) ∧ t.errcmd = errcmdAfterError s.status s.errcmd info := by
  rw [statusAfterError, statusWithError_eq, codeOf_setWidth]
  rfl

/-- A command that ends with an error is one that failed as R244 and R246 say. -/
theorem commandError_failed (i : Instr) (e : ErrorCode) (s : State) :
    ∃ t, commandError i e s = .next t ∧ Failed i e s t := by
  obtain ⟨t, ht, hstatus, herrcmd, hvalid, hrest, hpending, hreads⟩ := commandError_next i e s
  rw [configuredCtls_eq_validBitsOf] at hvalid hrest
  refine ⟨t, ht, errorRecorded_iff.2 ⟨hstatus, herrcmd⟩, hvalid, fun r hr => ?_, hpending, hreads⟩
  simp only [List.mem_cons, not_or] at hr
  exact hrest r hr.1 hr.2.1 hr.2.2

/-! ## Every command -/

/-- The registers that can differ after a command: STATUS, ERRCMD, its VALID bits and what its rule writes. -/
def mayChange (i : Instr) : List Reg := .status :: .errcmd :: (validBitsOf i ++ writtenBy i)

theorem operand_not_mem_mayChange (i : Instr) :
    ∀ r ∈ [Reg.op0, .op1, .op2, .op3, .op4, .op5], r ∉ mayChange i := by
  cases i <;> simp [mayChange, validBitsOf, writtenBy]

theorem validBitsOf_subset_mayChange (i : Instr) : .status :: .errcmd :: validBitsOf i ⊆ mayChange i := by
  intro r
  simp only [mayChange, List.mem_cons, List.mem_append]
  tauto

theorem writtenBy_subset_mayChange (i : Instr) : .status :: writtenBy i ⊆ mayChange i := by
  intro r
  simp only [mayChange, List.mem_cons, List.mem_append]
  tauto

theorem exec_frame {i : Instr} (s : State) (hi : i ≠ .reset) :
    ∃ t, exec i s = .next t ∧ Unchanged s t (mayChange i) := by
  rcases exec_cases i s with ⟨e, he⟩ | ⟨-, -, ws, he, hw⟩ | ⟨-, ws, he, hw⟩ | ⟨rfl, -⟩
  · obtain ⟨t, ht, -, -, hframe⟩ := commandError_failed i e s
    exact ⟨t, he.trans ht, unchanged_mono hframe (validBitsOf_subset_mayChange i)⟩
  · exact ⟨_, he, unchanged_mono (unchanged_commit ws s)
      (hw ▸ List.subset_of_cons_subset (writtenBy_subset_mayChange i))⟩
  · exact ⟨_, he, unchanged_mono (unchanged_commitResults ws s) (hw ▸ writtenBy_subset_mayChange i)⟩
  · exact absurd rfl hi

end Sys2Proof.Machine

open Sys2Proof.Machine

/-- Settles O34, by the frame of every command but RESET. -/
theorem commandsWriteOnlyTheirRegisters : Obligations.CommandsWriteOnlyTheirRegisters := by
  intro i s
  by_cases hi : i = .reset
  · subst hi
    exact ⟨_, rfl, rfl, rfl, fun h => absurd rfl h⟩
  · obtain ⟨t, ht, hframe⟩ := exec_frame s hi
    exact ⟨t, ht, hframe.2.1, hframe.2.2, fun _ =>
      ⟨hframe, fun r hr => hframe.1 r (operand_not_mem_mayChange i r hr)⟩⟩
end

section
/-! The register map (R51, R85): each table of indices read forwards and backwards, and the state as the host's reads
show it (R53). -/

namespace Sys2Proof.Machine

/-! ## From an index to its register and back -/

theorem hostRegAt_index {n : ℕ} {r : Reg} (h : hostRegAt n = some r) : r.index.toNat = n := by
  unfold hostRegAt at h
  split at h <;> cases h <;> rfl

theorem paramRegAt_index {n : ℕ} {r : Reg} (h : paramRegAt n = some r) : r.index.toNat = 0x300 + n := by
  unfold paramRegAt at h
  split at h <;> cases h <;> rfl

theorem bqRegAt_offset {n : ℕ} {r : BqReg} (h : bqRegAt n = some r) : r.offset = n := by
  unfold bqRegAt at h
  split at h <;> cases h <;> rfl

theorem envRegAt_offset {n : ℕ} {r : EnvReg} (h : envRegAt n = some r) : r.offset = n := by
  unfold envRegAt at h
  split at h <;> cases h <;> rfl

theorem BqReg.offset_lt (r : BqReg) : r.offset < 0x10 := by cases r <;> decide

theorem EnvReg.offset_lt (r : EnvReg) : r.offset < 0x8 := by cases r <;> decide

theorem toNat_index_bq (u : BqIndex) (r : BqReg) : (Reg.bq u r).index.toNat = 0x100 + 0x10 * u.val + r.offset := by
  have := r.offset_lt
  have := u.isLt
  simp only [Reg.index, BitVec.toNat_ofNat]
  omega

theorem toNat_index_env (e : EnvIndex) (r : EnvReg) : (Reg.env e r).index.toNat = 0x200 + 0x8 * e.val + r.offset := by
  have := r.offset_lt
  have := e.isLt
  simp only [Reg.index, BitVec.toNat_ofNat]
  omega

@[simp] theorem regAt_index (r : Reg) : regAt r.index = some r := by
  cases r with
  | bq u q => fin_cases u <;> cases q <;> rfl
  | env e q => fin_cases e <;> cases q <;> rfl
  | vca q => cases q <;> rfl
  | opt q => cases q <;> rfl
  | knee q => cases q <;> rfl
  | _ => rfl

/-- An index lies in the page of the table that answers for it, at the offset the table was asked for. -/
theorem index_of_regAt {a : RegIndex} {r : Reg} (h : regAt a = some r) : r.index = a := by
  apply BitVec.eq_of_toNat_eq
  simp only [regAt] at h
  split at h
  next hpage => rw [hostRegAt_index h]; omega
  next hpage =>
    split at h
    next hu =>
      obtain ⟨q, hq, rfl⟩ := Option.map_eq_some_iff.1 h
      rw [toNat_index_bq, bqRegAt_offset hq]
      simp only
      omega
    next => cases h
  next hpage =>
    split at h
    next he =>
      obtain ⟨q, hq, rfl⟩ := Option.map_eq_some_iff.1 h
      rw [toNat_index_env, envRegAt_offset hq]
      simp only
      omega
    next => cases h
  next hpage => rw [paramRegAt_index h]; omega
  next => cases h

/-! ## The gaps -/

theorem hostRegAt_eq_none_iff (n : ℕ) :
    hostRegAt n = none ↔ (0x05 ≤ n ∧ n ≤ 0x07) ∨ (0x0E ≤ n ∧ n ≤ 0x0F) ∨ 0x14 ≤ n := by
  unfold hostRegAt
  split
  case h_16 => simp only [imp_false, true_iff] at *; omega
  all_goals simp

theorem paramRegAt_eq_none_iff (n : ℕ) :
    paramRegAt n = none ↔ (0x04 ≤ n ∧ n ≤ 0x0F) ∨ (0x16 ≤ n ∧ n ≤ 0x1F) ∨ 0x24 ≤ n := by
  unfold paramRegAt
  split
  case h_15 => simp only [imp_false, true_iff] at *; omega
  all_goals simp

theorem bqRegAt_eq_none_iff (n : ℕ) : bqRegAt n = none ↔ 0xB ≤ n := by
  unfold bqRegAt
  split
  case h_12 => simp only [imp_false, true_iff] at *; omega
  all_goals simp

theorem envRegAt_eq_none_iff (n : ℕ) : envRegAt n = none ↔ 0x4 ≤ n := by
  unfold envRegAt
  split
  case h_5 => simp only [imp_false, true_iff] at *; omega
  all_goals simp

theorem regAt_eq_none_iff (a : RegIndex) :
    regAt a = none ↔
      (a.toNat / 0x100 = 0 ∧ hostRegAt (a.toNat % 0x100) = none)
      ∨ (a.toNat / 0x100 = 1 ∧ (4 ≤ a.toNat % 0x100 / 0x10 ∨ bqRegAt (a.toNat % 0x100 % 0x10) = none))
      ∨ (a.toNat / 0x100 = 2 ∧ (6 ≤ a.toNat % 0x100 / 0x8 ∨ envRegAt (a.toNat % 0x100 % 0x8) = none))
      ∨ (a.toNat / 0x100 = 3 ∧ paramRegAt (a.toNat % 0x100) = none)
      ∨ 4 ≤ a.toNat / 0x100 := by
  simp only [regAt]
  split
  next hpage => simp [hpage]
  next hpage => split <;> simp [hpage] <;> omega
  next hpage => split <;> simp [hpage] <;> omega
  next hpage => simp [hpage]
  next =>
    simp only [imp_false, true_iff] at *
    omega

/-- The ends of the biquad slot blocks, slot by slot and by the offset in the block. -/
theorem exists_bq_gap_iff (n : ℕ) :
    (∃ u, u < 4 ∧ 0x10B + 0x10 * u ≤ n ∧ n ≤ 0x10F + 0x10 * u) ↔ 0x100 ≤ n ∧ n < 0x140 ∧ 0xB ≤ n % 0x10 := by
  constructor
  · rintro ⟨u, hu, hlo, hhi⟩
    omega
  · rintro ⟨hlo, hhi, hoffset⟩
    exact ⟨(n - 0x100) / 0x10, by omega, by omega, by omega⟩

/-- The ends of the smoother slot blocks, slot by slot and by the offset in the block. -/
theorem exists_env_gap_iff (n : ℕ) :
    (∃ e, e < 6 ∧ 0x204 + 0x8 * e ≤ n ∧ n ≤ 0x207 + 0x8 * e) ↔ 0x200 ≤ n ∧ n < 0x230 ∧ 0x4 ≤ n % 0x8 := by
  constructor
  · rintro ⟨e, he, hlo, hhi⟩
    omega
  · rintro ⟨hlo, hhi, hoffset⟩
    exact ⟨(n - 0x200) / 0x8, by omega, by omega, by omega⟩

/-! ## The whole state through the register map -/

@[simp] theorem peek_index (s : State) (r : Reg) : s.peek r.index = s.reg r := by
  simp [State.peek]

theorem BqSlot.eq_of_reg {x y : BqSlot} (h : ∀ r, x.reg r = y.reg r) : x = y := by
  cases x
  cases y
  simp only [BqSlot.mk.injEq]
  exact ⟨h .b0, h .b1, h .b2, h .a1, h .a2, h .x1, h .x2, h .y1, h .y2, h .ctl⟩

theorem EnvSlot.eq_of_reg {x y : EnvSlot} (h : ∀ r, x.reg r = y.reg r) : x = y := by
  cases x
  cases y
  simp only [EnvSlot.mk.injEq]
  exact ⟨h .aatt, h .arel, h .prev, h .ctl⟩

theorem VcaRegs.eq_of_reg {x y : VcaRegs} (h : ∀ r, x.reg r = y.reg r) : x = y := by
  cases x
  cases y
  simp only [VcaRegs.mk.injEq]
  exact ⟨h .th, h .ratio, h .mkup, h .ctl⟩

theorem OptRegs.eq_of_reg {x y : OptRegs} (h : ∀ r, x.reg r = y.reg r) : x = y := by
  cases x
  cases y
  simp only [OptRegs.mk.injEq]
  exact ⟨h .th, h .ratio, h .mkup, h .tlin, h .mklin, h .ctl⟩

theorem KneeRegs.eq_of_reg {x y : KneeRegs} (h : ∀ r, x.reg r = y.reg r) : x = y := by
  cases x
  cases y
  simp only [KneeRegs.mk.injEq]
  exact ⟨h .th, h .range, h .red, h .ctl⟩

theorem BqBank.eq_of_get {x y : BqBank} (h : ∀ u, x.get u = y.get u) : x = y := by
  cases x
  cases y
  simp only [BqBank.mk.injEq]
  exact ⟨h 0, h 1, h 2, h 3⟩

theorem EnvBank.eq_of_get {x y : EnvBank} (h : ∀ e, x.get e = y.get e) : x = y := by
  cases x
  cases y
  simp only [EnvBank.mk.injEq]
  exact ⟨h 0, h 1, h 2, h 3, h 4, h 5⟩

/-- The registers and the host's side are all there is of a state. -/
theorem State.eq_of_reg {s t : State} (h : ∀ r, s.reg r = t.reg r) (hpending : s.pending = t.pending)
    (hreads : s.reads = t.reads) : s = t := by
  have hbq : s.bq = t.bq := BqBank.eq_of_get fun u => BqSlot.eq_of_reg fun r => h (.bq u r)
  have henv : s.env = t.env := EnvBank.eq_of_get fun e => EnvSlot.eq_of_reg fun r => h (.env e r)
  have hvca : s.vca = t.vca := VcaRegs.eq_of_reg fun r => h (.vca r)
  have hopt : s.opt = t.opt := OptRegs.eq_of_reg fun r => h (.opt r)
  have hknee : s.knee = t.knee := KneeRegs.eq_of_reg fun r => h (.knee r)
  cases s
  cases t
  simp only [State.mk.injEq]
  exact ⟨h .status, h .errcmd, h .fs, h .op0, h .op1, h .op2, h .op3, h .op4, h .op5, h .res0, h .res1, h .res2,
    h .res3, hbq, henv, hvca, hopt, hknee, hpending, hreads⟩

end Sys2Proof.Machine

open Sys2Proof.Machine

/-- Settles O41: the indices by evaluation, the two directions of the map by its tables, and the gaps as the tables
leave them. -/
theorem registerMapHasExactlyTheListedGaps : Obligations.RegisterMapHasExactlyTheListedGaps := by
  refine ⟨⟨rfl, by decide, by decide, rfl⟩, regAt_index, fun _ _ => index_of_regAt, fun a => ?_⟩
  rw [exists_bq_gap_iff, exists_env_gap_iff, regAt_eq_none_iff, hostRegAt_eq_none_iff, bqRegAt_eq_none_iff,
    envRegAt_eq_none_iff, paramRegAt_eq_none_iff]
  omega

/-- Settles O42: every register is read at its own index, and a state is its registers and its host side. -/
theorem hostReadsShowTheWholeState : Obligations.HostReadsShowTheWholeState := by
  intro s t hpeek
  exact State.eq_of_reg fun r => by simpa using hpeek r.index
end

section
/-! The decoder read backwards: a word that decodes has the fields of its command and is its encoding (R90 to R95,
R100). -/

namespace Sys2Proof.Machine

theorem eq_of_decodeUnitless {i j : Instr} {unit kind : BitVec 4} (h : decodeUnitless i unit kind = .instr j) :
    j = i ∧ unit = 0 ∧ kind = 0 := by
  unfold decodeUnitless at h
  split_ifs at h with hunit hkind
  cases h
  exact ⟨rfl, not_not.1 hunit, not_not.1 hkind⟩

theorem eq_of_decodeBqSlot {f : BqIndex → Instr} {j : Instr} {unit kind : BitVec 4}
    (h : decodeBqSlot f unit kind = .instr j) : ∃ u : BqIndex, j = f u ∧ unit = BitVec.ofNat 4 u.val ∧ kind = 0 := by
  unfold decodeBqSlot at h
  split_ifs at h with hunit hkind
  cases h
  exact ⟨_, rfl, by simp, not_not.1 hkind⟩

theorem eq_of_decodeEnvSlot {f : EnvIndex → Instr} {j : Instr} {unit kind : BitVec 4}
    (h : decodeEnvSlot f unit kind = .instr j) : ∃ e : EnvIndex, j = f e ∧ unit = BitVec.ofNat 4 e.val ∧ kind = 0 := by
  unfold decodeEnvSlot at h
  split_ifs at h with hunit hkind
  cases h
  exact ⟨_, rfl, by simp, not_not.1 hkind⟩

theorem kindCode_of_kindOfCode {c : BitVec 4} {k : FilterKind} (h : kindOfCode c = some k) : kindCode k = c := by
  revert c k
  decide

theorem eq_of_decodeBqdsn {j : Instr} {unit kind : BitVec 4} (h : decodeBqdsn unit kind = .instr j) :
    ∃ (u : BqIndex) (k : FilterKind), j = .bqdsn u k ∧ unit = BitVec.ofNat 4 u.val ∧ kind = kindCode k := by
  unfold decodeBqdsn at h
  split_ifs at h with hunit
  split at h
  next k hk =>
    cases h
    exact ⟨_, k, rfl, by simp, (kindCode_of_kindOfCode hk).symm⟩
  next => cases h

theorem fields_of_decodeOpc {opc : BitVec 8} {unit kind : BitVec 4} {i : Instr}
    (h : decodeOpc opc unit kind = .instr i) : opc = opcOf i ∧ unit = unitOf i ∧ kind = kindFieldOf i := by
  unfold decodeOpc at h
  split at h
  case h_5 _ hopc =>
    obtain ⟨u, k, rfl, hunit, hkind⟩ := eq_of_decodeBqdsn h
    exact ⟨BitVec.eq_of_toNat_eq hopc, hunit, hkind⟩
  case h_6 _ hopc | h_7 _ hopc | h_8 _ hopc =>
    obtain ⟨u, rfl, hunit, hkind⟩ := eq_of_decodeBqSlot h
    exact ⟨BitVec.eq_of_toNat_eq hopc, hunit, hkind⟩
  case h_9 _ hopc | h_10 _ hopc | h_11 _ hopc | h_12 _ hopc =>
    obtain ⟨e, rfl, hunit, hkind⟩ := eq_of_decodeEnvSlot h
    exact ⟨BitVec.eq_of_toNat_eq hopc, hunit, hkind⟩
  case h_20 => cases h
  all_goals
    rename_i hopc
    obtain ⟨rfl, hunit, hkind⟩ := eq_of_decodeUnitless h
    exact ⟨BitVec.eq_of_toNat_eq hopc, hunit, hkind⟩

theorem fieldsOf_injective : Function.Injective fieldsOf := by
  intro v w h
  simp only [fieldsOf, CommandFields.mk.injEq, ← BitVec.toNat_inj, BitVec.extractLsb'_toNat,
    Nat.shiftRight_eq_div_pow] at h
  apply BitVec.eq_of_toNat_eq
  omega

/-- A word that decodes is the encoding of its command (R90, R95). -/
theorem eq_encode_of_decode {w : Word} {i : Instr} (h : decode w = .instr i) : w = encode i := by
  unfold decode at h
  split_ifs at h with hreserved
  obtain ⟨hupper, hlower⟩ := not_or.1 hreserved
  obtain ⟨hopc, hunit, hkind⟩ := fields_of_decodeOpc h
  apply fieldsOf_injective
  rw [encode, Laws.fieldsOf_commandWord, ← hopc, ← hunit, ← hkind, fieldsOf, not_not.1 hupper, not_not.1 hlower]

end Sys2Proof.Machine
end

section
/-! Legal registers (R35 to R37, R41, R44, R49, R50): what keeps the latch legal, and that a command which only clears
VALID bits and writes registers without a condition keeps every unit legal. -/

namespace Sys2Proof.Machine

open Sys2Proof.Safety

/-! ## STATUS -/

theorem extractLsb'_congr {v w : Word} {start len : ℕ}
    (h : ∀ i, start ≤ i → i < start + len → v.getLsbD i = w.getLsbD i) :
    v.extractLsb' start len = w.extractLsb' start len := by
  apply BitVec.eq_of_getLsbD_eq
  intro i hi
  simp [hi, h (start + i) (by omega) (by omega)]

/-- The latch stays legal where NF alone differs, and where OVF does while ERR is set. -/
theorem statusLegal_of_bits {v w errcmd : Word} (hbits : ∀ i, i ≠ 1 → i ≠ 2 → v.getLsbD i = w.getLsbD i)
    (hovf : statusErr w = true ∨ statusOvf v = statusOvf w) (h : statusLegal w errcmd = true) :
    statusLegal v errcmd = true := by
  have herr : statusErr v = statusErr w := hbits 0 (by decide) (by decide)
  have hfield : ∀ start len, 3 ≤ start → v.extractLsb' start len = w.extractLsb' start len := fun start len hstart =>
    extractLsb'_congr fun i hi _ => hbits i (by omega) (by omega)
  rw [statusLegal, statusCode] at h ⊢
  rw [hfield 16 48 (by decide), hfield 3 5 (by decide), hfield 8 8 (by decide), herr]
  rcases hovf with hset | hsame
  · simpa [hset] using h
  · rwa [hsame]

theorem statusLegal_afterResults {status errcmd : Word} (vs : List Word) (h : statusLegal status errcmd = true) :
    statusLegal (statusAfterResults status vs) errcmd = true := by
  rw [statusAfterResults]
  split
  · have hbit := getLsbD_statusWithNf status
    exact statusLegal_of_bits (fun i _ h2 => by simp only [hbit, h2, decide_false, Bool.or_false])
      (.inr ((hbit 1).trans (Bool.or_false _))) h
  · exact h

theorem statusLegal_withError {status errcmd : Word} (e : ErrorCode) (info : Word)
    (h : statusLegal status errcmd = true) : statusLegal (statusWithError status (codeOf e)) info = true := by
  have hcode : 1 ≤ (codeOf e).toNat ∧ (codeOf e).toNat ≤ 5 := by cases e <;> decide
  have hfield : ∀ start len, 1 ≤ start → start + len ≤ 8 ∨ 16 ≤ start →
      (statusWithError status (codeOf e)).extractLsb' start len = status.extractLsb' start len :=
    fun start len h1 h2 => extractLsb'_congr fun i hi _ => by
      rw [getLsbD_statusWithError, if_neg (by omega), if_neg (by omega)]
  simp only [statusLegal, Bool.and_eq_true] at h ⊢
  rw [hfield 16 48 (by decide) (by decide), hfield 3 5 (by decide) (by decide)]
  exact ⟨h.1, by simpa using hcode⟩

/-- An error keeps the latch legal: the first one fills it, a later one only sets OVF (R244, R245). -/
theorem statusLegal_afterError {status errcmd : Word} (e : ErrorCode) (info : Word)
    (h : statusLegal status errcmd = true) :
    statusLegal (statusAfterError status (codeOf e)) (errcmdAfterError status errcmd info) = true := by
  rw [statusAfterError, errcmdAfterError]
  split
  next herr =>
    exact statusLegal_of_bits (fun i h1 _ => by simp only [getLsbD_statusWithOvf, h1, decide_false, Bool.or_false])
      (.inl herr) h
  next => exact statusLegal_withError e info h

/-! ## The registers that carry a condition -/

/-- What `RegistersLegal` asks of a register: nothing of operands, results, taps and PREV (R50) and of what stores
nothing, the latch's rules of STATUS and ERRCMD, a CTL's own fields, and of the rest the range of a parameter. -/
inductive Condition where
  | free
  | latch
  | ctl
  | parameter

/-- The condition on each register (R35, R37, R41, R44 to R50). -/
def conditionOn : Reg → Condition
  | .cmd | .id | .op0 | .op1 | .op2 | .op3 | .op4 | .op5 | .res0 | .res1 | .res2 | .res3 => .free
  | .bq _ .a0 | .bq _ .x1 | .bq _ .x2 | .bq _ .y1 | .bq _ .y2 | .env _ .prev => .free
  | .status | .errcmd => .latch
  | .bq _ .ctl | .env _ .ctl | .vca .ctl | .opt .ctl | .knee .ctl => .ctl
  | .fs | .bq _ _ | .env _ _ | .vca _ | .opt _ | .knee _ => .parameter

theorem conditionOn_of_readWrite {r : Reg} (h : r.access = .readWrite) : conditionOn r = .free := by
  revert h
  cases r with
  | bq u q => cases q <;> simp [Reg.access, conditionOn]
  | env e q => cases q <;> simp [Reg.access, conditionOn]
  | _ => simp [Reg.access, conditionOn]

theorem conditionOn_validBitsOf {i : Instr} {c : Reg} (h : c ∈ validBitsOf i) : conditionOn c = .ctl := by
  have hall : ∀ c ∈ validBitsOf i, conditionOn c = .ctl := by cases i <;> simp [validBitsOf, conditionOn]
  exact hall c h

/-- The parameters are as before, and so is each CTL but for a cleared VALID bit (R246). -/
def KeepsOrInvalidates (s t : State) : Prop :=
  (∀ r, conditionOn r = .parameter → t.reg r = s.reg r)
    ∧ ∀ c, conditionOn c = .ctl → t.reg c = s.reg c ∨ t.reg c = ctlInvalidated (s.reg c)

theorem keepsOrInvalidates_of_unchanged {s t : State} {rs : List Reg} (h : Unchanged s t rs)
    (hrs : ∀ r ∈ rs, conditionOn r = .free) : KeepsOrInvalidates s t := by
  have hkept : ∀ r, conditionOn r ≠ .free → t.reg r = s.reg r := fun r hr => h.1 r fun hm => hr (hrs r hm)
  exact ⟨fun r hr => hkept r (by simp [hr]), fun c hc => .inl (hkept c (by simp [hc]))⟩

theorem keepsOrInvalidates_of_failed {i : Instr} {e : ErrorCode} {s t : State} (h : Failed i e s t) :
    KeepsOrInvalidates s t := by
  obtain ⟨-, hvalid, hframe, -⟩ := h
  have hkept : ∀ r, conditionOn r ≠ .latch → r ∉ validBitsOf i → t.reg r = s.reg r := fun r hlatch hm => by
    refine hframe r ?_
    simp only [List.mem_cons, not_or]
    exact ⟨fun hr => hlatch (hr ▸ rfl), fun hr => hlatch (hr ▸ rfl), hm⟩
  refine ⟨fun r hr => hkept r (by simp [hr]) fun hm => ?_, fun c hc => ?_⟩
  · cases hr.symm.trans (conditionOn_validBitsOf hm)
  · by_cases hm : c ∈ validBitsOf i
    · exact .inr (hvalid c hm)
    · exact .inl (hkept c (by simp [hc]) hm)

/-! ## Units with their parameters kept -/

theorem extractLsb'_ctlInvalidated (w : Word) {start len : ℕ} (h : 1 ≤ start) :
    (ctlInvalidated w).extractLsb' start len = w.extractLsb' start len :=
  extractLsb'_congr fun i hi _ => by simp [getLsbD_ctlInvalidated, show i ≠ 0 by omega]

/-- The condition on a unit without KIND: CTL's reserved bits are 0, and its parameters count where VALID is set. -/
theorem unitLegal_of_kept {ctl ctl' : Word} {params : Bool} (hctl : ctl' = ctl ∨ ctl' = ctlInvalidated ctl)
    (h : (ctlLegal ctl && (!ctlValid ctl || params)) = true) :
    (ctlLegal ctl' && (!ctlValid ctl' || params)) = true := by
  rcases hctl with rfl | rfl
  · exact h
  · rw [Bool.and_eq_true] at h
    simpa [ctlLegal, extractLsb'_ctlInvalidated] using h.1

theorem bqLegal_of_kept {x y : BqSlot} (hparams : [y.b0, y.b1, y.b2, y.a1, y.a2] = [x.b0, x.b1, x.b2, x.a1, x.a2])
    (hctl : y.ctl = x.ctl ∨ y.ctl = ctlInvalidated x.ctl) (h : bqLegal x = true) : bqLegal y = true := by
  rw [bqLegal] at h ⊢
  rw [hparams]
  rcases hctl with hc | hc
  · rwa [hc]
  · rw [hc, extractLsb'_ctlInvalidated _ (by decide), extractLsb'_ctlInvalidated _ (by decide)]
    simp only [Bool.and_eq_true] at h
    simpa using h.1

/-- Legal registers stay legal where only the latch, VALID bits and registers without a condition change. -/
theorem registersLegal_of_keepsOrInvalidates {s t : State} (h : KeepsOrInvalidates s t)
    (hstatus : statusLegal t.status t.errcmd = true) (hs : RegistersLegal s) : RegistersLegal t := by
  obtain ⟨hparam, hctl⟩ := h
  obtain ⟨-, hfs, hbq, henv, hvca, hopt, hknee⟩ := hs
  have hfs' : t.fs = s.fs := hparam .fs rfl
  refine ⟨hstatus, by rwa [hfs'], fun u => ?_, fun e => ?_, ?_, ?_, ?_⟩
  · refine bqLegal_of_kept ?_ (hctl (.bq u .ctl) rfl) (hbq u)
    exact List.map_congr_left (l := [BqReg.b0, .b1, .b2, .a1, .a2]) (f := (t.bq.get u).reg) (g := (s.bq.get u).reg)
      fun r hr => hparam (.bq u r) (by fin_cases hr <;> rfl)
  · have haatt : (t.env.get e).aatt = (s.env.get e).aatt := hparam (.env e .aatt) rfl
    have harel : (t.env.get e).arel = (s.env.get e).arel := hparam (.env e .arel) rfl
    rw [envLegal, haatt, harel]
    exact unitLegal_of_kept (hctl (.env e .ctl) rfl) (henv e)
  · have hth : t.vca.th = s.vca.th := hparam (.vca .th) rfl
    have hratio : t.vca.ratio = s.vca.ratio := hparam (.vca .ratio) rfl
    have hmkup : t.vca.mkup = s.vca.mkup := hparam (.vca .mkup) rfl
    rw [vcaLegal, hth, hratio, hmkup]
    exact unitLegal_of_kept (hctl (.vca .ctl) rfl) hvca
  · have hth : t.opt.th = s.opt.th := hparam (.opt .th) rfl
    have hratio : t.opt.ratio = s.opt.ratio := hparam (.opt .ratio) rfl
    have hmkup : t.opt.mkup = s.opt.mkup := hparam (.opt .mkup) rfl
    have htlin : t.opt.tlin = s.opt.tlin := hparam (.opt .tlin) rfl
    have hmklin : t.opt.mklin = s.opt.mklin := hparam (.opt .mklin) rfl
    rw [optLegal, hth, hratio, hmkup, htlin, hmklin]
    exact unitLegal_of_kept (hctl (.opt .ctl) rfl) hopt
  · have hth : t.knee.th = s.knee.th := hparam (.knee .th) rfl
    have hrange : t.knee.range = s.knee.range := hparam (.knee .range) rfl
    have hred : t.knee.red = s.knee.red := hparam (.knee .red) rfl
    rw [kneeLegal, hth, hrange, hred]
    exact unitLegal_of_kept (hctl (.knee .ctl) rfl) hknee

theorem registersLegal_of_failed {i : Instr} {e : ErrorCode} {s t : State} (h : Failed i e s t)
    (hs : RegistersLegal s) : RegistersLegal t := by
  obtain ⟨hstatus, herrcmd⟩ := errorRecorded_iff.1 h.1
  refine registersLegal_of_keepsOrInvalidates (keepsOrInvalidates_of_failed h) ?_ hs
  rw [hstatus, herrcmd]
  exact statusLegal_afterError e _ hs.1

theorem registersLegal_of_commandError {i : Instr} {e : ErrorCode} {s t : State} (h : RegistersLegal s)
    (ht : commandError i e s = .next t) : RegistersLegal t := by
  obtain ⟨t', ht', hfailed⟩ := commandError_failed i e s
  cases ht'.symm.trans ht
  exact registersLegal_of_failed hfailed h

theorem registersLegal_raise {s : State} (e : ErrorCode) (info : Word) (h : RegistersLegal s) :
    RegistersLegal (raise e info s) := ⟨statusLegal_afterError e info h.1, h.2⟩

theorem latch_commit_free {ws : List (Reg × Word)} (s : State) (hws : ∀ r ∈ ws.map Prod.fst, conditionOn r = .free) :
    (commit ws s).status = s.status ∧ (commit ws s).errcmd = s.errcmd := by
  have hframe := (unchanged_commit ws s).1
  exact ⟨hframe .status (fun hm => by cases hws _ hm), hframe .errcmd (fun hm => by cases hws _ hm)⟩

theorem registersLegal_commit_free {ws : List (Reg × Word)} {s : State}
    (hws : ∀ r ∈ ws.map Prod.fst, conditionOn r = .free) (h : RegistersLegal s) : RegistersLegal (commit ws s) := by
  obtain ⟨hstatus, herrcmd⟩ := latch_commit_free s hws
  refine registersLegal_of_keepsOrInvalidates (keepsOrInvalidates_of_unchanged (unchanged_commit ws s) hws) ?_ h
  rw [hstatus, herrcmd]
  exact h.1

theorem registersLegal_commitResults {ws : List (Reg × Word)} {s : State}
    (hws : ∀ r ∈ ws.map Prod.fst, conditionOn r = .free) (h : RegistersLegal s) :
    RegistersLegal (commitResults ws s) := by
  obtain ⟨-, hrest⟩ := registersLegal_commit_free hws h
  refine ⟨?_, hrest⟩
  rw [commitResults, (latch_commit_free s hws).2]
  exact statusLegal_afterResults _ h.1

end Sys2Proof.Machine
end

section
/-! The configuration commands: what one that completes has checked and writes, so that its VALID bits are 1 and its
units are legal (R45, R246, R49, R50). -/

namespace Sys2Proof.Machine

open Sys2Proof.Safety

/-! ## What a configuration writes -/

/-- The writes of BQDSN and BQLD (R125, R126). -/
def coeffWrites (u : BqIndex) (n : NormCoeffs) (code : BitVec 4) : List (Reg × Word) :=
  [(.bq u .b0, n.n0), (.bq u .b1, n.n1), (.bq u .b2, n.n2), (.bq u .a1, n.m1), (.bq u .a2, n.m2),
    (.bq u .ctl, bqCtlConfigured code)]

/-- The writes of VCACFG, those to its smoother apart (R176). -/
def vcaWrites (th r mk : Word) : List (Reg × Word) :=
  [(.vca .th, th), (.vca .ratio, r), (.vca .mkup, mk), (.vca .ctl, ctlConfigured)]

/-- The writes of OPTCFG, those to its smoother apart (R186). -/
def optWrites (th r mk tl ml : Word) : List (Reg × Word) :=
  [(.opt .th, th), (.opt .ratio, r), (.opt .mkup, mk), (.opt .tlin, tl), (.opt .mklin, ml), (.opt .ctl, ctlConfigured)]

/-- The writes of KNCFG (R205). -/
def kneeWrites (th rg red : Word) : List (Reg × Word) :=
  [(.knee .th, th), (.knee .range, rg), (.knee .red, red), (.knee .ctl, ctlConfigured)]

/-- The writes a configuration command can commit, with the checks their values have passed. -/
inductive Configures : List (Reg × Word) → Prop
  | biquad {u : BqIndex} {n : NormCoeffs} {code : BitVec 4} (hkind : code.toNat ≤ 5 ∨ code = 15)
      (hfinite : allFinite [n.n0, n.n1, n.n2, n.m1, n.m2] = true) : Configures (coeffWrites u n code)
  | smoother {e : EnvIndex} {aa ar : Word} (haa : legalCoefficient aa = true) (har : legalCoefficient ar = true) :
      Configures (envWrites e aa ar)
  | vca {th r ta tr mk aa ar : Word} (hparams : legalDynamics th r ta tr mk = true) (haa : legalCoefficient aa = true)
      (har : legalCoefficient ar = true) : Configures (vcaWrites th r mk ++ envWrites 4 aa ar)
  | optical {th r ta tr mk tl ml aa ar : Word} (hparams : legalDynamics th r ta tr mk = true)
      (htl : finiteNonNegative tl = true) (hml : finiteNonNegative ml = true) (haa : legalCoefficient aa = true)
      (har : legalCoefficient ar = true) : Configures (optWrites th r mk tl ml ++ envWrites 5 aa ar)
  | knee {th rg red : Word} (hparams : legalKnee th rg red = true) : Configures (kneeWrites th rg red)

theorem kindCode_le (kind : FilterKind) : (kindCode kind).toNat ≤ 5 := by cases kind <;> decide

theorem allFinite_of_legalQuotients {a0 : Word} {n : NormCoeffs} (h : legalQuotients a0 n = true) :
    allFinite [n.n0, n.n1, n.n2, n.m1, n.m2] = true := by
  rw [legalQuotients, Bool.and_eq_true] at h
  exact h.2

/-- Everything a configuration command can do: fail with NotConfigured or InvalidParameter, or commit checked values
to its registers. -/
theorem exec_configuration_cases {i : Instr} (s : State) (hi : isConfiguration i = true) :
    (∃ e, (e = .notConfigured ∨ e = .invalidParameter) ∧ exec i s = commandError i e s)
    ∨ ∃ ws, exec i s = .next (commit ws s) ∧ ws.map Prod.fst = writtenBy i ∧ Configures ws := by
  cases i with
  | bqdsn u kind =>
    simp only [exec, execBqdsn]
    split_ifs with hfs hops hquot
    · exact .inl ⟨_, .inl rfl, rfl⟩
    · exact .inl ⟨_, .inr rfl, rfl⟩
    · exact .inl ⟨_, .inr rfl, rfl⟩
    · simp only [Bool.not_eq_true', Bool.not_eq_false] at hquot
      exact .inr ⟨_, rfl, rfl, .biquad (.inl (kindCode_le kind)) (allFinite_of_legalQuotients hquot)⟩
  | bqld u =>
    simp only [exec, execBqld]
    split_ifs with hops hquot
    · exact .inl ⟨_, .inr rfl, rfl⟩
    · exact .inl ⟨_, .inr rfl, rfl⟩
    · simp only [Bool.not_eq_true', Bool.not_eq_false] at hquot
      exact .inr ⟨_, rfl, rfl, .biquad (.inr rfl) (allFinite_of_legalQuotients hquot)⟩
  | envcfg e =>
    simp only [exec, execEnvcfg]
    split_ifs with hfs htimes hcoefs
    · exact .inl ⟨_, .inl rfl, rfl⟩
    · exact .inl ⟨_, .inr rfl, rfl⟩
    · exact .inl ⟨_, .inr rfl, rfl⟩
    · simp only [Bool.or_eq_true, not_or, Bool.not_eq_true', Bool.not_eq_false] at hcoefs
      exact .inr ⟨_, rfl, rfl, .smoother hcoefs.1 hcoefs.2⟩
  | envld e =>
    simp only [exec, execEnvld]
    split_ifs with hcoefs
    · exact .inl ⟨_, .inr rfl, rfl⟩
    · simp only [Bool.or_eq_true, not_or, Bool.not_eq_true', Bool.not_eq_false] at hcoefs
      exact .inr ⟨_, rfl, rfl, .smoother hcoefs.1 hcoefs.2⟩
  | vcacfg =>
    simp only [exec, execVcacfg]
    split_ifs with hfs hparams hcoefs
    · exact .inl ⟨_, .inl rfl, rfl⟩
    · exact .inl ⟨_, .inr rfl, rfl⟩
    · exact .inl ⟨_, .inr rfl, rfl⟩
    · simp only [Bool.or_eq_true, not_or, Bool.not_eq_true', Bool.not_eq_false] at hparams hcoefs
      exact .inr ⟨_, rfl, rfl, .vca hparams hcoefs.1 hcoefs.2⟩
  | optcfg =>
    simp only [exec, execOptcfg]
    split_ifs with hfs hparams hlinear hcoefs
    · exact .inl ⟨_, .inl rfl, rfl⟩
    · exact .inl ⟨_, .inr rfl, rfl⟩
    · exact .inl ⟨_, .inr rfl, rfl⟩
    · exact .inl ⟨_, .inr rfl, rfl⟩
    · simp only [Bool.or_eq_true, not_or, Bool.not_eq_true', Bool.not_eq_false] at hparams hlinear hcoefs
      exact .inr ⟨_, rfl, rfl, .optical hparams hlinear.1 hlinear.2 hcoefs.1 hcoefs.2⟩
  | kncfg =>
    simp only [exec, execKncfg]
    split_ifs with hparams
    · exact .inl ⟨_, .inr rfl, rfl⟩
    · simp only [Bool.not_eq_true', Bool.not_eq_false] at hparams
      exact .inr ⟨_, rfl, rfl, .knee hparams⟩
  | _ => cases hi

/-! ## VALID after a configuration -/

theorem validBitsOf_subset_writtenBy (i : Instr) : validBitsOf i ⊆ writtenBy i := by
  cases i <;> simp [validBitsOf, writtenBy]

/-- Every CTL a configuration writes has VALID set (R45). -/
theorem ctlValid_of_configures {ws : List (Reg × Word)} (h : Configures ws) :
    ∀ w ∈ ws, conditionOn w.1 = .ctl → ctlValid w.2 = true := by
  cases h <;> simp [coeffWrites, envWrites, vcaWrites, optWrites, kneeWrites, conditionOn]

theorem ctlValid_commit_of_configures {i : Instr} {ws : List (Reg × Word)} (s : State)
    (hw : ws.map Prod.fst = writtenBy i) (h : Configures ws) :
    ∀ c ∈ validBitsOf i, ctlValid ((commit ws s).reg c) = true := by
  intro c hc
  have hmem : c ∈ ws.map Prod.fst := hw ▸ validBitsOf_subset_writtenBy i hc
  obtain ⟨⟨r, v⟩, hws, rfl⟩ := List.mem_map.1 hmem
  rw [reg_commit_of_mem hws (hw ▸ writtenBy_nodup i) (writtenBy_stored (hw ▸ hmem))]
  exact ctlValid_of_configures h _ hws (conditionOn_validBitsOf hc)

/-! ## Legal registers after a configuration -/

theorem bqCtlConfigured_fields (code : BitVec 4) : (bqCtlConfigured code).extractLsb' 8 56 = 0
    ∧ (bqCtlConfigured code).extractLsb' 1 3 = 0 ∧ ctlKind (bqCtlConfigured code) = code := by
  revert code
  decide

theorem BqBank.set_set (b : BqBank) (u : BqIndex) (x y : BqSlot) : (b.set u x).set u y = b.set u y := by
  fin_cases u <;> rfl

theorem EnvBank.set_set (b : EnvBank) (e : EnvIndex) (x y : EnvSlot) : (b.set e x).set e y = b.set e y := by
  fin_cases e <;> rfl

theorem commit_coeffWrites (u : BqIndex) (n : NormCoeffs) (code : BitVec 4) (s : State) :
    commit (coeffWrites u n code) s = { s with bq := s.bq.set u { s.bq.get u with
      b0 := n.n0, b1 := n.n1, b2 := n.n2, a1 := n.m1, a2 := n.m2, ctl := bqCtlConfigured code } } := by
  simp only [coeffWrites, commit_cons, commit_nil, State.setReg, BqBank.get_set, BqBank.set_set, if_true, BqSlot.setReg]

theorem commit_envWrites (e : EnvIndex) (aa ar : Word) (s : State) :
    commit (envWrites e aa ar) s = { s with env := s.env.set e { s.env.get e with
      aatt := aa, arel := ar, ctl := ctlConfigured } } := by
  simp only [envWrites, commit_cons, commit_nil, State.setReg, EnvBank.get_set, EnvBank.set_set, if_true,
    EnvSlot.setReg]

theorem commit_vcaWrites (th r mk : Word) (s : State) :
    commit (vcaWrites th r mk) s = { s with vca := ⟨th, r, mk, ctlConfigured⟩ } := by
  simp only [vcaWrites, commit_cons, commit_nil, State.setReg, VcaRegs.setReg]

theorem commit_optWrites (th r mk tl ml : Word) (s : State) :
    commit (optWrites th r mk tl ml) s = { s with opt := ⟨th, r, mk, tl, ml, ctlConfigured⟩ } := by
  simp only [optWrites, commit_cons, commit_nil, State.setReg, OptRegs.setReg]

theorem commit_kneeWrites (th rg red : Word) (s : State) :
    commit (kneeWrites th rg red) s = { s with knee := ⟨th, rg, red, ctlConfigured⟩ } := by
  simp only [kneeWrites, commit_cons, commit_nil, State.setReg, KneeRegs.setReg]

theorem registersLegal_commit_coeffWrites {s : State} {u : BqIndex} {n : NormCoeffs} {code : BitVec 4}
    (hkind : code.toNat ≤ 5 ∨ code = 15) (hfinite : allFinite [n.n0, n.n1, n.n2, n.m1, n.m2] = true)
    (h : RegistersLegal s) : RegistersLegal (commit (coeffWrites u n code) s) := by
  obtain ⟨hstatus, hfs, hbq, hrest⟩ := h
  rw [commit_coeffWrites]
  refine ⟨hstatus, hfs, fun v => ?_, hrest⟩
  rw [BqBank.get_set]
  split
  · obtain ⟨hhigh, hlow, hcode⟩ := bqCtlConfigured_fields code
    simp only [bqLegal, hhigh, hlow, hcode, hfinite]
    simpa using hkind
  · exact hbq v

theorem registersLegal_commit_envWrites {s : State} {e : EnvIndex} {aa ar : Word} (haa : legalCoefficient aa = true)
    (har : legalCoefficient ar = true) (h : RegistersLegal s) : RegistersLegal (commit (envWrites e aa ar) s) := by
  obtain ⟨hstatus, hfs, hbq, henv, hrest⟩ := h
  rw [commit_envWrites]
  refine ⟨hstatus, hfs, hbq, fun f => ?_, hrest⟩
  rw [EnvBank.get_set]
  split
  · simp [envLegal, ctlLegal, ctlConfigured, haa, har]
  · exact henv f

theorem registersLegal_commit_vcaWrites {s : State} {th r ta tr mk : Word}
    (hparams : legalDynamics th r ta tr mk = true) (h : RegistersLegal s) :
    RegistersLegal (commit (vcaWrites th r mk) s) := by
  obtain ⟨hstatus, hfs, hbq, henv, -, hrest⟩ := h
  rw [commit_vcaWrites]
  refine ⟨hstatus, hfs, hbq, henv, ?_, hrest⟩
  simp only [legalDynamics, Bool.and_eq_true] at hparams
  obtain ⟨⟨⟨⟨hth, hr⟩, -⟩, -⟩, hmk⟩ := hparams
  simp [vcaLegal, ctlLegal, ctlConfigured, hth, hr, hmk]

theorem registersLegal_commit_optWrites {s : State} {th r ta tr mk tl ml : Word}
    (hparams : legalDynamics th r ta tr mk = true) (htl : finiteNonNegative tl = true)
    (hml : finiteNonNegative ml = true) (h : RegistersLegal s) :
    RegistersLegal (commit (optWrites th r mk tl ml) s) := by
  obtain ⟨hstatus, hfs, hbq, henv, hvca, -, hknee⟩ := h
  rw [commit_optWrites]
  refine ⟨hstatus, hfs, hbq, henv, hvca, ?_, hknee⟩
  simp only [legalDynamics, Bool.and_eq_true] at hparams
  obtain ⟨⟨⟨⟨hth, hr⟩, -⟩, -⟩, hmk⟩ := hparams
  simp [optLegal, ctlLegal, ctlConfigured, hth, hr, hmk, htl, hml]

theorem registersLegal_commit_kneeWrites {s : State} {th rg red : Word} (hparams : legalKnee th rg red = true)
    (h : RegistersLegal s) : RegistersLegal (commit (kneeWrites th rg red) s) := by
  obtain ⟨hstatus, hfs, hbq, henv, hvca, hopt, -⟩ := h
  rw [commit_kneeWrites]
  refine ⟨hstatus, hfs, hbq, henv, hvca, hopt, ?_⟩
  simp [kneeLegal, ctlLegal, ctlConfigured, hparams]

theorem commit_append (ws vs : List (Reg × Word)) (s : State) : commit (ws ++ vs) s = commit vs (commit ws s) :=
  List.foldl_append

/-- A configuration stores values that have passed its checks, so the units it configures are legal (R49, R50). -/
theorem registersLegal_of_configures {ws : List (Reg × Word)} {s : State} (hws : Configures ws)
    (h : RegistersLegal s) : RegistersLegal (commit ws s) := by
  cases hws with
  | biquad hkind hfinite => exact registersLegal_commit_coeffWrites hkind hfinite h
  | smoother haa har => exact registersLegal_commit_envWrites haa har h
  | vca hparams haa har =>
    rw [commit_append]
    exact registersLegal_commit_envWrites haa har (registersLegal_commit_vcaWrites hparams h)
  | optical hparams htl hml haa har =>
    rw [commit_append]
    exact registersLegal_commit_envWrites haa har (registersLegal_commit_optWrites hparams htl hml h)
  | knee hparams => exact registersLegal_commit_kneeWrites hparams h

end Sys2Proof.Machine

open Sys2Proof.Machine Sys2Proof.Safety

/-- Settles O32, by what a configuration command can do. -/
theorem configurationCompletesOrInvalidates : Obligations.ConfigurationCompletesOrInvalidates := by
  intro i s hi
  rcases exec_configuration_cases s hi with ⟨e, he, herr⟩ | ⟨ws, hnext, hw, hws⟩
  · obtain ⟨t, ht, hfailed⟩ := commandError_failed i e s
    refine ⟨t, herr.trans ht, .inr ⟨e, he, hfailed, fun c hc => ?_⟩⟩
    rw [hfailed.2.1 c hc]
    exact ctlValid_invalidated _
  · exact ⟨_, hnext, .inl ⟨ctlValid_commit_of_configures s hw hws, hw ▸ unchanged_commit ws s⟩⟩
end

section
/-! What every step does to the state as a whole: it serves the oldest access (R23, R76), keeps the registers legal
(R35, R37, R41, R49, R50), and clears no flag of STATUS but by CLRST and RESET (R35). -/

namespace Sys2Proof.Machine

open Sys2Proof.Safety

/-! ## Serving an access -/

theorem step_of_pending {s : State} {a : HostAccess} {rest : List HostAccess} (h : s.pending = a :: rest) :
    step s = serve a { s with pending := rest } := by
  rw [step, serveNext, h]

theorem serve_write_cmd (w : Word) (s : State) : serve (.write 0x000 w) s = writeCmd w s := rfl

/-! ## Legal registers -/

theorem registersLegal_reset : RegistersLegal State.reset := by
  unfold RegistersLegal
  decide

theorem registersLegal_execSetfs {s t : State} (h : RegistersLegal s) (ht : execSetfs s = .next t) :
    RegistersLegal t := by
  simp only [execSetfs] at ht
  split at ht
  next => exact registersLegal_of_commandError h ht
  next hrate =>
    cases ht
    simp only [Bool.not_eq_true', Bool.not_eq_false] at hrate
    obtain ⟨hstatus, -, hrest⟩ := h
    exact ⟨hstatus, by simp [rateLegal, hrate], hrest⟩

/-- The commands apart from the configurations, CLRST and SETFS write no register with a condition but STATUS.NF. -/
theorem conditionOn_writtenBy {i : Instr} (hi : isConfiguration i = false) (hclrst : i ≠ .clrst) (hsetfs : i ≠ .setfs) :
    ∀ r ∈ writtenBy i, conditionOn r = .free := by
  cases i with
  | clrst => exact absurd rfl hclrst
  | setfs => exact absurd rfl hsetfs
  | bqdsn | bqld | envcfg | envld | vcacfg | optcfg | kncfg => cases hi
  | _ => simp [writtenBy, conditionOn]

theorem exec_keeps_registersLegal {i : Instr} {s t : State} (h : RegistersLegal s) (ht : exec i s = .next t) :
    RegistersLegal t := by
  cases hconf : isConfiguration i with
  | true =>
    rcases exec_configuration_cases s hconf with ⟨e, -, he⟩ | ⟨ws, hnext, -, hws⟩
    · exact registersLegal_of_commandError h (he.symm.trans ht)
    · cases hnext.symm.trans ht
      exact registersLegal_of_configures hws h
  | false =>
    by_cases hclrst : i = .clrst
    · subst hclrst
      cases ht
      have hcleared : statusLegal 0 0 = true := by decide
      exact ⟨hcleared, h.2⟩
    by_cases hsetfs : i = .setfs
    · subst hsetfs
      exact registersLegal_execSetfs h ht
    have hfree := conditionOn_writtenBy hconf hclrst hsetfs
    rcases exec_cases i s with ⟨e, he⟩ | ⟨-, -, ws, hnext, hw⟩ | ⟨-, ws, hnext, hw⟩ | ⟨-, hnext⟩
    · exact registersLegal_of_commandError h (he.symm.trans ht)
    · cases hnext.symm.trans ht
      exact registersLegal_commit_free (hw ▸ hfree) h
    · cases hnext.symm.trans ht
      exact registersLegal_commitResults (hw ▸ hfree) h
    · cases hnext.symm.trans ht
      exact registersLegal_reset

theorem serveWrite_keeps_registersLegal {a : RegIndex} {v : Word} {s t : State} (h : RegistersLegal s)
    (ht : serveWrite a v s = .next t) : RegistersLegal t := by
  rcases serveWrite_cases a v s with ⟨-, i, -, he⟩ | ⟨-, -, he⟩ | ⟨r, -, hacc, he⟩ | ⟨-, he⟩
  · exact exec_keeps_registersLegal h (he.symm.trans ht)
  · cases he.symm.trans ht
    exact registersLegal_raise _ _ h
  · cases he.symm.trans ht
    exact registersLegal_commit_free (ws := [(r, v)]) (by simpa using conditionOn_of_readWrite hacc) h
  · cases he.symm.trans ht
    exact registersLegal_raise _ _ h

/-! ## The flags of STATUS -/

/-- ERR, OVF and NF survive an error (R244, R245). -/
theorem getLsbD_statusAfterError {w : Word} {b : ℕ} (c : BitVec 8) (hb : b < 8) (h : w.getLsbD b = true) :
    (statusAfterError w c).getLsbD b = true := by
  rw [statusAfterError]
  split
  · rw [getLsbD_statusWithOvf, h, Bool.true_or]
  · rw [getLsbD_statusWithError, if_neg (by omega : ¬(8 ≤ b ∧ b < 16)), h, ite_self]

theorem getLsbD_statusAfterResults {w : Word} {b : ℕ} (vs : List Word) (h : w.getLsbD b = true) :
    (statusAfterResults w vs).getLsbD b = true := by
  rw [statusAfterResults]
  split
  · rw [getLsbD_statusWithNf, h, Bool.true_or]
  · exact h

theorem status_not_mem_writtenBy {i : Instr} (hi : i ≠ .clrst) : Reg.status ∉ writtenBy i := by
  cases i with
  | clrst => exact absurd rfl hi
  | _ => simp [writtenBy]

/-- A flag of STATUS that is set stays set but for CLRST and RESET (R35). -/
theorem exec_keeps_flags {i : Instr} {s t : State} {b : ℕ} (hb : b < 8) (hclrst : i ≠ .clrst) (hreset : i ≠ .reset)
    (ht : exec i s = .next t) (h : s.status.getLsbD b = true) : t.status.getLsbD b = true := by
  rcases exec_cases i s with ⟨e, he⟩ | ⟨-, -, ws, he, hw⟩ | ⟨-, ws, he, -⟩ | ⟨hi, -⟩
  · obtain ⟨t', ht', hstatus, -⟩ := commandError_next i e s
    cases (ht'.symm.trans he.symm).trans ht
    rw [hstatus]
    exact getLsbD_statusAfterError _ hb h
  · cases he.symm.trans ht
    have hstatus : (commit ws s).status = s.status :=
      (unchanged_commit ws s).1 .status (hw ▸ status_not_mem_writtenBy hclrst)
    rwa [hstatus]
  · cases he.symm.trans ht
    exact getLsbD_statusAfterResults _ h
  · exact absurd hi hreset

theorem serveWrite_keeps_flags {a : RegIndex} {v : Word} {s t : State} {b : ℕ} (hb : b < 8)
    (hcmd : a = 0x000 → v ≠ encode .clrst ∧ v ≠ encode .reset) (ht : serveWrite a v s = .next t)
    (h : s.status.getLsbD b = true) : t.status.getLsbD b = true := by
  rcases serveWrite_cases a v s with ⟨ha, i, hi, he⟩ | ⟨-, -, he⟩ | ⟨r, -, hacc, he⟩ | ⟨-, he⟩
  · obtain ⟨hclrst, hreset⟩ := hcmd (index_of_regAt ha).symm
    rw [eq_encode_of_decode hi] at hclrst hreset
    exact exec_keeps_flags hb (ne_of_apply_ne encode hclrst) (ne_of_apply_ne encode hreset) (he.symm.trans ht) h
  · cases he.symm.trans ht
    exact getLsbD_statusAfterError _ hb h
  · cases he.symm.trans ht
    have hstatus : (s.setReg r v).status = s.status :=
      State.reg_setReg_ne (q := .status) v (fun hr => by subst hr; cases hacc)
    rwa [hstatus]
  · cases he.symm.trans ht
    exact getLsbD_statusAfterError _ hb h

end Sys2Proof.Machine

open Sys2Proof.Machine Sys2Proof.Safety

/-- Settles O46: a step waits, reads or serves a write, and only a write can change a register. -/
theorem stepKeepsRegistersLegal : Obligations.StepKeepsRegistersLegal := by
  intro s t h ht
  rcases step_cases s with ⟨-, he⟩ | ⟨a, rest, -, he⟩ | ⟨a, v, rest, -, he⟩
  · cases he.symm.trans ht
    exact h
  · cases he.symm.trans ht
    exact h
  · exact serveWrite_keeps_registersLegal (s := { s with pending := rest }) h (he.symm.trans ht)

/-- Settles O50: a step that leaves a set flag clear serves a write, and by the contrapositive of what writes keep it
is a write of CLRST or RESET to CMD. -/
theorem statusFlagsAreSticky : Obligations.StatusFlagsAreSticky := by
  intro s t b hb ht hset hclear
  have hlost : ¬t.status.getLsbD b = true := by simpa using hclear
  rcases step_cases s with ⟨-, he⟩ | ⟨a, rest, -, he⟩ | ⟨a, v, rest, hp, he⟩
  · cases he.symm.trans ht
    exact absurd hset hlost
  · cases he.symm.trans ht
    exact absurd hset hlost
  · refine ⟨rest, ?_⟩
    by_contra hother
    rw [hp] at hother
    refine hlost (serveWrite_keeps_flags (s := { s with pending := rest }) (by omega) ?_ (he.symm.trans ht) hset)
    rintro rfl
    exact ⟨fun hv => hother (.inl (hv ▸ rfl)), fun hv => hother (.inr (hv ▸ rfl))⟩

/-- Settles O36: serving a write to CMD is running what the word decodes to. -/
theorem stepRunsDecodedCommand : Obligations.StepRunsDecodedCommand := by
  refine ⟨fun s a rest => step_of_pending, fun s w i rest hp hw => ?_⟩
  rw [step_of_pending hp, serve_write_cmd, writeCmd, hw]
end

section
/-! The register space as the host accesses it (R71 to R79): which registers a host write stores to, what a stored and
a discarded write leave behind, and that a read changes no register. -/

namespace Sys2Proof.Machine

open Sys2Proof.Safety

/-! ## The writable registers -/

/-- R75: the registers a host write stores to are the operands, the taps and the PREVs. -/
theorem access_eq_readWrite_iff (r : Reg) : r.access = .readWrite ↔
    r ∈ [Reg.op0, .op1, .op2, .op3, .op4, .op5] ∨ (∃ u, r = .bq u .x1 ∨ r = .bq u .x2 ∨ r = .bq u .y1 ∨ r = .bq u .y2)
      ∨ ∃ e, r = .env e .prev := by
  cases r with
  | bq u q => cases q <;> simp [Reg.access]
  | env e q => cases q <;> simp [Reg.access]
  | _ => simp [Reg.access]

/-- The indices of the writable registers (R51, R75). -/
theorem toNat_index_of_readWrite {r : Reg} (h : r.access = .readWrite) :
    (0x008 ≤ r.index.toNat ∧ r.index.toNat ≤ 0x00D)
      ∨ (∃ u, u < 4 ∧ 0x106 + 0x10 * u ≤ r.index.toNat ∧ r.index.toNat ≤ 0x109 + 0x10 * u)
      ∨ ∃ e, e < 6 ∧ r.index.toNat = 0x202 + 0x8 * e := by
  rcases (access_eq_readWrite_iff r).1 h with hop | ⟨u, htap⟩ | ⟨e, rfl⟩
  · left
    fin_cases hop <;> decide
  · refine .inr (.inl ⟨u, u.isLt, ?_⟩)
    rcases htap with rfl | rfl | rfl | rfl <;> rw [toNat_index_bq, BqReg.offset] <;> omega
  · refine .inr (.inr ⟨e, e.isLt, ?_⟩)
    rw [toNat_index_env, EnvReg.offset]
    omega

/-! ## Reads -/

theorem peek_of_regAt {a : RegIndex} {r : Reg} (s : State) (h : regAt a = some r) : s.peek a = s.reg r := by
  rw [State.peek, h]

theorem peek_of_unmapped {a : RegIndex} (s : State) (h : regAt a = none) : s.peek a = 0 := by
  rw [State.peek, h]

theorem serve_read (a : RegIndex) (s : State) :
    serve (.read a) s = .next { s with reads := s.reads ++ [s.peek a] } := rfl

theorem step_of_no_pending {s : State} (h : s.pending = []) : step s = .next s := by
  rw [step, serveNext, h]

/-! ## Writes -/

theorem serve_write_readWrite {r : Reg} (v : Word) (s : State) (h : r.access = .readWrite) :
    serve (.write r.index v) s = .next (s.setReg r v) := by
  rw [serve, serveWrite, regAt_index]
  simp only [h]

theorem unchanged_setReg (s : State) (r : Reg) (v : Word) : Unchanged s (s.setReg r v) [r] :=
  unchanged_commit [(r, v)] s

theorem unchanged_raise (e : ErrorCode) (info : Word) (s : State) : Unchanged s (raise e info s) [.status, .errcmd] := by
  refine ⟨fun r hr => ?_, rfl, rfl⟩
  simp only [List.mem_cons, List.not_mem_nil, or_false, not_or] at hr
  exact reg_raise_of_ne hr.1 hr.2

theorem errorRecorded_raise (e : ErrorCode) (info : Word) (s : State) : ErrorRecorded e info s (raise e info s) :=
  errorRecorded_iff.2 ⟨rfl, rfl⟩

/-- The information word of an IllegalWrite, as the model lays it out and as R36 writes it. -/
theorem illegalWriteInfo_eq (a : RegIndex) : illegalWriteInfo a = 0xFFFFFFFF00000000 ||| a.setWidth 64 := by
  rw [illegalWriteInfo, BitVec.append_def]
  rfl

/-- A write that is neither to CMD nor to a writable register is discarded (R73, R72). -/
theorem serve_write_discarded {a : RegIndex} (v : Word) (s : State) (hcmd : a ≠ Reg.cmd.index)
    (hstore : ∀ r : Reg, r.access = .readWrite → a ≠ r.index) :
    serve (.write a v) s = .next (raise .illegalWrite (illegalWriteInfo a) s) := by
  rcases serveWrite_cases a v s with ⟨ha, -⟩ | ⟨ha, -⟩ | ⟨r, ha, hacc, -⟩ | ⟨-, he⟩
  · exact absurd (index_of_regAt ha).symm hcmd
  · exact absurd (index_of_regAt ha).symm hcmd
  · exact absurd (index_of_regAt ha).symm (hstore r hacc)
  · exact he

end Sys2Proof.Machine

open Sys2Proof.Machine

/-- Settles O37: a step serves the oldest access, and a read only adds to the values read. -/
theorem stepServesReadsAndWaits : Obligations.StepServesReadsAndWaits := by
  refine fun s => ⟨step_of_no_pending, fun a rest hp => ?_⟩
  refine ⟨_, (step_of_pending hp).trans (serve_read a _), rfl, fun r => ?_, fun r hr => ?_, fun hr => ?_⟩
  · exact (State.reg_with_reads _ _ r).trans (State.reg_with_pending s rest r)
  · simp [peek_of_regAt _ hr]
  · simp [peek_of_unmapped _ hr]

/-- Settles O38: the registers R75 names are the writable ones, and each of them holds a value. -/
theorem writableRegistersStoreTheWord : Obligations.WritableRegistersStoreTheWord := by
  refine ⟨fun s r v hr => ?_, fun s w i hw => ?_, fun s => rfl⟩
  · have hacc := (access_eq_readWrite_iff r).2 hr
    have hread := State.reg_setReg_same (s := s) v (stored_of_readWrite hacc)
    exact ⟨_, serve_write_readWrite v s hacc, hread, (peek_index _ r).trans hread, unchanged_setReg s r v⟩
  · rw [serve_write_cmd, writeCmd, hw]

/-- Settles O39: the indices left are those of no writable register. -/
theorem otherWritesRaiseIllegalWrite : Obligations.OtherWritesRaiseIllegalWrite := by
  intro s a v hcmd hop htap hprev
  have hstore : ∀ r : Reg, r.access = .readWrite → a ≠ r.index := by
    rintro r hacc rfl
    rcases toNat_index_of_readWrite hacc with h | ⟨u, hu, h⟩ | ⟨e, he, h⟩
    · exact hop h
    · exact htap u hu h
    · exact hprev e he h
  rw [← illegalWriteInfo_eq]
  exact ⟨_, serve_write_discarded v s hcmd hstore, errorRecorded_raise _ _ s, unchanged_raise _ _ s⟩

/-- Settles O40: a read changes no register, and a register written with the word it holds keeps it. -/
theorem readsAndStoresAreIdempotent : Obligations.ReadsAndStoresAreIdempotent := by
  rintro s t a (⟨i, rfl⟩ | ⟨r, v, rfl, hacc⟩) ht
  · exact ⟨_, serve_read i t, fun r => State.reg_with_reads t _ r⟩
  · cases (serve_write_readWrite v s hacc).symm.trans ht
    refine ⟨_, serve_write_readWrite v _ hacc, fun q => ?_⟩
    simp only [State.reg_setReg]
    split <;> rfl
end

section
/-! The command encoding (R90 to R100): the encoding of a command decodes to it, and a row of the opcode table accepts
exactly the words of its operation code whose UNIT and KIND are in range. -/

namespace Sys2Proof.Machine

/-! ## The encoding of a command -/

theorem decode_commandWord (opc : BitVec 8) (unit kind : BitVec 4) :
    decode (commandWord opc unit kind) = decodeOpc opc unit kind := by
  have hfields := Laws.fieldsOf_commandWord opc unit kind
  simp only [fieldsOf, CommandFields.mk.injEq] at hfields
  obtain ⟨hupper, hopc, hunit, hkind, hlower⟩ := hfields
  simp [decode, hupper, hopc, hunit, hkind, hlower]

theorem decodeOpc_fields (i : Instr) : decodeOpc (opcOf i) (unitOf i) (kindFieldOf i) = .instr i := by
  cases i with
  | bqdsn u kind => revert u; cases kind <;> decide
  | bqld u | bqstep u | bqclr u => revert u; decide
  | envcfg e | envld e | envstep e | envclr e => revert e; decide
  | _ => rfl

/-- R90, R100: the encoding of a command is the one word that decodes to it. -/
theorem decode_eq_instr_iff {w : Word} {i : Instr} : decode w = .instr i ↔ w = encode i := by
  refine ⟨eq_encode_of_decode, ?_⟩
  rintro rfl
  rw [encode, decode_commandWord, decodeOpc_fields]

open Laws.EncodedFields in
theorem encodedFields (i : Instr) : Statement i := by
  cases i
  exacts [nop, reset, clrst, setfs, bqdsn _ _, bqld _, bqstep _, bqclr _, envcfg _, envld _, envstep _, envclr _,
    vcacfg, vcastep, vcagr, optcfg, optstep, kncfg, kneval]

/-- R99: a word whose fields are not those of a command is the encoding of none. -/
theorem decode_ne_instr_of_not_wellFormed {w : Word} (h : fieldsWellFormed (fieldsOf w) = false) (i : Instr) :
    decode w ≠ .instr i := by
  intro hw
  rw [decode_eq_instr_iff.1 hw, (encodedFields i).2] at h
  cases h

/-- R242: a word that decodes to no command is recorded whole, and nothing executes. -/
theorem writeCmd_of_ne_instr {w : Word} (h : ∀ i, decode w ≠ .instr i) (s : State) :
    writeCmd w s = .next (raise .illegalCommand w s) := by
  rw [writeCmd]
  cases hw : decode w with
  | instr i => exact absurd hw (h i)
  | illegal why => rfl

/-! ## The rows of the opcode table -/

/-- How many values of UNIT a command's row admits (R92, R98). -/
def rowUnits : Instr → ℕ
  | .bqdsn _ _ | .bqld _ | .bqstep _ | .bqclr _ => Config.numBq
  | .envcfg _ | .envld _ | .envstep _ | .envclr _ => Config.numEnv
  | .nop | .reset | .clrst | .setfs | .vcacfg | .vcastep | .vcagr | .optcfg | .optstep | .kncfg | .kneval => 1

/-- How many values of KIND a command's row admits (R93, R94, R98). -/
def rowKinds : Instr → ℕ
  | .bqdsn _ _ => 6
  | _ => 1

theorem eq_zero_of_toNat_lt_one {c : BitVec 4} (h : c.toNat < 1) : c = 0 :=
  BitVec.eq_of_toNat_eq (Nat.lt_one_iff.1 h)

/-- The mask over a field with `n` values: a field with one value is fixed at 0, the others are free (R98). -/
def fieldMask (n : ℕ) : BitVec 4 := if n = 1 then 0xF else 0

theorem and_fieldMask_of_lt {c : BitVec 4} {n : ℕ} (h : c.toNat < n) : c &&& fieldMask n = 0 := by
  rw [fieldMask]
  split
  next hn =>
    subst hn
    simp [eq_zero_of_toNat_lt_one h]
  next => exact BitVec.and_zero

/-- The row of the opcode table for a command (R98): its operation code with UNIT and KIND zero, and a mask that
leaves out the fields the command has. -/
def rowOf (i : Instr) : OpcodeRow where
  mnemonic := mnemonicOf i
  mask := 0xFFFFFFFF#32 ++ 0xFF#8 ++ fieldMask (rowUnits i) ++ fieldMask (rowKinds i) ++ 0xFFFF#16
  pattern := commandWord (opcOf i) 0 0
  units := rowUnits i
  kinds := rowKinds i

theorem opcodeRows_eq : opcodeRows =
    [.nop, .reset, .clrst, .setfs, .bqdsn 0 .peaking, .bqld 0, .bqstep 0, .bqclr 0, .envcfg 0, .envld 0, .envstep 0,
      .envclr 0, .vcacfg, .vcastep, .vcagr, .optcfg, .optstep, .kncfg, .kneval].map rowOf := rfl

/-- The rows of the table are those of the commands. -/
theorem mem_opcodeRows_iff {row : OpcodeRow} : row ∈ opcodeRows ↔ ∃ i, rowOf i = row := by
  rw [opcodeRows_eq]
  constructor
  · intro h
    obtain ⟨i, -, hi⟩ := List.mem_map.1 h
    exact ⟨i, hi⟩
  · rintro ⟨i, rfl⟩
    cases i <;> simp [rowOf, mnemonicOf, opcOf, rowUnits, rowKinds]

theorem fieldsOf_and (v w : Word) : fieldsOf (v &&& w) =
    ⟨(fieldsOf v).upper &&& (fieldsOf w).upper, (fieldsOf v).opc &&& (fieldsOf w).opc,
      (fieldsOf v).unit &&& (fieldsOf w).unit, (fieldsOf v).kind &&& (fieldsOf w).kind,
      (fieldsOf v).lower &&& (fieldsOf w).lower⟩ := by
  simp [fieldsOf, BitVec.extractLsb'_and]

theorem fieldsOf_rowOf_mask (i : Instr) : fieldsOf (rowOf i).mask =
    ⟨BitVec.allOnes 32, BitVec.allOnes 8, fieldMask (rowUnits i), fieldMask (rowKinds i), BitVec.allOnes 16⟩ := by
  simp only [rowOf, fieldMask]
  split <;> split <;> decide

/-- A row with the mask of `rowOf` fixes every bit but those of the fields the command has, and the ranges fix the
fields it has not, so it accepts the words of its operation code with UNIT and KIND in range (R98). -/
theorem rowOf_accepts_iff (i : Instr) (w : Word) : (rowOf i).accepts w = true ↔
    ∃ unit kind, w = commandWord (opcOf i) unit kind ∧ unit.toNat < rowUnits i ∧ kind.toNat < rowKinds i := by
  have haccepts : (rowOf i).accepts w = true ↔ fieldsOf (w &&& (rowOf i).mask) = fieldsOf (commandWord (opcOf i) 0 0)
      ∧ (fieldsOf w).unit.toNat < rowUnits i ∧ (fieldsOf w).kind.toNat < rowKinds i := by
    rw [fieldsOf_injective.eq_iff]
    simp only [OpcodeRow.accepts, Bool.and_eq_true, beq_iff_eq, decide_eq_true_eq, and_assoc]
    rfl
  rw [haccepts, fieldsOf_and, fieldsOf_rowOf_mask, Laws.fieldsOf_commandWord, CommandFields.mk.injEq]
  simp only [BitVec.and_allOnes]
  constructor
  · rintro ⟨⟨hupper, hopc, -, -, hlower⟩, hunit, hkind⟩
    refine ⟨_, _, fieldsOf_injective ?_, hunit, hkind⟩
    rw [Laws.fieldsOf_commandWord, ← hupper, ← hopc, ← hlower]
  · rintro ⟨unit, kind, rfl, hunit, hkind⟩
    rw [Laws.fieldsOf_commandWord]
    exact ⟨⟨rfl, rfl, and_fieldMask_of_lt hunit, and_fieldMask_of_lt hkind, rfl⟩, hunit, hkind⟩

theorem exists_kindCode {c : BitVec 4} (h : c.toNat < 6) : ∃ k, kindCode k = c := by
  have hsome : (kindOfCode c).isSome := by
    revert c
    decide
  obtain ⟨k, hk⟩ := Option.isSome_iff_exists.1 hsome
  exact ⟨k, kindCode_of_kindOfCode hk⟩

theorem commandWord_of_kind_lt_one (opc : BitVec 8) (unit : BitVec 4) {kind : BitVec 4} (h : kind.toNat < 1) :
    commandWord opc (BitVec.ofNat 4 unit.toNat) 0 = commandWord opc unit kind := by
  rw [BitVec.ofNat_toNat, BitVec.setWidth_eq, eq_zero_of_toNat_lt_one h]

/-- The fields a row admits are those of a command of its mnemonic (R92 to R94). -/
theorem exists_encode_of_fields_in_range {i : Instr} {unit kind : BitVec 4} (hunit : unit.toNat < rowUnits i)
    (hkind : kind.toNat < rowKinds i) :
    ∃ j, mnemonicOf j = mnemonicOf i ∧ encode j = commandWord (opcOf i) unit kind := by
  cases i with
  | bqdsn u k =>
    obtain ⟨k', rfl⟩ := exists_kindCode hkind
    exact ⟨.bqdsn ⟨_, hunit⟩ k', rfl, by simp [encode, unitOf, opcOf, kindFieldOf]⟩
  | bqld u => exact ⟨.bqld ⟨_, hunit⟩, rfl, commandWord_of_kind_lt_one _ _ hkind⟩
  | bqstep u => exact ⟨.bqstep ⟨_, hunit⟩, rfl, commandWord_of_kind_lt_one _ _ hkind⟩
  | bqclr u => exact ⟨.bqclr ⟨_, hunit⟩, rfl, commandWord_of_kind_lt_one _ _ hkind⟩
  | envcfg e => exact ⟨.envcfg ⟨_, hunit⟩, rfl, commandWord_of_kind_lt_one _ _ hkind⟩
  | envld e => exact ⟨.envld ⟨_, hunit⟩, rfl, commandWord_of_kind_lt_one _ _ hkind⟩
  | envstep e => exact ⟨.envstep ⟨_, hunit⟩, rfl, commandWord_of_kind_lt_one _ _ hkind⟩
  | envclr e => exact ⟨.envclr ⟨_, hunit⟩, rfl, commandWord_of_kind_lt_one _ _ hkind⟩
  | _ =>
    rw [eq_zero_of_toNat_lt_one hunit, eq_zero_of_toNat_lt_one hkind]
    exact ⟨_, rfl, rfl⟩

/-- The rows of the table and the checks of R99 admit the same numbers of UNIT and KIND values. -/
theorem opcBounds_opcOf (i : Instr) : opcBounds (opcOf i) = some (rowUnits i, rowKinds i) := by
  cases i <;> rfl

theorem fields_in_range (i : Instr) : (unitOf i).toNat < rowUnits i ∧ (kindFieldOf i).toNat < rowKinds i := by
  obtain ⟨hfields, hwf⟩ := encodedFields i
  rw [hfields] at hwf
  simpa [fieldsWellFormed, upperZero, lowerZero, opcDefined, unitInRange, kindInRange, opcBounds_opcOf] using hwf

theorem rowOf_accepts_encode (i : Instr) : (rowOf i).accepts (encode i) = true :=
  (rowOf_accepts_iff i _).2 ⟨_, _, rfl, fields_in_range i⟩

/-- A slot index fits the UNIT field (R92). -/
theorem toNat_slot {n : ℕ} (hn : n ≤ 16) (u : Fin n) : (BitVec.ofNat 4 u.val).toNat = u.val := by
  rw [BitVec.toNat_ofNat, Nat.mod_eq_of_lt (u.isLt.trans_le hn)]

end Sys2Proof.Machine

open Sys2Proof Sys2Proof.Machine

/-- Settles O43: the decoder read backwards gives one direction, the decoded fields of an encoding the other. -/
theorem decodeAcceptsExactlyTheEncodings : Obligations.DecodeAcceptsExactlyTheEncodings :=
  fun _ _ => decode_eq_instr_iff

/-- Settles O44: the words a row accepts are the encodings of the commands of its mnemonic, and an encoding has its
slot and its kind in UNIT and KIND. -/
theorem decodeFollowsTheOpcodeTable : Obligations.DecodeFollowsTheOpcodeTable := by
  refine ⟨fun w m => ?_, fun w i hw => ?_⟩
  · simp only [decode_eq_instr_iff, mem_opcodeRows_iff]
    constructor
    · rintro ⟨i, rfl, rfl⟩
      exact ⟨_, ⟨i, rfl⟩, rfl, rowOf_accepts_encode i⟩
    · rintro ⟨_, ⟨i, rfl⟩, rfl, hw⟩
      obtain ⟨unit, kind, rfl, hunit, hkind⟩ := (rowOf_accepts_iff i w).1 hw
      obtain ⟨j, hj, hencode⟩ := exists_encode_of_fields_in_range hunit hkind
      exact ⟨j, hencode.symm, hj⟩
  · have hfields := (encodedFields i).1
    rw [← decode_eq_instr_iff.1 hw, fieldsOf, CommandFields.mk.injEq] at hfields
    obtain ⟨-, -, hunit, hkind, -⟩ := hfields
    rw [hunit, hkind]
    cases i with
    | bqdsn u k => cases k <;> exact ⟨toNat_slot (by decide) u, rfl⟩
    | bqld u | bqstep u | bqclr u => exact ⟨toNat_slot (by decide) u, rfl⟩
    | envcfg e | envld e | envstep e | envclr e => exact ⟨toNat_slot (by decide) e, rfl⟩
    | _ => exact ⟨rfl, rfl⟩

/-- Settles O35: a word that is no command's encoding is recorded as R242 says. -/
theorem illegalWordsRaiseIllegalCommand : Obligations.IllegalWordsRaiseIllegalCommand := by
  intro s w hw
  rw [serve_write_cmd, writeCmd_of_ne_instr (decode_ne_instr_of_not_wellFormed hw)]
  exact ⟨_, rfl, errorRecorded_raise _ _ s, unchanged_raise _ _ s⟩

/-- Settles O45: the examples by evaluation, the illegal words by the checks of R99 that they fail. -/
theorem encodingExamplesDecode : Obligations.EncodingExamplesDecode := by
  have hillegal : ∀ w ∈ [(0x12400000 : Word), 0x10060000, 0x31000001, 0x31100000, 0x60000000, 0x0000000100000000],
      fieldsWellFormed (fieldsOf w) = false := by
    intro w hw
    fin_cases hw <;> rfl
  exact ⟨rfl, rfl, rfl, rfl, rfl, rfl, rfl, rfl, rfl, rfl, rfl, rfl,
    fun w hw => decode_ne_instr_of_not_wellFormed (hillegal w hw)⟩
end

section
/-! Zeros and ones in the arithmetic: what the comparisons with them say, and the sums, products and quotients that are
a zero or 1.0 exactly (R13). -/

namespace Sys2Proof.Machine.Fp

open Sys2Proof.Safety

/-! ## Comparisons -/

theorem orderKey_eq_zero_iff (w : Word) : orderKey w = 0 ↔ magBits w = 0 := by
  rw [orderKey]
  split <;> omega

/-- A word compares equal to 0.0 exactly where it is a zero of either sign. -/
theorem eq_zero_eq_isZero (w : Word) : eq w 0 = isZero w := by
  have hnan : isZero w = true → isNaN w = false := fun h => not_nan_of_finite (finite_of_zero h)
  rw [Bool.eq_iff_iff, eq, show orderKey 0 = 0 by decide, show isNaN 0 = false by decide]
  simp only [orderKey_eq_zero_iff, isZero, Bool.and_eq_true, Bool.not_eq_true', decide_eq_true_eq] at hnan ⊢
  exact ⟨fun h => h.2, fun h => ⟨⟨hnan h, trivial⟩, h⟩⟩

/-- A word that compares equal to one that is not a zero is that word. -/
theorem word_eq_of_eq {a b : Word} (h : eq a b = true) (hb : isZero b = false) : a = b := by
  have hkey : orderKey a = orderKey b := of_decide_eq_true (Bool.and_eq_true_iff.1 h).2
  rw [isZero, decide_eq_false_iff_not] at hb
  rw [word_eq_iff]
  cases hsa : sign a <;> cases hsb : sign b <;> simp [orderKey, hsa, hsb] at hkey ⊢ <;> omega

theorem word_eq_of_isZero {w : Word} (h : isZero w = true) : w = 0 ∨ w = 0x8000000000000000 := by
  have hmag : magBits w = 0 := of_decide_eq_true h
  rw [← ofMag_sign_magBits w, hmag]
  cases sign w
  · exact .inl rfl
  · exact .inr rfl

/-! ## Zero results -/

theorem roundUnits_zero {d : ℕ} (hd : 0 < d) : roundUnits 0 d = 0 := by
  simp [roundUnits, packBits, hd.ne, hd.not_gt]

theorem units_pos_of_not_isZero {w : Word} (h : isZero w = false) : 0 < units w := by
  rw [Nat.pos_iff_ne_zero, Ne, ← isZero_iff_units, h]
  exact Bool.false_ne_true

theorem isZero_mul {a b : Word} (ha : isFinite a = true) (hb : isZero b = true) : isZero (mul a b) = true := by
  rw [mul_of_finite ha (finite_of_zero hb), (isZero_iff_units b).1 hb, Nat.mul_zero, roundUnits_zero unitsPerOne_pos]
  exact isZero_ofMag_zero _

theorem isZero_div {a b : Word} (ha : isZero a = true) (hb : isFinite b = true) (h0 : isZero b = false) :
    isZero (div a b) = true := by
  rw [div_of_finite (finite_of_zero ha) hb h0, (isZero_iff_units a).1 ha, Nat.zero_mul,
    roundUnits_zero (units_pos_of_not_isZero h0)]
  exact isZero_ofMag_zero _

theorem isZero_sum (nan : Word) {a b : Word} (ha : isZero a = true) (hb : isZero b = true) :
    isZero (sum nan a b) = true := by
  have hvalue : value a + value b = 0 := by rw [(isZero_iff_value a).1 ha, (isZero_iff_value b).1 hb, add_zero]
  rw [sum_eq_zero nan (finite_of_zero ha) (finite_of_zero hb) hvalue]
  split <;> decide

theorem isZero_add {a b : Word} (ha : isZero a = true) (hb : isZero b = true) : isZero (add a b) = true :=
  isZero_sum _ ha hb

theorem isZero_sub {a b : Word} (ha : isZero a = true) (hb : isZero b = true) : isZero (sub a b) = true :=
  isZero_sum _ ha (by rwa [isZero, magBits_neg])

/-! ## One -/

theorem units_one : units one = unitsPerOne := by
  rw [units_eq_magUnits, unitsPerOne_eq, show magBits one = 1022 * 2 ^ 52 + 2 ^ 52 by decide,
    magUnits_significand (by norm_num) (.inr le_rfl), ← pow_add]

/-- Multiplying and dividing by 1.0 give the same word. A NaN's payload may differ between the two operations. -/
theorem mul_one_eq_div_one {a : Word} (h : isNaN a = false) : mul a one = div a one := by
  have h1 : isFinite one = true := by decide
  cases hinf : isInf a with
  | true =>
    simp [mul, div, h, hinf, not_zero_of_inf hinf, show isNaN one = false by decide, show isZero one = false by decide,
      show isInf one = false by decide]
  | false =>
    have ha := finite_of_not_nan_of_not_inf h hinf
    rw [mul_of_finite ha h1, div_of_finite ha h1 (by decide), units_one]

theorem roundUnits_ratio_one {u : ℕ} (hu : 0 < u) : roundUnits (u * unitsPerOne) u = magBits one := by
  have hlog : (u * unitsPerOne / u).log2 - 52 = 1022 := by
    rw [Nat.mul_div_cancel_left _ hu, unitsPerOne_eq, Nat.log2_two_pow]
  have hprod : u * unitsPerOne = 2 ^ 52 * (u * 2 ^ 1022) := by
    rw [unitsPerOne_eq, show 1074 = 52 + 1022 from rfl, pow_add, mul_left_comm]
  have hunit : 0 < u * 2 ^ 1022 := by positivity
  simp only [roundUnits, hlog]
  rw [hprod, Nat.mul_div_cancel _ hunit, Nat.mul_mod_left, if_neg (by omega)]
  decide

/-- A finite number that is not a zero, divided by itself, is 1.0 exactly. -/
theorem div_self_word {a : Word} (ha : isFinite a = true) (h0 : isZero a = false) : div a a = one := by
  rw [div_of_finite ha ha h0, roundUnits_ratio_one (units_pos_of_not_isZero h0), bne_self_eq_false]
  exact ofMag_sign_magBits one

end Sys2Proof.Machine.Fp
end

section
/-! The biquad commands (R122, R125 to R127, R130, R131): what each checks, and what it writes where it completes. -/

namespace Sys2Proof.Machine

open Sys2Proof.Safety

/-! ## Completed commands -/

/-- A register a command writes reads the value of its commit (R12). -/
theorem reg_commit_writtenBy {i : Instr} {ws : List (Reg × Word)} {s : State} {r : Reg} {v : Word}
    (hw : ws.map Prod.fst = writtenBy i) (hm : (r, v) ∈ ws) : (commit ws s).reg r = v := by
  have hmem : r ∈ writtenBy i := hw ▸ List.mem_map.2 ⟨_, hm, rfl⟩
  exact reg_commit_of_mem hm (hw ▸ writtenBy_nodup i) (writtenBy_stored hmem)

theorem statusAfterResults_eq (s : State) (vs : List Word) : statusAfterResults s.status vs = resultStatus s vs := by
  have hall : anyNonFinite vs = true ↔ ¬∀ v ∈ vs, Fp.isFinite v = true := by simp [anyNonFinite]
  by_cases h : ∀ v ∈ vs, Fp.isFinite v = true
  · rw [statusAfterResults, resultStatus, if_pos h, if_neg (by simpa only [hall, not_not] using h)]
  · rw [statusAfterResults, resultStatus, if_neg h, if_pos (hall.2 h), statusWithNf]

/-! ## Coefficients -/

/-- Check 5 of R122, and the check of R126: the divisor is finite and not a zero, and the five quotients are finite. -/
theorem legalQuotients_normalize_iff (c : RawCoeffs) : legalQuotients c.a0 (normalize c) = true ↔
    Fp.isFinite c.a0 = true ∧ Fp.eq c.a0 0 = false
      ∧ ∀ x ∈ [c.b0, c.b1, c.b2, c.a1, c.a2], Fp.isFinite (Fp.div x c.a0) = true := by
  simp [legalQuotients, normalize, allFinite, Fp.zero, and_assoc]

/-- `t` is `s` with the normalized coefficients and the CTL `ctl` in slot `u`, its taps as before (R125, R126, R128). -/
def StoresCoeffs (u : BqIndex) (c : RawCoeffs) (ctl : Word) (s t : State) : Prop :=
  t.reg (.bq u .b0) = Fp.div c.b0 c.a0 ∧ t.reg (.bq u .b1) = Fp.div c.b1 c.a0
    ∧ t.reg (.bq u .b2) = Fp.div c.b2 c.a0 ∧ t.reg (.bq u .a1) = Fp.div c.a1 c.a0
    ∧ t.reg (.bq u .a2) = Fp.div c.a2 c.a0 ∧ t.reg (.bq u .ctl) = ctl
    ∧ Unchanged s t [.bq u .b0, .bq u .b1, .bq u .b2, .bq u .a1, .bq u .a2, .bq u .ctl]

theorem storesCoeffs_commit (u : BqIndex) (c : RawCoeffs) (code : BitVec 4) (s : State) :
    StoresCoeffs u c (bqCtlConfigured code) s (commit (coeffWrites u (normalize c) code) s) := by
  have hread : ∀ {r v}, (r, v) ∈ coeffWrites u (normalize c) code →
      (commit (coeffWrites u (normalize c) code) s).reg r = v := reg_commit_writtenBy (i := .bqld u) rfl
  refine ⟨hread ?_, hread ?_, hread ?_, hread ?_, hread ?_, hread ?_, unchanged_commit _ s⟩ <;>
    simp [coeffWrites, normalize]

/-! ## BQDSN -/

theorem legalDesignOperands_iff (fs f q g : Word) : legalDesignOperands fs f q g = true ↔
    Fp.isFinite f = true ∧ Fp.gt f 0 = true ∧ Fp.lt f (Fp.div fs Fp.two) = true ∧ Fp.isFinite q = true
      ∧ Fp.gt q 0 = true ∧ Fp.isFinite g = true := by
  simp [legalDesignOperands, finitePositive, Fp.zero, and_assoc]

theorem legalDesignOperands_eq_false_iff (fs f q g : Word) : legalDesignOperands fs f q g = false ↔
    Fp.isFinite f = false ∨ Fp.gt f 0 = false ∨ Fp.lt f (Fp.div fs Fp.two) = false ∨ Fp.isFinite q = false
      ∨ Fp.gt q 0 = false ∨ Fp.isFinite g = false := by
  rw [← Bool.not_eq_true, legalDesignOperands_iff]
  simp only [not_and_or, Bool.not_eq_true]

theorem exec_bqdsn_of_no_rate {u : BqIndex} {kind : FilterKind} {s : State} (hfs : fsNotSet s = true) :
    exec (.bqdsn u kind) s = commandError (.bqdsn u kind) .notConfigured s := by
  simp [exec, execBqdsn, hfs]

/-- The raw coefficients of the design the operands ask for (R120, R121). -/
def requestedDesign (kind : FilterKind) (s : State) : RawCoeffs :=
  designCoeffs kind (s.reg .fs) (s.reg .op0) (s.reg .op1) (s.reg .op2)

/-- The operands and the design pass checks 2 to 5 of R122. -/
def DesignPasses (kind : FilterKind) (s : State) : Prop :=
  legalDesignOperands (s.reg .fs) (s.reg .op0) (s.reg .op1) (s.reg .op2) = true
    ∧ legalQuotients (requestedDesign kind s).a0 (normalize (requestedDesign kind s)) = true

theorem exec_bqdsn_of_passes {u : BqIndex} {kind : FilterKind} {s : State} (hfs : fsNotSet s = false)
    (h : DesignPasses kind s) :
    exec (.bqdsn u kind) s = .next (commit (coeffWrites u (normalize (requestedDesign kind s)) (kindCode kind)) s) := by
  obtain ⟨hops, hquot⟩ := h
  rw [requestedDesign] at hquot
  simp only [exec, execBqdsn, hfs, hops, hquot]
  rfl

theorem exec_bqdsn_of_not_passes {u : BqIndex} {kind : FilterKind} {s : State} (hfs : fsNotSet s = false)
    (h : ¬DesignPasses kind s) : exec (.bqdsn u kind) s = commandError (.bqdsn u kind) .invalidParameter s := by
  simp only [exec, execBqdsn]
  split_ifs with hrate hops hquot
  · simp [hrate] at hfs
  · rfl
  · rfl
  · simp only [Bool.not_eq_true', Bool.not_eq_false] at hops hquot
    exact absurd ⟨hops, hquot⟩ h

/-- With FS set and legal operands BQDSN stores the design that passes check 5, and rejects one that does not. -/
theorem exec_bqdsn_stores_or_fails (u : BqIndex) (kind : FilterKind) {s : State} (hfs : fsNotSet s = false)
    (hops : legalDesignOperands (s.reg .fs) (s.reg .op0) (s.reg .op1) (s.reg .op2) = true) :
    ∃ t, exec (.bqdsn u kind) s = .next t
      ∧ (legalQuotients (requestedDesign kind s).a0 (normalize (requestedDesign kind s)) = true →
        StoresCoeffs u (requestedDesign kind s) (bqCtlConfigured (kindCode kind)) s t)
      ∧ (¬legalQuotients (requestedDesign kind s).a0 (normalize (requestedDesign kind s)) = true →
        Failed (.bqdsn u kind) .invalidParameter s t) := by
  by_cases hpass : DesignPasses kind s
  · exact ⟨_, exec_bqdsn_of_passes hfs hpass, fun _ => storesCoeffs_commit u _ _ s, fun h => absurd hpass.2 h⟩
  · obtain ⟨t, ht, hfailed⟩ := commandError_failed (.bqdsn u kind) .invalidParameter s
    exact ⟨t, (exec_bqdsn_of_not_passes hfs hpass).trans ht, fun h => absurd ⟨hops, h⟩ hpass, fun _ => hfailed⟩

/-- A BQDSN that leaves VALID set has stored the design, which passed check 5. -/
theorem storesCoeffs_of_bqdsn_valid {u : BqIndex} {kind : FilterKind} {s t : State}
    (ht : exec (.bqdsn u kind) s = .next t) (hvalid : ctlValid (t.reg (.bq u .ctl)) = true) :
    legalQuotients (requestedDesign kind s).a0 (normalize (requestedDesign kind s)) = true
      ∧ StoresCoeffs u (requestedDesign kind s) (bqCtlConfigured (kindCode kind)) s t := by
  have hnotFailed : ∀ e, exec (.bqdsn u kind) s ≠ commandError (.bqdsn u kind) e s := by
    intro e he
    obtain ⟨t', ht', -, hcleared, -⟩ := commandError_failed (.bqdsn u kind) e s
    cases (ht'.symm.trans he.symm).trans ht
    rw [hcleared _ List.mem_cons_self] at hvalid
    exact Bool.false_ne_true ((ctlValid_invalidated _).symm.trans hvalid)
  cases hfs : fsNotSet s with
  | true => exact absurd (exec_bqdsn_of_no_rate hfs) (hnotFailed _)
  | false =>
    by_cases hpass : DesignPasses kind s
    · cases (exec_bqdsn_of_passes hfs hpass).symm.trans ht
      exact ⟨hpass.2, storesCoeffs_commit u _ _ s⟩
    · exact absurd (exec_bqdsn_of_not_passes hfs hpass) (hnotFailed _)

/-- Under P1 the amplitude of a gain of zero is 1.0 (R120). -/
theorem designAmplitude_of_zero (hP1 : P1) {g : Word} (hg : Fp.isZero g = true) : designAmplitude g = Fp.one := by
  have hone : Fp.isZero Fp.one = false := by decide
  rw [designAmplitude]
  rcases Fp.word_eq_of_isZero (Fp.isZero_div (b := Fp.forty) hg (by decide) (by decide)) with h | h <;> rw [h]
  · exact Fp.word_eq_of_eq hP1.1 hone
  · exact Fp.word_eq_of_eq hP1.2 hone

/-- At amplitude 1.0 the numerator of a peaking design is its denominator, unless its a0 is NaN (R121). -/
theorem peakingCoeffs_one (alpha cw : Word) (ha0 : Fp.isFinite (peakingCoeffs alpha Fp.one cw).a0 = true) :
    (peakingCoeffs alpha Fp.one cw).b0 = (peakingCoeffs alpha Fp.one cw).a0
      ∧ (peakingCoeffs alpha Fp.one cw).b1 = (peakingCoeffs alpha Fp.one cw).a1
      ∧ (peakingCoeffs alpha Fp.one cw).b2 = (peakingCoeffs alpha Fp.one cw).a2 := by
  have halpha : Fp.isNaN alpha = false := by
    rw [← Bool.not_eq_true]
    intro hnan
    have hdiv : Fp.isNaN (Fp.div alpha Fp.one) = true := (Fp.div_nanOrSigned alpha Fp.one).isNaN_iff.2 (.inl hnan)
    have hsum : Fp.isNaN (Fp.add Fp.one (Fp.div alpha Fp.one)) = true := (Fp.isNaN_add_iff _ _).2 (.inr (.inl hdiv))
    exact absurd (Fp.not_nan_of_finite ha0) (by simpa [peakingCoeffs] using hsum)
  simp only [peakingCoeffs, Fp.mul_one_eq_div_one halpha, and_self]

theorem requestedDesign_peaking_unity (hP1 : P1) {s : State} (hgain : Fp.isZero (s.reg .op2) = true)
    (ha0 : Fp.isFinite (requestedDesign .peaking s).a0 = true) :
    (requestedDesign .peaking s).b0 = (requestedDesign .peaking s).a0
      ∧ (requestedDesign .peaking s).b1 = (requestedDesign .peaking s).a1
      ∧ (requestedDesign .peaking s).b2 = (requestedDesign .peaking s).a2 := by
  simp only [requestedDesign, designCoeffs, rawCoeffs, designAmplitude_of_zero hP1 hgain] at ha0 ⊢
  exact peakingCoeffs_one _ _ ha0

/-! ## BQLD -/

theorem legalLoadOperands_iff (s : State) : legalLoadOperands (loadOperands s) = true ↔
    ∀ r ∈ [Reg.op0, .op1, .op2, .op3, .op4, .op5], Fp.isFinite (s.reg r) = true := by
  simp [legalLoadOperands, loadOperands, allFinite]

theorem legalQuotients_load_iff (s : State) :
    legalQuotients (loadOperands s).a0 (normalize (loadOperands s)) = true ↔
      Fp.isFinite (s.reg .op3) = true ∧ Fp.eq (s.reg .op3) 0 = false
        ∧ ∀ r ∈ [Reg.op0, .op1, .op2, .op4, .op5], Fp.isFinite (Fp.div (s.reg r) (s.reg .op3)) = true := by
  rw [legalQuotients_normalize_iff]
  simp [loadOperands]

theorem exec_bqld_of_legal {u : BqIndex} {s : State} (hops : legalLoadOperands (loadOperands s) = true)
    (hquot : legalQuotients (loadOperands s).a0 (normalize (loadOperands s)) = true) :
    exec (.bqld u) s = .next (commit (coeffWrites u (normalize (loadOperands s)) 0xF) s) := by
  have ha0 : Fp.eq (loadOperands s).a0 Fp.zero = false := ((legalQuotients_normalize_iff _).1 hquot).2.1
  simp only [exec, execBqld, hops, ha0, hquot]
  rfl

theorem exec_bqld_of_illegal {u : BqIndex} {s : State} (h : ¬(legalLoadOperands (loadOperands s) = true
    ∧ legalQuotients (loadOperands s).a0 (normalize (loadOperands s)) = true)) :
    exec (.bqld u) s = commandError (.bqld u) .invalidParameter s := by
  simp only [exec, execBqld]
  split
  next => rfl
  next hops =>
    simp only [Bool.or_eq_true, not_or, Bool.not_eq_true', Bool.not_eq_false] at hops
    exact if_pos (by simpa [hops.1] using h)

/-! ## BQSTEP and BQCLR -/

/-- The writes of BQSTEP on the sample `x` (R130). -/
def stepWrites (u : BqIndex) (x : Word) (s : State) : List (Reg × Word) :=
  [(.bq u .x2, s.reg (.bq u .x1)), (.bq u .x1, x), (.bq u .y2, s.reg (.bq u .y1)), (.bq u .y1, bqOutput u x s),
    (.res0, bqOutput u x s)]

theorem exec_bqstep_of_valid {u : BqIndex} {s : State} (hvalid : ctlValid (s.reg (.bq u .ctl)) = true)
    (hx : Fp.isFinite (s.reg .op0) = true) :
    exec (.bqstep u) s = .next (commitResults (stepWrites u (s.reg .op0) s) s) := by
  simp only [exec, execBqstep, hvalid, hx]
  rfl

theorem reg_commitResults_stepWrites (u : BqIndex) (x : Word) (s : State) :
    let t := commitResults (stepWrites u x s) s
    t.reg (.bq u .x2) = s.reg (.bq u .x1) ∧ t.reg (.bq u .x1) = x ∧ t.reg (.bq u .y2) = s.reg (.bq u .y1)
      ∧ t.reg (.bq u .y1) = bqOutput u x s ∧ t.reg .res0 = bqOutput u x s := by
  have hread : ∀ {r v}, r ≠ .status → (r, v) ∈ stepWrites u x s → (commitResults (stepWrites u x s) s).reg r = v :=
    fun hr hm => (reg_commitResults hr).trans (reg_commit_writtenBy (i := .bqstep u) rfl hm)
  refine ⟨hread ?_ ?_, hread ?_ ?_, hread ?_ ?_, hread ?_ ?_, hread ?_ ?_⟩ <;> simp [stepWrites]

theorem status_commitResults_stepWrites (u : BqIndex) (x : Word) (s : State) :
    (commitResults (stepWrites u x s) s).status
      = resultStatus s [s.reg (.bq u .x1), x, s.reg (.bq u .y1), bqOutput u x s] := by
  rw [commitResults_status, statusAfterResults_eq]
  simp [stepWrites, resultStatus]

/-- The writes of BQCLR (R131). -/
def clearWrites (u : BqIndex) : List (Reg × Word) :=
  [(.bq u .x1, Fp.zero), (.bq u .x2, Fp.zero), (.bq u .y1, Fp.zero), (.bq u .y2, Fp.zero)]

theorem exec_bqclr (u : BqIndex) (s : State) : exec (.bqclr u) s = .next (commit (clearWrites u) s) := rfl

/-- Zero taps and a zero sample give a zero, whatever the finite coefficients (R130). -/
theorem isZero_bqOutput {u : BqIndex} {x : Word} {s : State}
    (hcoeffs : ∀ r ∈ [BqReg.b0, .b1, .b2, .a1, .a2], Fp.isFinite (s.reg (.bq u r)) = true)
    (htaps : ∀ r ∈ [BqReg.x1, .x2, .y1, .y2], Fp.isZero (s.reg (.bq u r)) = true) (hx : Fp.isZero x = true) :
    Fp.isZero (bqOutput u x s) = true := by
  simp only [List.forall_mem_cons] at hcoeffs htaps
  obtain ⟨hb0, hb1, hb2, ha1, ha2, -⟩ := hcoeffs
  obtain ⟨hx1, hx2, hy1, hy2, -⟩ := htaps
  have hacc0 := Fp.isZero_mul hb0 hx
  have hacc1 := Fp.isZero_add hacc0 (Fp.isZero_mul hb1 hx1)
  have hacc2 := Fp.isZero_add hacc1 (Fp.isZero_mul hb2 hx2)
  have hacc3 := Fp.isZero_sub hacc2 (Fp.isZero_mul ha1 hy1)
  exact Fp.isZero_sub hacc3 (Fp.isZero_mul ha2 hy2)

end Sys2Proof.Machine

open Sys2Proof.Machine Sys2Proof.Safety

/-- Settles O6: kind by kind the formulas of R120 and R121 are those of the requested design. -/
theorem bqdsnStoresTheDesign : Obligations.BqdsnStoresTheDesign := by
  intro u kind s fs f q g hfs hf hf0 hnyquist hq hq0 hg
  have hops := (legalDesignOperands_iff fs f q g).2 ⟨hf, hf0, hnyquist, hq, hq0, hg⟩
  obtain ⟨t, ht, hstores, hfails⟩ := exec_bqdsn_stores_or_fails u kind (s := s) hfs hops
  rw [legalQuotients_normalize_iff] at hstores hfails
  cases kind
  all_goals
    refine ⟨t, ht, fun hpass => ?_, hfails⟩
    obtain ⟨hb0, hb1, hb2, ha1, ha2, hctl, hframe⟩ := hstores hpass
    exact ⟨hb0, hb1, hb2, rfl, ha1, ha2, hctl, hframe⟩

/-- Settles O7: every listed clause makes one of checks 1 to 4 fail. -/
theorem bqdsnRejectsIllegalOperands : Obligations.BqdsnRejectsIllegalOperands := by
  intro u kind s fs f q g
  refine ⟨fun hfs => ?_, fun hfs hillegal => ?_⟩
  · rw [exec_bqdsn_of_no_rate hfs]
    exact commandError_failed _ _ s
  · have hops := (legalDesignOperands_eq_false_iff fs f q g).2 hillegal
    rw [exec_bqdsn_of_not_passes hfs fun hpass => Bool.false_ne_true (hops.symm.trans hpass.1)]
    exact commandError_failed _ _ s

/-- Settles O8: the listed conditions are all that BQLD checks. -/
theorem bqldStoresTheQuotients : Obligations.BqldStoresTheQuotients := by
  intro u s a0 hops ha0 hquot
  have hlegal := (legalQuotients_load_iff s).2 ⟨hops .op3 (by decide), ha0, hquot⟩
  exact ⟨_, exec_bqld_of_legal ((legalLoadOperands_iff s).2 hops) hlegal, storesCoeffs_commit u (loadOperands s) 0xF s⟩

/-- Settles O9: every listed clause breaks a condition under which BQLD stores. -/
theorem bqldRejectsIllegalOperands : Obligations.BqldRejectsIllegalOperands := by
  intro u s hillegal
  rw [exec_bqld_of_illegal]
  · exact commandError_failed _ _ s
  rw [legalLoadOperands_iff, legalQuotients_load_iff]
  rintro ⟨hops, -, ha0, hquot⟩
  rcases hillegal with ⟨r, hr, hinf⟩ | hzero | ⟨r, hr, hinf⟩
  · exact Bool.false_ne_true (hinf.symm.trans (hops r hr))
  · exact Bool.false_ne_true (ha0.symm.trans hzero)
  · exact Bool.false_ne_true (hinf.symm.trans (hquot r hr))

/-- Settles O10, by the writes of BQSTEP. -/
theorem bqstepFiltersOneSample : Obligations.BqstepFiltersOneSample := by
  intro u s x x1 y1 acc0 acc1 acc2 acc3 y hvalid hx
  obtain ⟨hx2, hx1, hy2, hy1, hres⟩ := reg_commitResults_stepWrites u x s
  have hframe : Unchanged s (commitResults (stepWrites u x s) s)
      [.bq u .x1, .bq u .x2, .bq u .y1, .bq u .y2, .res0, .status] :=
    unchanged_mono (unchanged_commitResults _ s) (by simp [stepWrites])
  exact ⟨_, exec_bqstep_of_valid hvalid hx, hx2, hx1, hy2, hy1, hres, status_commitResults_stepWrites u x s, hframe⟩

/-- Settles O11, by the writes of BQCLR. -/
theorem bqclrClearsTheTaps : Obligations.BqclrClearsTheTaps := by
  intro u s
  have hread : ∀ {r v}, (r, v) ∈ clearWrites u → (commit (clearWrites u) s).reg r = v :=
    reg_commit_writtenBy (i := .bqclr u) rfl
  refine ⟨_, exec_bqclr u s, hread ?_, hread ?_, hread ?_, hread ?_, unchanged_commit (clearWrites u) s⟩ <;>
    simp [clearWrites, Fp.zero]

/-- Settles O56: a BQDSN that leaves VALID set has stored a design whose a0 is finite and not a zero, and at amplitude
1.0 its raw b0, b1, b2 are its a0, a1, a2. -/
theorem peakingAtZeroGainIsUnity : Obligations.PeakingAtZeroGainIsUnity := by
  intro hP1 u s t hgain ht hvalid
  obtain ⟨hquot, hb0, hb1, hb2, ha1, ha2, -⟩ := storesCoeffs_of_bqdsn_valid ht hvalid
  obtain ⟨hfinite, hnonzero, -⟩ := (legalQuotients_normalize_iff _).1 hquot
  rw [Fp.eq_zero_eq_isZero] at hgain hnonzero
  obtain ⟨h0, h1, h2⟩ := requestedDesign_peaking_unity hP1 hgain hfinite
  rw [hb0, hb1, hb2, ha1, ha2, h0, h1, h2]
  exact ⟨Fp.div_self_word hfinite hnonzero, rfl, rfl⟩

/-- Settles O57: every product is a zero, and so is every sum of zeros. -/
theorem biquadKeepsSilence : Obligations.BiquadKeepsSilence := by
  intro u s hvalid hcoeffs htaps hx
  simp only [Fp.eq_zero_eq_isZero] at htaps hx ⊢
  have hy := isZero_bqOutput hcoeffs htaps hx
  obtain ⟨-, -, -, -, hres⟩ := reg_commitResults_stepWrites u (s.reg .op0) s
  refine ⟨_, exec_bqstep_of_valid hvalid (Fp.finite_of_zero hx), by rwa [hres], ?_⟩
  have hx1 := htaps .x1 (by decide)
  have hy1 := htaps .y1 (by decide)
  rw [State.reg_status, status_commitResults_stepWrites, resultStatus, if_pos, State.reg_status]
  simp [Fp.finite_of_zero, hx, hx1, hy1, hy]
end

section
/-! What changes a register: the commands that may write it and the host's write to it. From it, what changes a tap of a
biquad slot (R128), and that the results of a stream through a slot depend on the slot alone (R129). -/

namespace Sys2Proof.Machine

open Sys2Proof.Safety

/-! ## What changes a register -/

theorem mem_mayChange_of_exec_changes {i : Instr} {s t : State} {r : Reg} (hi : i ≠ .reset) (ht : exec i s = .next t)
    (hne : t.reg r ≠ s.reg r) : r ∈ mayChange i := by
  obtain ⟨t', ht', hframe, -⟩ := exec_frame s hi
  cases ht'.symm.trans ht
  by_contra hm
  exact hne (hframe r hm)

/-- A host write that changes a register outside the latch is a command, or a write to that register. -/
theorem serveWrite_changes_reg {a : RegIndex} {v : Word} {s t : State} {r : Reg} (hstatus : r ≠ .status)
    (herrcmd : r ≠ .errcmd) (ht : serveWrite a v s = .next t) (hne : t.reg r ≠ s.reg r) :
    (a = 0x000 ∧ ∃ i, v = encode i ∧ exec i s = .next t) ∨ a = r.index := by
  rcases serveWrite_cases a v s with ⟨ha, i, hi, he⟩ | ⟨-, -, he⟩ | ⟨q, ha, -, he⟩ | ⟨-, he⟩
  · exact .inl ⟨(index_of_regAt ha).symm, i, eq_encode_of_decode hi, he.symm.trans ht⟩
  · cases he.symm.trans ht
    exact absurd (reg_raise_of_ne hstatus herrcmd) hne
  · cases he.symm.trans ht
    have hq : r = q := by
      by_contra hq
      exact hne (State.reg_setReg_ne v hq)
    exact .inr (hq ▸ (index_of_regAt ha).symm)
  · cases he.symm.trans ht
    exact absurd (reg_raise_of_ne hstatus herrcmd) hne

/-- A step that changes a register outside the latch serves a command, or a host write to that register. -/
theorem step_changes_reg {s t : State} {r : Reg} (hstatus : r ≠ .status) (herrcmd : r ≠ .errcmd)
    (ht : step s = .next t) (hne : t.reg r ≠ s.reg r) : ∃ a rest, s.pending = a :: rest
      ∧ ((∃ i, a = .write 0x000 (encode i) ∧ exec i { s with pending := rest } = .next t)
        ∨ ∃ v, a = .write r.index v) := by
  rcases step_cases s with ⟨-, he⟩ | ⟨a, rest, -, he⟩ | ⟨a, v, rest, hp, he⟩
  · cases he.symm.trans ht
    exact absurd rfl hne
  · cases he.symm.trans ht
    exact absurd ((State.reg_with_reads _ _ r).trans (State.reg_with_pending s rest r)) hne
  · refine ⟨_, rest, hp, ?_⟩
    rw [← State.reg_with_pending s rest r] at hne
    rcases serveWrite_changes_reg hstatus herrcmd (he.symm.trans ht) hne with ⟨rfl, i, rfl, hi⟩ | rfl
    · exact .inl ⟨i, rfl, hi⟩
    · exact .inr ⟨v, rfl⟩

/-! ## What changes a biquad slot -/

theorem bq_not_mem_mayChange {i : Instr} {u : BqIndex} (h : commandTouchesBq u i = false) (r : BqReg) :
    .bq u r ∉ mayChange i := by
  cases i with
  | bqdsn v k | bqld v | bqstep v | bqclr v =>
    have hv : u ≠ v := fun he => by simp [commandTouchesBq, he] at h
    simp [mayChange, validBitsOf, writtenBy, hv]
  | _ => simp [mayChange, validBitsOf, writtenBy]

/-- BQSTEP and BQCLR of its slot are the commands apart from RESET that may change a tap (R128). -/
theorem eq_of_tap_mem_mayChange {i : Instr} {u : BqIndex} {r : BqReg} (hr : r = .x1 ∨ r = .x2 ∨ r = .y1 ∨ r = .y2)
    (hm : .bq u r ∈ mayChange i) : i = .bqstep u ∨ i = .bqclr u := by
  cases i with
  | bqstep v | bqclr v =>
    have hv : v = u := by
      by_contra hv
      exact bq_not_mem_mayChange (by simp [commandTouchesBq, hv]) r hm
    simp [hv]
  | bqdsn v k | bqld v => rcases hr with rfl | rfl | rfl | rfl <;> simp [mayChange, validBitsOf, writtenBy] at hm
  | _ => simp [mayChange, validBitsOf, writtenBy] at hm

theorem serveWrite_keeps_spared_slot {a : RegIndex} {v : Word} {s t : State} {u : BqIndex}
    (h : sparesBq u (.write a v) = true) (ht : serveWrite a v s = .next t) : t.bq.get u = s.bq.get u := by
  refine BqSlot.eq_of_reg fun r => ?_
  by_contra hne
  rcases serveWrite_changes_reg (r := .bq u r) (by simp) (by simp) ht hne with ⟨rfl, i, rfl, hi⟩ | rfl
  · have htouch : commandTouchesBq u i = false := by
      have hcmd : regAt 0x000 = some .cmd := rfl
      have hdecode : decode (encode i) = .instr i := decode_eq_instr_iff.2 rfl
      simpa only [sparesBq, hcmd, hdecode, Bool.not_eq_true'] using h
    have hreset : i ≠ .reset := by
      rintro rfl
      cases htouch
    exact bq_not_mem_mayChange htouch r (mem_mayChange_of_exec_changes hreset hi hne)
  · simp [sparesBq] at h

theorem serve_keeps_spared_slot {a : HostAccess} {s t : State} {u : BqIndex} (h : sparesBq u a = true)
    (ht : serve a s = .next t) : t.bq.get u = s.bq.get u := by
  cases a with
  | read a =>
    cases ht
    rfl
  | write a v => exact serveWrite_keeps_spared_slot h ht

theorem afterAccess_of_serve {a : HostAccess} {s t : State} (h : serve a s = .next t) : afterAccess a s = t := by
  rw [afterAccess, h]

theorem afterAccess_keeps_spared_slot {a : HostAccess} (s : State) {u : BqIndex} (h : sparesBq u a = true) :
    (afterAccess a s).bq.get u = s.bq.get u := by
  rw [afterAccess]
  split
  next t ht => exact serve_keeps_spared_slot h ht
  next => rfl
  next => rfl

theorem afterAccesses_keep_spared_slot {as : List HostAccess} (s : State) {u : BqIndex}
    (h : ∀ a ∈ as, sparesBq u a = true) : (afterAccesses as s).bq.get u = s.bq.get u := by
  induction as generalizing s with
  | nil => rfl
  | cons a as ih =>
    rw [List.forall_mem_cons] at h
    rw [afterAccesses, ih _ h.2, afterAccess_keeps_spared_slot s h.1]

/-! ## A stream of samples -/

/-- The output of R127 from the registers of the slot alone. -/
def BqSlot.output (p : BqSlot) (x : Word) : Word :=
  let acc2 := Fp.add (Fp.add (Fp.mul p.b0 x) (Fp.mul p.b1 p.x1)) (Fp.mul p.b2 p.x2)
  Fp.sub (Fp.sub acc2 (Fp.mul p.a1 p.y1)) (Fp.mul p.a2 p.y2)

theorem bqOutput_eq (u : BqIndex) (x : Word) (s : State) : bqOutput u x s = (s.bq.get u).output x := rfl

/-- The slot after one sample (R130). -/
def BqSlot.next (p : BqSlot) (x : Word) : BqSlot :=
  { p with x2 := p.x1, x1 := x, y2 := p.y1, y1 := p.output x }

/-- The outputs of a stream of samples. -/
def BqSlot.outputs (p : BqSlot) : List Word → List Word
  | [] => []
  | x :: xs => p.output x :: (p.next x).outputs xs

theorem BqSlot.outputs_append (p : BqSlot) (xs ys : List Word) :
    p.outputs (xs ++ ys) = p.outputs xs ++ (xs.foldl BqSlot.next p).outputs ys := by
  induction xs generalizing p with
  | nil => rfl
  | cons x xs ih => simp [BqSlot.outputs, ih]

theorem ctl_foldl_next (p : BqSlot) (xs : List Word) : (xs.foldl BqSlot.next p).ctl = p.ctl := by
  induction xs generalizing p with
  | nil => rfl
  | cons x xs ih => exact ih (p.next x)

theorem bq_commit_stepWrites (u : BqIndex) (x : Word) (s : State) :
    (commit (stepWrites u x s) s).bq = s.bq.set u ((s.bq.get u).next x) := by
  simp only [stepWrites, commit_cons, commit_nil, State.setReg, BqBank.get_set, BqBank.set_set, if_true, BqSlot.setReg]
  rfl

/-- What `bq u, x` of R103 reads and leaves in its slot. -/
theorem filterAccesses_singleton {u : BqIndex} {s : State} {x : Word} (hvalid : ctlValid (s.bq.get u).ctl = true)
    (hx : Fp.isFinite x = true) :
    (afterAccesses (filterAccesses u [x]) s).reads = s.reads ++ [(s.bq.get u).output x]
      ∧ (afterAccesses (filterAccesses u [x]) s).bq.get u = (s.bq.get u).next x := by
  have hstore : afterAccess (.write Reg.op0.index x) s = s.setReg .op0 x :=
    afterAccess_of_serve (serve_write_readWrite x s rfl)
  have hstep : afterAccess (.write Reg.cmd.index (encode (.bqstep u))) (s.setReg .op0 x)
      = commitResults (stepWrites u x (s.setReg .op0 x)) (s.setReg .op0 x) := by
    refine afterAccess_of_serve ((serve_write_cmd _ _).trans ?_)
    rw [writeCmd, decode_eq_instr_iff.2 rfl]
    exact exec_bqstep_of_valid hvalid hx
  obtain ⟨-, -, -, -, hres⟩ := reg_commitResults_stepWrites u x (s.setReg .op0 x)
  have hslot : (commitResults (stepWrites u x (s.setReg .op0 x)) (s.setReg .op0 x)).bq.get u
      = (s.bq.get u).next x := by
    rw [commitResults, bq_commit_stepWrites, BqBank.get_set, if_pos rfl]
    rfl
  have hrun : afterAccesses (filterAccesses u [x]) s = afterAccess (.read Reg.res0.index)
      (afterAccess (.write Reg.cmd.index (encode (.bqstep u))) (afterAccess (.write Reg.op0.index x) s)) := rfl
  rw [hrun, hstore, hstep, afterAccess_of_serve (serve_read _ _), peek_index, hres]
  exact ⟨by rw [commitResults_reads, State.setReg_reads]; rfl, hslot⟩

theorem filterAccesses_cons (u : BqIndex) (x : Word) (xs : List Word) (s : State) :
    afterAccesses (filterAccesses u (x :: xs)) s
      = afterAccesses (filterAccesses u xs) (afterAccesses (filterAccesses u [x]) s) := rfl

/-- The results and the slot a stream leaves are those of the slot alone. -/
theorem afterAccesses_filterAccesses {u : BqIndex} {s : State} {xs : List Word}
    (hvalid : ctlValid (s.bq.get u).ctl = true) (hxs : ∀ x ∈ xs, Fp.isFinite x = true) :
    (afterAccesses (filterAccesses u xs) s).reads = s.reads ++ (s.bq.get u).outputs xs
      ∧ (afterAccesses (filterAccesses u xs) s).bq.get u = xs.foldl BqSlot.next (s.bq.get u) := by
  induction xs generalizing s with
  | nil => exact ⟨(List.append_nil _).symm, rfl⟩
  | cons x xs ih =>
    rw [List.forall_mem_cons] at hxs
    obtain ⟨hreads, hslot⟩ := filterAccesses_singleton hvalid hxs.1
    have hvalid' : ctlValid ((afterAccesses (filterAccesses u [x]) s).bq.get u).ctl = true := by rwa [hslot]
    obtain ⟨ihreads, ihslot⟩ := ih hvalid' hxs.2
    rw [filterAccesses_cons, ihreads, ihslot, hreads, hslot]
    simp [BqSlot.outputs]

end Sys2Proof.Machine

open Sys2Proof.Machine Sys2Proof.Safety

/-- Settles O48, by the frame of every command and what a step that changes a register serves. -/
theorem tapsChangeOnlyByTheirCommands : Obligations.TapsChangeOnlyByTheirCommands := by
  refine ⟨fun i u s hi => ?_, fun s t u r hr ht hne => ?_⟩
  · obtain ⟨t, ht, hframe⟩ := exec_frame (i := i) s (by rcases hi with ⟨kind, rfl⟩ | rfl <;> simp)
    refine ⟨t, ht, unchanged_mono hframe ?_⟩
    rcases hi with ⟨kind, rfl⟩ | rfl <;> simp [mayChange, validBitsOf, writtenBy]
  · obtain ⟨a, rest, hp, ⟨i, rfl, hi⟩ | hwrite⟩ := step_changes_reg (r := .bq u r) (by simp) (by simp) ht hne
    · refine ⟨_, rest, hp, ?_⟩
      by_cases hreset : i = .reset
      · exact .inr (.inr (.inl (hreset ▸ rfl)))
      · rcases eq_of_tap_mem_mayChange hr (mem_mayChange_of_exec_changes hreset hi hne) with rfl | rfl
        · exact .inl rfl
        · exact .inr (.inl rfl)
    · exact ⟨a, rest, hp, .inr (.inr (.inr hwrite))⟩

/-- Settles O58: the accesses between the parts leave the slot, on which alone the results of the second depend. -/
theorem biquadStreamingEquivalence : Obligations.BiquadStreamingEquivalence := by
  intro u s xs ys between hvalid hfinite hspares whole first second
  rw [List.forall_mem_append] at hfinite
  obtain ⟨hwreads, hwslot⟩ := afterAccesses_filterAccesses (s := { s with reads := [] }) (u := u) (xs := xs ++ ys)
    hvalid (List.forall_mem_append.2 hfinite)
  obtain ⟨hfreads, hfslot⟩ := afterAccesses_filterAccesses (s := { s with reads := [] }) (u := u) hvalid hfinite.1
  have hbetween : (afterAccesses between first).bq.get u = xs.foldl BqSlot.next (s.bq.get u) :=
    (afterAccesses_keep_spared_slot first hspares).trans hfslot
  have hvalid' : ctlValid ((afterAccesses between first).bq.get u).ctl = true := by
    rw [hbetween, ctl_foldl_next]
    exact hvalid
  obtain ⟨hsreads, hsslot⟩ := afterAccesses_filterAccesses (s := { afterAccesses between first with reads := [] })
    (u := u) hvalid' hfinite.2
  rw [hwreads, hwslot, hfreads, hsreads, hsslot, hbetween, BqSlot.outputs_append, List.foldl_append]
  exact ⟨rfl, rfl⟩
end

section
/-! The smoother commands (R150 to R152, R155 to R158): what each checks, and what it writes where it completes. -/

namespace Sys2Proof.Machine

open Sys2Proof.Safety

/-! ## What a configuration checks and stores -/

theorem finitePositive_iff (v : Word) : finitePositive v = true ↔ Fp.isFinite v = true ∧ Fp.gt v 0 = true := by
  simp [finitePositive, Fp.zero]

theorem legalCoefficient_iff (a : Word) : legalCoefficient a = true ↔ Fp.ge a 0 = true ∧ Fp.le a Fp.one = true := by
  simp [legalCoefficient, Fp.zero]

/-- `t` is `s` with the coefficients `aa` and `ar` in slot `e` and its VALID set, PREV as before (R153, R155, R156). -/
def StoresSmoother (e : EnvIndex) (aa ar : Word) (s t : State) : Prop :=
  t.reg (.env e .aatt) = aa ∧ t.reg (.env e .arel) = ar ∧ t.reg (.env e .ctl) = 1
    ∧ Unchanged s t [.env e .aatt, .env e .arel, .env e .ctl]

theorem storesSmoother_commit (e : EnvIndex) (aa ar : Word) (s : State) :
    StoresSmoother e aa ar s (commit (envWrites e aa ar) s) := by
  have hread : ∀ {r v}, (r, v) ∈ envWrites e aa ar → (commit (envWrites e aa ar) s).reg r = v :=
    reg_commit_writtenBy (i := .envld e) rfl
  refine ⟨hread ?_, hread ?_, hread ?_, unchanged_commit _ s⟩ <;> simp [envWrites, ctlConfigured]

/-! ## ENVCFG -/

theorem exec_envcfg_of_no_rate {e : EnvIndex} {s : State} (hfs : fsNotSet s = true) :
    exec (.envcfg e) s = commandError (.envcfg e) .notConfigured s := by
  simp only [exec, execEnvcfg, hfs, if_true]

/-- The coefficient of the time constant in register `r` (R151). -/
def requestedCoef (r : Reg) (s : State) : Word := coef (s.reg .fs) (s.reg r)

/-- Both times and their coefficients pass the checks of R151. -/
def TimesPass (s : State) : Prop :=
  ∀ r ∈ [Reg.op0, .op1], finitePositive (s.reg r) = true ∧ legalCoefficient (requestedCoef r s) = true

theorem exec_envcfg_of_passes {e : EnvIndex} {s : State} (hfs : fsNotSet s = false) (h : TimesPass s) :
    exec (.envcfg e) s = .next (commit (envWrites e (requestedCoef .op0 s) (requestedCoef .op1 s)) s) := by
  obtain ⟨htatt, haa⟩ := h .op0 (by decide)
  obtain ⟨htrel, har⟩ := h .op1 (by decide)
  rw [requestedCoef] at haa har
  simp only [exec, execEnvcfg, hfs, htatt, htrel, haa, har]
  rfl

theorem exec_envcfg_of_not_passes {e : EnvIndex} {s : State} (hfs : fsNotSet s = false) (h : ¬TimesPass s) :
    exec (.envcfg e) s = commandError (.envcfg e) .invalidParameter s := by
  simp only [exec, execEnvcfg]
  split_ifs with hrate htimes hcoefs
  · simp [hrate] at hfs
  · rfl
  · rfl
  · simp only [Bool.or_eq_true, not_or, Bool.not_eq_true', Bool.not_eq_false] at htimes hcoefs
    exact absurd (by simp [TimesPass, requestedCoef, htimes, hcoefs]) h

/-! ## ENVLD -/

theorem exec_envld_of_legal {e : EnvIndex} {s : State}
    (h : ∀ r ∈ [Reg.op0, .op1], legalCoefficient (s.reg r) = true) :
    exec (.envld e) s = .next (commit (envWrites e (s.reg .op0) (s.reg .op1)) s) := by
  simp only [exec, execEnvld, h .op0 (by decide), h .op1 (by decide)]
  rfl

theorem exec_envld_of_illegal {e : EnvIndex} {s : State}
    (h : ¬∀ r ∈ [Reg.op0, .op1], legalCoefficient (s.reg r) = true) :
    exec (.envld e) s = commandError (.envld e) .invalidParameter s := by
  simp only [exec, execEnvld]
  split_ifs with hcoefs
  · rfl
  · simp only [Bool.or_eq_true, not_or, Bool.not_eq_true', Bool.not_eq_false] at hcoefs
    exact absurd (by simp [hcoefs]) h

/-! ## ENVSTEP and ENVCLR -/

/-- The writes of ENVSTEP on the target `x` (R157). -/
def smoothWrites (e : EnvIndex) (x : Word) (s : State) : List (Reg × Word) :=
  [(.env e .prev, smooth e x s), (.res0, smooth e x s)]

theorem exec_envstep_of_valid {e : EnvIndex} {s : State} (hvalid : ctlValid (s.reg (.env e .ctl)) = true)
    (hx : Fp.isFinite (s.reg .op0) = true) :
    exec (.envstep e) s = .next (commitResults (smoothWrites e (s.reg .op0) s) s) := by
  simp only [exec, execEnvstep, hvalid, hx]
  rfl

theorem reg_commitResults_smoothWrites (e : EnvIndex) (x : Word) (s : State) :
    (commitResults (smoothWrites e x s) s).reg (.env e .prev) = smooth e x s
      ∧ (commitResults (smoothWrites e x s) s).reg .res0 = smooth e x s := by
  have hread : ∀ {r v}, r ≠ .status → (r, v) ∈ smoothWrites e x s →
      (commitResults (smoothWrites e x s) s).reg r = v :=
    fun hr hm => (reg_commitResults hr).trans (reg_commit_writtenBy (i := .envstep e) rfl hm)
  refine ⟨hread ?_ ?_, hread ?_ ?_⟩ <;> simp [smoothWrites]

theorem status_commitResults_smoothWrites (e : EnvIndex) (x : Word) (s : State) :
    (commitResults (smoothWrites e x s) s).status = resultStatus s [smooth e x s] := by
  rw [commitResults_status, statusAfterResults_eq]
  simp [smoothWrites, resultStatus]

theorem exec_envclr (e : EnvIndex) (s : State) : exec (.envclr e) s = .next (s.setReg (.env e .prev) 0) := rfl

end Sys2Proof.Machine

open Sys2Proof.Machine Sys2Proof.Safety

/-- Settles O12: with legal times the coefficients alone decide whether the checks of R151 pass. -/
theorem envcfgStoresTheCoefficients : Obligations.EnvcfgStoresTheCoefficients := by
  intro e s fs ta tr aa ar pass hfs hta hta0 htr htr0
  have hpass : TimesPass s ↔ pass := by
    have hatt : finitePositive (s.reg .op0) = true := (finitePositive_iff _).2 ⟨hta, hta0⟩
    have hrel : finitePositive (s.reg .op1) = true := (finitePositive_iff _).2 ⟨htr, htr0⟩
    simp only [TimesPass, List.forall_mem_cons, List.not_mem_nil, false_implies, implies_true, hatt, hrel,
      legalCoefficient_iff, true_and, and_true, and_assoc]
    rfl
  by_cases h : TimesPass s
  · exact ⟨_, exec_envcfg_of_passes hfs h, fun _ => storesSmoother_commit e _ _ s, fun hn => absurd (hpass.1 h) hn⟩
  · obtain ⟨t, ht, hfailed⟩ := commandError_failed (.envcfg e) .invalidParameter s
    exact ⟨t, (exec_envcfg_of_not_passes hfs h).trans ht, fun hp => absurd (hpass.2 hp) h, fun _ => hfailed⟩

/-- Settles O13: the listed conditions are all that ENVLD checks. -/
theorem envldStoresTheCoefficients : Obligations.EnvldStoresTheCoefficients := by
  intro e s hlegal
  have hcoefs : ∀ r ∈ [Reg.op0, .op1], legalCoefficient (s.reg r) = true :=
    fun r hr => (legalCoefficient_iff _).2 (hlegal r hr)
  exact ⟨_, exec_envld_of_legal hcoefs, storesSmoother_commit e _ _ s⟩

/-- Settles O14: every listed clause makes a check of R151 or R156 fail. -/
theorem smootherConfigurationRejectsIllegalOperands : Obligations.SmootherConfigurationRejectsIllegalOperands := by
  refine fun e s => ⟨fun hfs => ?_, fun hfs ⟨r, hr, hillegal⟩ => ?_, fun ⟨r, hr, hillegal⟩ => ?_⟩
  · rw [exec_envcfg_of_no_rate hfs]
    exact commandError_failed _ _ s
  · have hnot : ¬TimesPass s := by
      intro h
      obtain ⟨hfinite, hpos⟩ := (finitePositive_iff _).1 (h r hr).1
      rcases hillegal with hbad | hbad
      · exact Bool.false_ne_true (hbad.symm.trans hfinite)
      · exact Bool.false_ne_true (hbad.symm.trans hpos)
    rw [exec_envcfg_of_not_passes hfs hnot]
    exact commandError_failed _ _ s
  · have hnot : ¬∀ r ∈ [Reg.op0, .op1], legalCoefficient (s.reg r) = true := by
      intro h
      obtain ⟨hlow, hhigh⟩ := (legalCoefficient_iff _).1 (h r hr)
      rcases hillegal with hbad | hbad
      · exact Bool.false_ne_true (hbad.symm.trans hlow)
      · exact Bool.false_ne_true (hbad.symm.trans hhigh)
    rw [exec_envld_of_illegal hnot]
    exact commandError_failed _ _ s

/-- Settles O15, by the writes of ENVSTEP. -/
theorem envstepSmoothsOneTarget : Obligations.EnvstepSmoothsOneTarget := by
  intro e s x p a v hvalid hx
  obtain ⟨hprev, hres⟩ := reg_commitResults_smoothWrites e x s
  have hframe : Unchanged s (commitResults (smoothWrites e x s) s) [.env e .prev, .res0, .status] :=
    unchanged_mono (unchanged_commitResults _ s) (by simp [smoothWrites])
  exact ⟨_, exec_envstep_of_valid hvalid hx, hprev, hres, status_commitResults_smoothWrites e x s, hframe⟩

/-- Settles O16: ENVCLR writes one register. -/
theorem envclrClearsThePreviousValue : Obligations.EnvclrClearsThePreviousValue :=
  fun e s => ⟨_, exec_envclr e s, State.reg_setReg_same 0 rfl, unchanged_setReg s (.env e .prev) 0⟩
end

section
/-! What changes a smoother slot: the commands that may write its PREV (R153), and that the results of a stream of
targets depend on the slot alone (R159). -/

namespace Sys2Proof.Machine

open Sys2Proof.Safety

/-! ## What changes a smoother slot -/

theorem env_not_mem_mayChange {i : Instr} {e : EnvIndex} (h : commandTouchesEnv e i = false) (r : EnvReg) :
    .env e r ∉ mayChange i := by
  cases i with
  | envcfg f | envld f | envstep f | envclr f =>
    have hf : e ≠ f := fun he => by simp [commandTouchesEnv, he] at h
    simp [mayChange, validBitsOf, writtenBy, hf]
  | vcacfg | vcastep | optcfg | optstep =>
    simp only [commandTouchesEnv, beq_eq_false_iff_ne] at h
    simp [mayChange, validBitsOf, writtenBy, h]
  | _ => simp [mayChange, validBitsOf, writtenBy]

/-- The commands apart from RESET that may change a PREV (R54, R153). -/
theorem eq_of_prev_mem_mayChange {i : Instr} {e : EnvIndex} (hm : .env e .prev ∈ mayChange i) :
    i = .envstep e ∨ i = .envclr e ∨ (e = 4 ∧ i = .vcastep) ∨ (e = 5 ∧ i = .optstep) := by
  cases i with
  | envstep f | envclr f | vcastep | optstep => simpa [mayChange, validBitsOf, writtenBy, eq_comm] using hm
  | _ => simp [mayChange, validBitsOf, writtenBy] at hm

theorem prev_not_mem_mayChange_of_isConfiguration {i : Instr} (hi : isConfiguration i = true) (e : EnvIndex) :
    .env e .prev ∉ mayChange i := by
  intro hm
  rcases eq_of_prev_mem_mayChange hm with rfl | rfl | ⟨-, rfl⟩ | ⟨-, rfl⟩ <;> cases hi

/-- An access that changes a register outside the latch is a command, or a write to that register. -/
theorem afterAccess_changes_reg {a : HostAccess} {s : State} {r : Reg} (hstatus : r ≠ .status) (herrcmd : r ≠ .errcmd)
    (hne : (afterAccess a s).reg r ≠ s.reg r) :
    (∃ i, a = .write 0x000 (encode i) ∧ exec i s = .next (afterAccess a s)) ∨ ∃ v, a = .write r.index v := by
  cases a with
  | read b => exact absurd (State.reg_with_reads s _ r) hne
  | write b v =>
    have hserve : serveWrite b v s = .next (afterAccess (.write b v) s) := by
      rw [afterAccess] at hne ⊢
      split at hne
      next t ht => exact ht
      next => exact absurd rfl hne
      next => exact absurd rfl hne
    rcases serveWrite_changes_reg hstatus herrcmd hserve hne with ⟨rfl, i, rfl, hi⟩ | rfl
    · exact .inl ⟨i, rfl, hi⟩
    · exact .inr ⟨v, rfl⟩

theorem sparesEnv_command (e : EnvIndex) (i : Instr) :
    sparesEnv e (.write 0x000 (encode i)) = !commandTouchesEnv e i := by
  have hcmd : regAt 0x000 = some .cmd := rfl
  have hdecode : decode (encode i) = .instr i := decode_eq_instr_iff.2 rfl
  simp only [sparesEnv, hcmd, hdecode]

theorem sparesEnv_own_register (e : EnvIndex) (r : EnvReg) (v : Word) :
    sparesEnv e (.write (Reg.env e r).index v) = false := by
  simp [sparesEnv]

theorem afterAccess_keeps_spared_smoother {a : HostAccess} (s : State) {e : EnvIndex} (h : sparesEnv e a = true) :
    (afterAccess a s).env.get e = s.env.get e := by
  refine EnvSlot.eq_of_reg fun r => ?_
  by_contra hne
  rcases afterAccess_changes_reg (r := .env e r) (by simp) (by simp) hne with ⟨i, rfl, hi⟩ | ⟨v, rfl⟩
  · have htouch : commandTouchesEnv e i = false := by simpa only [sparesEnv_command, Bool.not_eq_true'] using h
    have hreset : i ≠ .reset := by
      rintro rfl
      cases htouch
    exact env_not_mem_mayChange htouch r (mem_mayChange_of_exec_changes hreset hi hne)
  · exact Bool.false_ne_true ((sparesEnv_own_register e r v).symm.trans h)

theorem afterAccesses_keep_spared_smoother {as : List HostAccess} (s : State) {e : EnvIndex}
    (h : ∀ a ∈ as, sparesEnv e a = true) : (afterAccesses as s).env.get e = s.env.get e := by
  induction as generalizing s with
  | nil => rfl
  | cons a as ih =>
    rw [List.forall_mem_cons] at h
    rw [afterAccesses, ih _ h.2, afterAccess_keeps_spared_smoother s h.1]

/-! ## A stream of targets -/

theorem afterAccesses_append (as bs : List HostAccess) (s : State) :
    afterAccesses (as ++ bs) s = afterAccesses bs (afterAccesses as s) := by
  induction as generalizing s with
  | nil => rfl
  | cons a as ih => exact ih _

/-- The smoothed value of R150 from the registers of the slot alone. -/
def EnvSlot.smoothed (p : EnvSlot) (x : Word) : Word :=
  let a := if Fp.gt x p.prev then p.aatt else p.arel
  Fp.add (Fp.mul a p.prev) (Fp.mul (Fp.sub Fp.one a) x)

theorem smooth_eq (e : EnvIndex) (x : Word) (s : State) : smooth e x s = (s.env.get e).smoothed x := rfl

theorem env_commitResults_smoothWrites (e : EnvIndex) (x : Word) (s : State) :
    (commitResults (smoothWrites e x s) s).env.get e = { s.env.get e with prev := (s.env.get e).smoothed x } := by
  have henv : (commitResults (smoothWrites e x s) s).env
      = s.env.set e ((s.env.get e).setReg .prev (smooth e x s)) := rfl
  rw [henv, EnvBank.get_set, if_pos rfl, smooth_eq]
  rfl

/-- What `env e, t` of R103 reads and leaves in its slot. -/
theorem smoothAccesses_singleton {e : EnvIndex} {s : State} {x : Word} (hvalid : ctlValid (s.env.get e).ctl = true)
    (hx : Fp.isFinite x = true) :
    (afterAccesses (smoothAccesses e [x]) s).reads = s.reads ++ [(s.env.get e).smoothed x]
      ∧ (afterAccesses (smoothAccesses e [x]) s).env.get e
        = { s.env.get e with prev := (s.env.get e).smoothed x } := by
  have hstore : afterAccess (.write Reg.op0.index x) s = s.setReg .op0 x :=
    afterAccess_of_serve (serve_write_readWrite x s rfl)
  have hstep : afterAccess (.write Reg.cmd.index (encode (.envstep e))) (s.setReg .op0 x)
      = commitResults (smoothWrites e x (s.setReg .op0 x)) (s.setReg .op0 x) := by
    refine afterAccess_of_serve ((serve_write_cmd _ _).trans ?_)
    rw [writeCmd, decode_eq_instr_iff.2 rfl]
    exact exec_envstep_of_valid hvalid hx
  have hrun : afterAccesses (smoothAccesses e [x]) s = afterAccess (.read Reg.res0.index)
      (afterAccess (.write Reg.cmd.index (encode (.envstep e))) (afterAccess (.write Reg.op0.index x) s)) := rfl
  rw [hrun, hstore, hstep, afterAccess_of_serve (serve_read _ _), peek_index,
    (reg_commitResults_smoothWrites e x _).2]
  exact ⟨by rw [commitResults_reads, State.setReg_reads]; rfl, env_commitResults_smoothWrites e x _⟩

theorem smoothAccesses_append (e : EnvIndex) (xs ys : List Word) :
    smoothAccesses e (xs ++ ys) = smoothAccesses e xs ++ smoothAccesses e ys := List.flatMap_append

/-- Two states with the same configured slot read the same results of a stream and end with the same slot, still
configured. -/
theorem smoothAccesses_congr {e : EnvIndex} {s t : State} {xs : List Word} (hslot : s.env.get e = t.env.get e)
    (hvalid : ctlValid (s.env.get e).ctl = true) (hxs : ∀ x ∈ xs, Fp.isFinite x = true) :
    (∃ results, (afterAccesses (smoothAccesses e xs) s).reads = s.reads ++ results
        ∧ (afterAccesses (smoothAccesses e xs) t).reads = t.reads ++ results)
      ∧ (afterAccesses (smoothAccesses e xs) s).env.get e = (afterAccesses (smoothAccesses e xs) t).env.get e
      ∧ ctlValid ((afterAccesses (smoothAccesses e xs) s).env.get e).ctl = true := by
  induction xs generalizing s t with
  | nil => exact ⟨⟨[], (List.append_nil _).symm, (List.append_nil _).symm⟩, hslot, hvalid⟩
  | cons x xs ih =>
    rw [List.forall_mem_cons] at hxs
    obtain ⟨hsreads, hsslot⟩ := smoothAccesses_singleton hvalid hxs.1
    obtain ⟨htreads, htslot⟩ := smoothAccesses_singleton (hslot ▸ hvalid) hxs.1
    rw [← hslot] at htreads htslot
    obtain ⟨⟨results, hs, ht⟩, hend⟩ := ih (hsslot.trans htslot.symm) (by rwa [hsslot]) hxs.2
    have hsplit : ∀ q, afterAccesses (smoothAccesses e (x :: xs)) q
        = afterAccesses (smoothAccesses e xs) (afterAccesses (smoothAccesses e [x]) q) := fun _ => rfl
    rw [hsplit, hsplit]
    refine ⟨⟨(s.env.get e).smoothed x :: results, ?_, ?_⟩, hend⟩
    · rw [hs, hsreads, List.append_assoc, List.singleton_append]
    · rw [ht, htreads, List.append_assoc, List.singleton_append]

end Sys2Proof.Machine

open Sys2Proof.Machine Sys2Proof.Safety

/-- Settles O49, by the frame of every command and what a step that changes a register serves. -/
theorem previousValuesChangeOnlyByTheirCommands : Obligations.PreviousValuesChangeOnlyByTheirCommands := by
  refine ⟨fun i s hi => ?_, fun s t e ht hne => ?_⟩
  · obtain ⟨t, ht, hframe, -⟩ := exec_frame (i := i) s (by rintro rfl; cases hi)
    exact ⟨t, ht, fun e => hframe _ (prev_not_mem_mayChange_of_isConfiguration hi e)⟩
  · obtain ⟨a, rest, hp, ⟨i, rfl, hi⟩ | hwrite⟩ := step_changes_reg (r := .env e .prev) (by simp) (by simp) ht hne
    · refine ⟨_, rest, hp, ?_⟩
      by_cases hreset : i = .reset
      · exact .inr (.inr (.inr (.inr (.inl (hreset ▸ rfl)))))
      · rcases eq_of_prev_mem_mayChange (mem_mayChange_of_exec_changes hreset hi hne) with
          rfl | rfl | ⟨he, rfl⟩ | ⟨he, rfl⟩
        · exact .inl rfl
        · exact .inr (.inl rfl)
        · exact .inr (.inr (.inl ⟨he, rfl⟩))
        · exact .inr (.inr (.inr (.inl ⟨he, rfl⟩)))
    · exact ⟨a, rest, hp, .inr (.inr (.inr (.inr (.inr hwrite))))⟩

/-- Settles O59: the accesses between the parts leave the slot, so the second part reads what it reads at the end of
the first. -/
theorem smootherStreamingEquivalence : Obligations.SmootherStreamingEquivalence := by
  intro e s xs ys between hvalid hfinite hspares whole first second
  rw [List.forall_mem_append] at hfinite
  obtain ⟨-, -, hfirst⟩ := smoothAccesses_congr (s := { s with reads := [] }) rfl hvalid hfinite.1
  have hslot : first.env.get e = { afterAccesses between first with reads := [] }.env.get e :=
    (afterAccesses_keep_spared_smoother first hspares).symm
  obtain ⟨⟨results, hwreads, hsreads⟩, hend, -⟩ := smoothAccesses_congr hslot hfirst hfinite.2
  have hwhole : whole = afterAccesses (smoothAccesses e ys) first := by
    rw [← afterAccesses_append, ← smoothAccesses_append]
  rw [hwhole]
  exact ⟨by rw [hwreads, hsreads, List.nil_append], hend⟩
end

section
/-! Comparisons of two words that are not NaN, and the clamp of a word to a range (R13, R14). -/

namespace Sys2Proof.Machine.Fp

theorem le_eq_not_lt {a b : Word} (ha : isNaN a = false) (hb : isNaN b = false) : le a b = !lt b a := by
  simp [le, lt, ha, hb, ← decide_not]

theorem not_nan_of_lt {a b : Word} (h : lt a b = true) : isNaN a = false ∧ isNaN b = false := by
  simp only [lt, Bool.and_eq_true, Bool.not_eq_true'] at h
  exact h.1

theorem le_eq_false_of_lt {a b : Word} (h : lt a b = true) : le b a = false := by
  obtain ⟨ha, hb⟩ := not_nan_of_lt h
  rw [le_eq_not_lt hb ha, h, Bool.not_true]

theorem lt_word_of_le_of_lt {a b c : Word} (hab : le a b = true) (hbc : lt b c = true) : lt a c = true := by
  simp only [lt, le, Bool.and_eq_true, decide_eq_true_eq] at hab hbc ⊢
  exact ⟨⟨hab.1.1, hbc.1.2⟩, hab.2.trans_lt hbc.2⟩

theorem lt_word_of_lt_of_le {a b c : Word} (hab : lt a b = true) (hbc : le b c = true) : lt a c = true := by
  simp only [lt, le, Bool.and_eq_true, decide_eq_true_eq] at hab hbc ⊢
  exact ⟨⟨hab.1.1, hbc.1.2⟩, hab.2.trans_le hbc.2⟩

theorem lt_infinity_of_finite {a : Word} (h : isFinite a = true) : lt a 0x7FF0000000000000 = true := by
  have hkey : orderKey a < infBits := by
    have hmag : magBits a < infBits := of_decide_eq_true h
    rw [orderKey]
    split <;> omega
  rw [lt, not_nan_of_finite h]
  exact decide_eq_true hkey

theorem not_zero_of_pos {a : Word} (h : lt 0 a = true) : isZero a = false := by
  by_contra hzero
  rcases word_eq_of_isZero (Bool.not_eq_false _ ▸ hzero) with rfl | rfl <;> exact absurd h (by decide)

/-- A word that is not NaN is clamped into the range (R14). -/
theorem clamp_mem {v lo hi : Word} (hv : isNaN v = false) (hrange : le lo hi = true) :
    ge (clamp v lo hi) lo = true ∧ le (clamp v lo hi) hi = true := by
  obtain ⟨⟨hlo, hhi⟩, -⟩ : (isNaN lo = false ∧ isNaN hi = false) ∧ orderKey lo ≤ orderKey hi := by
    simpa [le] using hrange
  have hrefl : ∀ {w}, isNaN w = false → le w w = true := fun hw => by simp [le, hw]
  simp only [clamp, ge]
  split_ifs with hbelow habove
  · exact ⟨hrefl hlo, hrange⟩
  · exact ⟨hrange, hrefl hhi⟩
  · rw [le_eq_not_lt hlo hv, le_eq_not_lt hv hhi]
    simpa [gt] using And.intro hbelow habove

/-- The clamp passes a NaN through (R14). -/
theorem clamp_of_isNaN {v : Word} (lo hi : Word) (hv : isNaN v = true) : clamp v lo hi = v := by
  simp [clamp, gt, lt, hv]

theorem sub_self_word {a : Word} (ha : isFinite a = true) : sub a a = 0 := by
  rw [sub_eq_zero_word ha ha (sub_self _)]
  simp

end Sys2Proof.Machine.Fp
end

section
/-! The configuration of the gain computers (R171, R176, R183, R184, R186): what VCACFG and OPTCFG check, and what they
write where they complete. -/

namespace Sys2Proof.Machine

open Sys2Proof.Safety

/-! ## The checks -/

/-- The operands pass the parameter checks of R171 and R183. -/
def dynamicsOperandsLegal (s : State) : Bool :=
  legalDynamics (s.reg .op0) (s.reg .op1) (s.reg .op2) (s.reg .op3) (s.reg .op4)

theorem dynamicsOperandsLegal_iff (s : State) : dynamicsOperandsLegal s = true ↔
    (∀ r ∈ [Reg.op0, .op1, .op2, .op3, .op4], Fp.isFinite (s.reg r) = true) ∧ Fp.ge (s.reg .op1) Fp.one = true
      ∧ Fp.gt (s.reg .op2) 0 = true ∧ Fp.gt (s.reg .op3) 0 = true := by
  simp only [dynamicsOperandsLegal, legalDynamics, legalRatio, Bool.and_eq_true, finitePositive_iff,
    List.forall_mem_cons, List.not_mem_nil, false_implies, implies_true]
  tauto

theorem finiteNonNegative_iff (v : Word) :
    finiteNonNegative v = true ↔ Fp.isFinite v = true ∧ Fp.ge v 0 = true := by
  simp [finiteNonNegative, Fp.zero]

/-- The attack and the release coefficient pass the check of R151. -/
def CoefsPass (s : State) : Prop :=
  legalCoefficient (requestedCoef .op2 s) = true ∧ legalCoefficient (requestedCoef .op3 s) = true

/-- The linear threshold and makeup pass the check of R183. -/
def LinearPass (s : State) : Prop :=
  finiteNonNegative (decibelsToLinear (s.reg .op0)) = true ∧ finiteNonNegative (decibelsToLinear (s.reg .op4)) = true

/-! ## VCACFG and OPTCFG -/

theorem exec_dynamics_of_no_rate {i : Instr} {s : State} (hi : i = .vcacfg ∨ i = .optcfg) (hfs : fsNotSet s = true) :
    exec i s = commandError i .notConfigured s := by
  rcases hi with rfl | rfl
  · simp only [exec, execVcacfg, hfs, if_true]
  · simp only [exec, execOptcfg, hfs, if_true]

theorem exec_dynamics_of_illegal {i : Instr} {s : State} (hi : i = .vcacfg ∨ i = .optcfg) (hfs : fsNotSet s = false)
    (hops : dynamicsOperandsLegal s = false) : exec i s = commandError i .invalidParameter s := by
  rw [dynamicsOperandsLegal] at hops
  rcases hi with rfl | rfl
  · simp only [exec, execVcacfg, hfs, hops]
    rfl
  · simp only [exec, execOptcfg, hfs, hops]
    rfl

/-- The writes of VCACFG on its operands (R176). -/
def vcaConfigWrites (s : State) : List (Reg × Word) :=
  vcaWrites (s.reg .op0) (s.reg .op1) (s.reg .op4) ++ envWrites 4 (requestedCoef .op2 s) (requestedCoef .op3 s)

theorem exec_vcacfg_of_passes {s : State} (hfs : fsNotSet s = false) (hops : dynamicsOperandsLegal s = true)
    (h : CoefsPass s) : exec .vcacfg s = .next (commit (vcaConfigWrites s) s) := by
  obtain ⟨haa, har⟩ := h
  rw [requestedCoef] at haa har
  rw [dynamicsOperandsLegal] at hops
  simp only [exec, execVcacfg, hfs, hops, haa, har]
  rfl

theorem exec_vcacfg_of_not_passes {s : State} (hfs : fsNotSet s = false) (h : ¬CoefsPass s) :
    exec .vcacfg s = commandError .vcacfg .invalidParameter s := by
  simp only [exec, execVcacfg]
  split_ifs with hrate hops hcoefs
  · exact absurd (hfs.symm.trans hrate) Bool.false_ne_true
  · rfl
  · rfl
  · simp only [Bool.or_eq_true, not_or, Bool.not_eq_true', Bool.not_eq_false] at hcoefs
    exact absurd hcoefs h

/-- The writes of OPTCFG on its operands (R184, R186). -/
def optConfigWrites (s : State) : List (Reg × Word) :=
  optWrites (s.reg .op0) (s.reg .op1) (s.reg .op4) (decibelsToLinear (s.reg .op0)) (decibelsToLinear (s.reg .op4))
    ++ envWrites 5 (requestedCoef .op2 s) (requestedCoef .op3 s)

theorem exec_optcfg_of_passes {s : State} (hfs : fsNotSet s = false) (hops : dynamicsOperandsLegal s = true)
    (hlinear : LinearPass s) (hcoefs : CoefsPass s) : exec .optcfg s = .next (commit (optConfigWrites s) s) := by
  obtain ⟨htl, hml⟩ := hlinear
  obtain ⟨haa, har⟩ := hcoefs
  rw [requestedCoef] at haa har
  rw [dynamicsOperandsLegal] at hops
  simp only [exec, execOptcfg, hfs, hops, htl, hml, haa, har]
  rfl

theorem exec_optcfg_of_not_passes {s : State} (hfs : fsNotSet s = false) (h : ¬(LinearPass s ∧ CoefsPass s)) :
    exec .optcfg s = commandError .optcfg .invalidParameter s := by
  simp only [exec, execOptcfg]
  split_ifs with hrate hops hlinear hcoefs
  · exact absurd (hfs.symm.trans hrate) Bool.false_ne_true
  · rfl
  · rfl
  · rfl
  · simp only [Bool.or_eq_true, not_or, Bool.not_eq_true', Bool.not_eq_false] at hlinear hcoefs
    exact absurd ⟨hlinear, hcoefs⟩ h

/-- A configuration whose outcome turns on one check stores where the check passes and fails where it does not. -/
theorem stores_or_fails {i : Instr} {s : State} {pass : Prop} {ws : List (Reg × Word)} {Stores : State → Prop}
    (hpass : pass → exec i s = .next (commit ws s)) (hstores : Stores (commit ws s))
    (hnot : ¬pass → exec i s = commandError i .invalidParameter s) :
    ∃ t, exec i s = .next t ∧ (pass → Stores t) ∧ (¬pass → Failed i .invalidParameter s t) := by
  by_cases h : pass
  · exact ⟨_, hpass h, fun _ => hstores, fun hn => absurd h hn⟩
  · obtain ⟨t, ht, hfailed⟩ := commandError_failed i .invalidParameter s
    exact ⟨t, (hnot h).trans ht, fun hp => absurd hp h, fun _ => hfailed⟩

end Sys2Proof.Machine

open Sys2Proof.Machine Sys2Proof.Safety

/-- Settles O17: with FS set and legal operands the coefficients alone decide. -/
theorem vcacfgStoresTheParameters : Obligations.VcacfgStoresTheParameters := by
  intro s fs aa ar pass hfs hfinite hratio hatt hrel
  have hops := (dynamicsOperandsLegal_iff s).2 ⟨hfinite, hratio, hatt, hrel⟩
  have hpass : pass ↔ CoefsPass s := by
    simp only [CoefsPass, legalCoefficient_iff, and_assoc]
    rfl
  have hread : ∀ {r v}, (r, v) ∈ vcaConfigWrites s → (commit (vcaConfigWrites s) s).reg r = v :=
    reg_commit_writtenBy (i := .vcacfg) rfl
  refine stores_or_fails (fun h => exec_vcacfg_of_passes hfs hops (hpass.1 h))
    ⟨hread ?_, hread ?_, hread ?_, hread ?_, hread ?_, hread ?_, hread ?_, unchanged_commit (vcaConfigWrites s) s⟩
    (fun h => exec_vcacfg_of_not_passes hfs fun hc => h (hpass.2 hc))
  all_goals simp [vcaConfigWrites, vcaWrites, envWrites, ctlConfigured, requestedCoef, coef, aa, ar, fs]

/-- Settles O18: with FS set and legal operands the linear images and the coefficients decide. -/
theorem optcfgStoresTheParameters : Obligations.OptcfgStoresTheParameters := by
  intro s fs tl ml aa ar pass hfs hfinite hratio hatt hrel
  have hops := (dynamicsOperandsLegal_iff s).2 ⟨hfinite, hratio, hatt, hrel⟩
  have hpass : pass ↔ LinearPass s ∧ CoefsPass s := by
    simp only [LinearPass, CoefsPass, finiteNonNegative_iff, legalCoefficient_iff, and_assoc]
    rfl
  have hread : ∀ {r v}, (r, v) ∈ optConfigWrites s → (commit (optConfigWrites s) s).reg r = v :=
    reg_commit_writtenBy (i := .optcfg) rfl
  refine stores_or_fails (fun h => exec_optcfg_of_passes hfs hops (hpass.1 h).1 (hpass.1 h).2)
    ⟨hread ?_, hread ?_, hread ?_, hread ?_, hread ?_, hread ?_, hread ?_, hread ?_, hread ?_,
      unchanged_commit (optConfigWrites s) s⟩
    (fun h => exec_optcfg_of_not_passes hfs fun hc => h (hpass.2 hc))
  all_goals
    simp [optConfigWrites, optWrites, envWrites, ctlConfigured, requestedCoef, coef, decibelsToLinear, aa, ar, fs, tl,
      ml]

/-- Settles O19: every listed clause breaks a condition that legal operands meet. -/
theorem dynamicsConfigurationRejectsIllegalParameters : Obligations.DynamicsConfigurationRejectsIllegalParameters := by
  refine fun i s hi => ⟨fun hfs => ?_, fun hfs hillegal => ?_⟩
  · rw [exec_dynamics_of_no_rate hi hfs]
    exact commandError_failed _ _ s
  · have hops : dynamicsOperandsLegal s = false := by
      rw [← Bool.not_eq_true, dynamicsOperandsLegal_iff]
      rintro ⟨hfinite, hratio, hatt, hrel⟩
      rcases hillegal with ⟨r, hr, hbad⟩ | hbad | hbad | hbad
      · exact Bool.false_ne_true (hbad.symm.trans (hfinite r hr))
      · exact Bool.false_ne_true (hbad.symm.trans hratio)
      · exact Bool.false_ne_true (hbad.symm.trans hatt)
      · exact Bool.false_ne_true (hbad.symm.trans hrel)
    rw [exec_dynamics_of_illegal hi hfs hops]
    exact commandError_failed _ _ s
end

section
/-! The gain computers at work (R170, R172 to R174, R177 to R179, R181, R182, R185, R187, R188): what VCASTEP, VCAGR and
OPTSTEP write, and the range of the optical gain. -/

namespace Sys2Proof.Machine

open Sys2Proof.Safety

/-! ## Completed step and evaluation commands -/

/-- A register a step or evaluation command writes reads the value of its commit (R12). -/
theorem reg_commitResults_writtenBy {i : Instr} {ws : List (Reg × Word)} {s : State} {r : Reg} {v : Word}
    (hw : ws.map Prod.fst = writtenBy i) (hi : i ≠ .clrst) (hm : (r, v) ∈ ws) : (commitResults ws s).reg r = v := by
  have hmem : r ∈ writtenBy i := hw ▸ List.mem_map.2 ⟨_, hm, rfl⟩
  have hstatus : r ≠ .status := fun he => status_not_mem_writtenBy hi (he ▸ hmem)
  exact (reg_commitResults hstatus).trans (reg_commit_writtenBy hw hm)

theorem status_commitResults (ws : List (Reg × Word)) (s : State) :
    (commitResults ws s).status = resultStatus s (ws.map Prod.snd) := by
  rw [commitResults_status, statusAfterResults_eq]

/-- NF depends on which values are written, not on their order or number (R250). -/
theorem resultStatus_congr {vs us : List Word} (s : State) (h : ∀ v, v ∈ vs ↔ v ∈ us) :
    resultStatus s vs = resultStatus s us := by
  simp only [resultStatus, h]

theorem resultStatus_of_finite {vs : List Word} (s : State) (h : ∀ v ∈ vs, Fp.isFinite v = true) :
    resultStatus s vs = s.status := if_pos h

/-- The writes of a gain computer with smoother `e`: the smoothed value to PREV and RES2, the output, the control value,
and a fourth result (R177, R187). -/
def gainWrites (e : EnvIndex) (v y c w : Word) : List (Reg × Word) :=
  [(.env e .prev, v), (.res0, y), (.res1, c), (.res2, v), (.res3, w)]

theorem reg_commitResults_gainWrites {i : Instr} {e : EnvIndex} {v y c w : Word} (s : State)
    (hw : (gainWrites e v y c w).map Prod.fst = writtenBy i) (hi : i ≠ .clrst) :
    let t := commitResults (gainWrites e v y c w) s
    t.reg (.env e .prev) = v ∧ t.reg .res0 = y ∧ t.reg .res1 = c ∧ t.reg .res2 = v ∧ t.reg .res3 = w := by
  have hread : ∀ {r x}, (r, x) ∈ gainWrites e v y c w → (commitResults (gainWrites e v y c w) s).reg r = x :=
    reg_commitResults_writtenBy hw hi
  refine ⟨hread ?_, hread ?_, hread ?_, hread ?_, hread ?_⟩ <;> simp [gainWrites]

theorem status_commitResults_gainWrites (e : EnvIndex) (v y c w : Word) (s : State) :
    (commitResults (gainWrites e v y c w) s).status = resultStatus s [v, y, c, w] := by
  rw [status_commitResults]
  refine resultStatus_congr s fun x => ?_
  simp only [gainWrites, List.map_cons, List.map_nil, List.mem_cons, List.not_mem_nil, or_false]
  tauto

theorem unchanged_commitResults_gainWrites (e : EnvIndex) (v y c w : Word) (s : State) :
    Unchanged s (commitResults (gainWrites e v y c w) s) [.env e .prev, .res0, .res1, .res2, .res3, .status] :=
  unchanged_mono (unchanged_commitResults _ s) (by simp [gainWrites])

/-! ## The VCA -/

/-- The reduction of the sample's level, smoothed (R173). -/
def vcaSmoothed (s : State) : Word :=
  smooth 4 (vcaReduction (s.reg (.vca .th)) (s.reg (.vca .ratio)) (levelDb (s.reg .op0))) s

/-- The control value of the next sample (R174). -/
def vcaNextControl (s : State) : Word := vcaControl (s.reg (.vca .mkup)) (vcaSmoothed s)

/-- The writes of VCASTEP (R177). -/
def vcaStepWrites (s : State) : List (Reg × Word) :=
  gainWrites 4 (vcaSmoothed s) (Fp.mul (s.reg .op0) (vcaNextControl s)) (vcaNextControl s) (levelDb (s.reg .op0))

theorem exec_vcastep_of_valid {s : State} (hvca : ctlValid (s.reg (.vca .ctl)) = true)
    (henv : ctlValid (s.reg (.env 4 .ctl)) = true) (hx : Fp.isFinite (s.reg .op0) = true) :
    exec .vcastep s = .next (commitResults (vcaStepWrites s) s) := by
  simp only [exec, execVcastep, hvca, henv, hx]
  rfl

/-- The writes of VCAGR (R178). -/
def vcaCurveWrites (s : State) : List (Reg × Word) :=
  [(.res0, vcaReduction (s.reg (.vca .th)) (s.reg (.vca .ratio)) (s.reg .op0)),
    (.res1, vcaTarget (s.reg (.vca .th)) (s.reg (.vca .ratio)) (s.reg .op0))]

theorem exec_vcagr_of_valid {s : State} (hvca : ctlValid (s.reg (.vca .ctl)) = true)
    (hx : Fp.isFinite (s.reg .op0) = true) : exec .vcagr s = .next (commitResults (vcaCurveWrites s) s) := by
  simp only [exec, execVcagr, hvca, hx]
  rfl

theorem vcaTarget_below_threshold {th l : Word} (r : Word) (h : Fp.lt l th = true) : vcaTarget th r l = l := by
  rw [vcaTarget, Fp.ge, Fp.le_eq_false_of_lt h, if_neg Bool.false_ne_true]

theorem vcaReduction_below_threshold {th l : Word} (r : Word) (hl : Fp.isFinite l = true) (h : Fp.lt l th = true) :
    vcaReduction th r l = 0 := by
  rw [vcaReduction, vcaTarget_below_threshold r h, Fp.sub_self_word hl]

/-! ## The optical unit -/

/-- The smoothed envelope of the sample (R181). -/
def optEnvelope (s : State) : Word := smooth 5 (Fp.abs (s.reg .op0)) s

/-- The gain of the next sample (R182). -/
def optNextGain (s : State) : Word := optGain (s.reg (.opt .tlin)) (s.reg (.opt .ratio)) (optEnvelope s)

/-- The control value of the next sample (R185). -/
def optNextControl (s : State) : Word := Fp.mul (optNextGain s) (s.reg (.opt .mklin))

/-- The writes of OPTSTEP (R187). -/
def optStepWrites (s : State) : List (Reg × Word) :=
  gainWrites 5 (optEnvelope s) (Fp.mul (s.reg .op0) (optNextControl s)) (optNextControl s) (optNextGain s)

theorem exec_optstep_of_valid {s : State} (hopt : ctlValid (s.reg (.opt .ctl)) = true)
    (henv : ctlValid (s.reg (.env 5 .ctl)) = true) (hx : Fp.isFinite (s.reg .op0) = true) :
    exec .optstep s = .next (commitResults (optStepWrites s) s) := by
  simp only [exec, execOptstep, hopt, henv, hx]
  rfl

theorem opticalParameters_of_registersLegal {s : State} (h : RegistersLegal s)
    (hopt : ctlValid (s.reg (.opt .ctl)) = true) :
    finiteNonNegative (s.reg (.opt .tlin)) = true ∧ legalRatio (s.reg (.opt .ratio)) = true := by
  obtain ⟨-, -, -, -, -, hlegal, -⟩ := h
  have hvalid : ctlValid s.opt.ctl = true := hopt
  simp only [optLegal, hvalid, Bool.not_true, Bool.false_or, Bool.and_eq_true] at hlegal
  obtain ⟨-, ⟨⟨⟨-, hratio⟩, -⟩, htl⟩, -⟩ := hlegal
  exact ⟨htl, hratio⟩

/-- The output envelope of R182 above the threshold is a number or an infinity. -/
theorem not_nan_output_envelope {tl r env : Word} (htl : Fp.isFinite tl = true) (hr : legalRatio r = true)
    (henv : Fp.isFinite env = true) : Fp.isNaN (Fp.add tl (Fp.div (Fp.sub env tl) r)) = false := by
  obtain ⟨hrfin, hrone⟩ : Fp.isFinite r = true ∧ Fp.le Fp.one r = true := Bool.and_eq_true_iff.1 hr
  have hrzero : Fp.isZero r = false := Fp.not_zero_of_pos (Fp.lt_word_of_lt_of_le (by decide) hrone)
  have hsub : Fp.isNaN (Fp.sub env tl) = false := by
    rw [← Bool.not_eq_true, Fp.isNaN_sub_iff]
    simp [Fp.not_nan_of_finite, Fp.not_inf_of_finite, henv, htl]
  have hdiv : Fp.isNaN (Fp.div (Fp.sub env tl) r) = false := by
    rw [← Bool.not_eq_true, (Fp.div_nanOrSigned _ _).isNaN_iff, Fp.DivInvalid]
    simp [hsub, Fp.not_nan_of_finite hrfin, Fp.not_inf_of_finite hrfin, hrzero]
  rw [← Bool.not_eq_true, Fp.isNaN_add_iff]
  simp [hdiv, Fp.not_nan_of_finite htl, Fp.not_inf_of_finite htl]

/-- For a finite envelope the gain of R182 is in [0.0, 1.0]: above the threshold the envelope is positive, so the
quotient that is clamped is valid. -/
theorem optGain_mem {tl r env : Word} (htl : finiteNonNegative tl = true) (hr : legalRatio r = true)
    (henv : Fp.isFinite env = true) :
    Fp.ge (optGain tl r env) 0 = true ∧ Fp.le (optGain tl r env) Fp.one = true := by
  obtain ⟨htlfin, htl0⟩ := (finiteNonNegative_iff tl).1 htl
  refine Fp.clamp_mem ?_ (by decide)
  split_ifs with hle
  · decide
  · rw [Fp.le_eq_not_lt (Fp.not_nan_of_finite henv) (Fp.not_nan_of_finite htlfin), Bool.not_eq_true',
      Bool.not_eq_false] at hle
    have hpos : Fp.isZero env = false := Fp.not_zero_of_pos (Fp.lt_word_of_le_of_lt htl0 hle)
    rw [← Bool.not_eq_true, (Fp.div_nanOrSigned _ _).isNaN_iff, Fp.DivInvalid]
    simp [not_nan_output_envelope htlfin hr henv, Fp.not_nan_of_finite henv, Fp.not_inf_of_finite henv, hpos]

/-- For an envelope of +infinity R182 divides an infinity by an infinity, and the clamp passes the NaN through. -/
theorem isNaN_optGain_of_infinite_envelope {tl r : Word} (htl : Fp.isFinite tl = true) (hr : Fp.isFinite r = true) :
    Fp.isNaN (optGain tl r 0x7FF0000000000000) = true := by
  have hinf : Fp.isInf 0x7FF0000000000000 = true := by decide
  have habove : Fp.le 0x7FF0000000000000 tl = false := Fp.le_eq_false_of_lt (Fp.lt_infinity_of_finite htl)
  have hdiv : Fp.isInf (Fp.div 0x7FF0000000000000 r) = true := (Fp.div_of_inf hinf hr).1
  have hquot : Fp.isNaN (Fp.div (Fp.div 0x7FF0000000000000 r) 0x7FF0000000000000) = true :=
    (Fp.div_nanOrSigned _ _).isNaN_iff.2 (.inr (.inr (.inl ⟨hdiv, hinf⟩)))
  rw [optGain, habove, if_neg Bool.false_ne_true, (Fp.sub_inf hinf htl).1, (Fp.add_inf hdiv htl).2,
    Fp.clamp_of_isNaN _ _ hquot, hquot]

/-- A configured optical unit whose smoother has both coefficients 1.0, its PREV set to +infinity by the host (R75). -/
def infiniteEnvelopeState : State :=
  { State.reset with
    env := State.reset.env.set 5 ⟨Fp.one, Fp.one, 0x7FF0000000000000, 1⟩
    opt := ⟨0, Fp.two, 0, Fp.one, Fp.one, 1⟩ }

theorem registersLegal_infiniteEnvelopeState : RegistersLegal infiniteEnvelopeState := by
  unfold RegistersLegal
  decide

/-- A smoother with coefficients 1.0 keeps its PREV (R150). -/
theorem optEnvelope_infiniteEnvelopeState : optEnvelope infiniteEnvelopeState = 0x7FF0000000000000 := by
  have hsmooth : optEnvelope infiniteEnvelopeState
      = Fp.add (Fp.mul Fp.one 0x7FF0000000000000) (Fp.mul (Fp.sub Fp.one Fp.one) 0) := rfl
  have hkept : Fp.mul Fp.one 0x7FF0000000000000 = 0x7FF0000000000000 := by decide
  have hinput : Fp.isZero (Fp.mul (Fp.sub Fp.one Fp.one) 0) = true := by
    rw [Fp.sub_self_word (by decide)]
    exact Fp.isZero_mul (by decide) (by decide)
  rw [hsmooth, hkept, (Fp.add_inf (by decide) (Fp.finite_of_zero hinput)).1]

theorem isNaN_optNextGain_infiniteEnvelopeState : Fp.isNaN (optNextGain infiniteEnvelopeState) = true := by
  rw [optNextGain, optEnvelope_infiniteEnvelopeState]
  exact isNaN_optGain_of_infinite_envelope (by decide) (by decide)

end Sys2Proof.Machine

open Sys2Proof.Machine Sys2Proof.Safety

/-- Settles O20, by the writes of VCASTEP. -/
theorem vcastepProcessesOneSample : Obligations.VcastepProcessesOneSample := by
  intro s x th m lvl tgt gr p a sm c y hvca henv hx
  obtain ⟨hprev, hres0, hres1, hres2, hres3⟩ :=
    reg_commitResults_gainWrites (i := .vcastep) (e := 4) (v := sm) (y := y) (c := c) (w := lvl) s rfl (by decide)
  exact ⟨_, exec_vcastep_of_valid hvca henv hx, hprev, hres0, hres1, hres2, hres3,
    status_commitResults_gainWrites 4 sm y c lvl s, unchanged_commitResults_gainWrites 4 sm y c lvl s⟩

/-- Settles O21, by the writes of VCAGR. -/
theorem vcagrEvaluatesTheCurve : Obligations.VcagrEvaluatesTheCurve := by
  intro s l th tgt hvca hl
  have hread : ∀ {r v}, (r, v) ∈ vcaCurveWrites s → (commitResults (vcaCurveWrites s) s).reg r = v :=
    reg_commitResults_writtenBy (i := .vcagr) rfl (by decide)
  have hframe : Unchanged s (commitResults (vcaCurveWrites s) s) [.res0, .res1, .status] :=
    unchanged_mono (unchanged_commitResults _ s) (by simp [vcaCurveWrites])
  exact ⟨_, exec_vcagr_of_valid hvca hl, hread List.mem_cons_self, hread (List.mem_cons_of_mem _ List.mem_cons_self),
    status_commitResults (vcaCurveWrites s) s, hframe⟩

/-- Settles O22: below the threshold the target is the level, and a finite level less itself is +0.0. -/
theorem vcaReductionIsZeroBelowThreshold : Obligations.VcaReductionIsZeroBelowThreshold := by
  intro s hvca hl hbelow
  obtain ⟨t, ht, hres0, hres1, hstatus, -⟩ := vcagrEvaluatesTheCurve s hvca hl
  have htarget := vcaTarget_below_threshold (s.reg (.vca .ratio)) hbelow
  have hreduction := vcaReduction_below_threshold (s.reg (.vca .ratio)) hl hbelow
  have hfinite : ∀ v ∈ [0, s.reg .op0], Fp.isFinite v = true :=
    List.forall_mem_cons.2 ⟨by decide, List.forall_mem_singleton.2 hl⟩
  have hnf : t.reg .status = resultStatus s [vcaReduction (s.reg (.vca .th)) (s.reg (.vca .ratio)) (s.reg .op0),
    vcaTarget (s.reg (.vca .th)) (s.reg (.vca .ratio)) (s.reg .op0)] := hstatus
  rw [hreduction, htarget, resultStatus_of_finite s hfinite] at hnf
  exact ⟨t, ht, hres0.trans hreduction, hres1.trans htarget, hnf⟩

/-- Settles O23, by the writes of OPTSTEP. -/
theorem optstepProcessesOneSample : Obligations.OptstepProcessesOneSample := by
  intro s x tl m p a env g0 g c y hopt henv hx
  obtain ⟨hprev, hres0, hres1, hres2, hres3⟩ :=
    reg_commitResults_gainWrites (i := .optstep) (e := 5) (v := env) (y := y) (c := c) (w := g) s rfl (by decide)
  have hstatus : resultStatus s [env, y, c, g] = resultStatus s [env, g, c, y] :=
    resultStatus_congr s fun v => by simp only [List.mem_cons, List.not_mem_nil, or_false]; tauto
  exact ⟨_, exec_optstep_of_valid hopt henv hx, hprev, hres0, hres1, hres2, hres3,
    (status_commitResults_gainWrites 5 env y c g s).trans hstatus, unchanged_commitResults_gainWrites 5 env y c g s⟩

/-- Refutes O24: with ENV[5].PREV = +infinity the envelope is +infinity and the gain NaN, which no comparison bounds. -/
theorem not_opticalGainBoundedUnlessNaN : ¬ Obligations.OpticalGainBoundedUnlessNaN := by
  intro h
  obtain ⟨t, ht, hbounded⟩ := h infiniteEnvelopeState registersLegal_infiniteEnvelopeState rfl rfl (by decide)
  obtain ⟨t', ht', -, -, -, henv, hgain, -⟩ :=
    optstepProcessesOneSample infiniteEnvelopeState rfl rfl (by decide)
  obtain rfl : t = t' := by simpa [ht] using ht'
  have hres2 : t.reg .res2 = 0x7FF0000000000000 := henv.trans optEnvelope_infiniteEnvelopeState
  have hres3 : Fp.isNaN (t.reg .res3) = true := hgain ▸ isNaN_optNextGain_infiniteEnvelopeState
  have hle := (hbounded (by rw [hres2]; decide)).2
  simp [Fp.le, hres3] at hle

/-- Settles O25, by the range of the gain for a finite envelope. -/
theorem opticalGainBoundedForFiniteEnvelope : Obligations.OpticalGainBoundedForFiniteEnvelope := by
  intro s hlegal hopt henv hx hfinite
  obtain ⟨t, ht, -, -, -, -, hgain, -⟩ := optstepProcessesOneSample s hopt henv hx
  obtain ⟨htl, hratio⟩ := opticalParameters_of_registersLegal hlegal hopt
  have hres3 : t.reg .res3 = optNextGain s := hgain
  refine ⟨t, ht, ?_⟩
  rw [hres3]
  exact optGain_mem htl hratio hfinite
end

section
/-! Differences and quotients of ordered words: the sign of a rounded difference, and that a smaller positive word over
a larger one is finite (R13, R202). -/

namespace Sys2Proof.Machine.Fp

open Sys2Proof.Safety

theorem lt_eq_false_of_le {a b : Word} (h : le a b = true) : lt b a = false := by
  by_contra hlt
  exact Bool.false_ne_true ((le_eq_false_of_lt (Bool.not_eq_false _ ▸ hlt)).symm.trans h)

theorem lt_eq_signedUnits_lt {a b : Word} (ha : isFinite a = true) (hb : isFinite b = true) :
    lt a b = decide (signedUnits a < signedUnits b) := by
  simp [lt, not_nan_of_finite ha, not_nan_of_finite hb, signedUnits_eq_keyUnits, keyUnits_strictMono.lt_iff_lt]

theorem zero_lt_ofMag (s : Bool) {m : ℕ} (h : m ≤ infBits) : lt 0 (ofMag s m) = (!s && decide (0 < m)) := by
  have hmag : magBits (ofMag s m) = m := magBits_ofMag s (h.trans_lt (by decide))
  have hkey : orderKey (ofMag s m) = if s then -(m : ℤ) else m := by rw [orderKey, sign_ofMag, hmag]
  rw [lt, not_nan_ofMag s h, hkey, show isNaN 0 = false by decide, show orderKey 0 = 0 by decide]
  cases s <;> simp

/-- A magnitude of at least one unit is not rounded to zero. -/
theorem roundUnits_one_pos {n : ℕ} (hn : 0 < n) : 0 < roundUnits n 1 := by
  obtain ⟨k, -, hk, hm⟩ := isNearestMag_roundUnits n one_pos
  have hk0 : k ≠ 0 := by
    rintro rfl
    have hlt : (n : ℝ) < 1 := by simpa [magUnits] using hk
    exact absurd (Nat.cast_lt_one.1 hlt) hn.ne'
  have hinf : 0 < infBits := by decide
  rcases hm with ⟨-, hm⟩ | ⟨-, hm⟩ <;> omega

theorem zero_lt_sum (nan : Word) {a b : Word} (ha : isFinite a = true) (hb : isFinite b = true) :
    lt 0 (sum nan a b) = decide (0 < signedUnits a + signedUnits b) := by
  rw [sum_of_finite nan ha hb]
  generalize signedUnits a + signedUnits b = z
  split
  case isTrue hz =>
    rw [zero_lt_ofMag _ (Nat.zero_le _), hz]
    simp
  case isFalse hz =>
    have hpos : 0 < roundUnits z.natAbs 1 := roundUnits_one_pos (Int.natAbs_pos.2 hz)
    rw [zero_lt_ofMag _ (roundUnits_le _ _), decide_eq_true hpos, Bool.and_true, ← decide_not, decide_eq_decide]
    omega

/-- A rounded difference of finite words is positive exactly where the first exceeds the second. -/
theorem zero_lt_sub {a b : Word} (ha : isFinite a = true) (hb : isFinite b = true) : lt 0 (sub a b) = lt b a := by
  rw [sub, zero_lt_sum _ ha ((isFinite_neg b).trans hb), lt_eq_signedUnits_lt hb ha, signedUnits_neg, decide_eq_decide]
  omega

theorem natAbs_orderKey (w : Word) : (orderKey w).natAbs = magBits w := by
  rw [orderKey]
  split <;> omega

theorem orderKey_lt_of_lt {a b : Word} (h : lt a b = true) : orderKey a < orderKey b :=
  of_decide_eq_true (Bool.and_eq_true_iff.1 h).2

/-- A word between 0.0 and another word is finite. -/
theorem isFinite_of_pos_of_lt {a b : Word} (ha : lt 0 a = true) (hab : lt a b = true) : isFinite a = true := by
  have hb : magBits b ≤ infBits := not_lt.1 (of_decide_eq_false (not_nan_of_lt hab).2)
  have hpos : 0 < orderKey a := orderKey_lt_of_lt ha
  have hlt := orderKey_lt_of_lt hab
  rw [← natAbs_orderKey] at hb
  rw [isFinite, decide_eq_true_eq, ← natAbs_orderKey]
  omega

theorem one_lt_overflowBound : 1 < overflowBound := by
  have hone : (1 : ℚ) < 2 ^ 970 := one_lt_pow₀ one_lt_two (by decide)
  have hdouble : (2 : ℚ) ^ 970 * 2 ≤ 2 ^ 1024 := by
    rw [← pow_succ]
    exact pow_le_pow_right₀ one_le_two (by decide)
  rw [overflowBound]
  generalize (2 : ℚ) ^ 970 = p, (2 : ℚ) ^ 1024 = q at *
  linarith

/-- A positive word over a larger one is finite: the exact quotient is below 1, or 0 where the divisor is infinite. -/
theorem isFinite_div_of_lt {a b : Word} (ha : lt 0 a = true) (hab : lt a b = true) : isFinite (div a b) = true := by
  have haf := isFinite_of_pos_of_lt ha hab
  cases hb : isInf b with
  | true => exact finite_of_zero (div_of_inf hb haf).2
  | false =>
    have hbf := finite_of_not_nan_of_not_inf (not_nan_of_lt hab).2 hb
    have h0 : (0 : ℝ) < value a := by
      have h := (value_lt_iff 0 a).2 (orderKey_lt_of_lt ha)
      rw [(isZero_iff_value 0).1 (by decide)] at h
      exact_mod_cast h
    have h1 : (value a : ℝ) < value b := by exact_mod_cast (value_lt_iff a b).2 (orderKey_lt_of_lt hab)
    have hb0 : 0 < (value b : ℝ) := h0.trans h1
    obtain ⟨-, -, hround⟩ := div_roundsTo haf hbf (by exact_mod_cast hb0.ne')
    refine (hround ?_).1
    rw [abs_of_pos (div_pos h0 hb0)]
    calc (value a : ℝ) / value b < 1 := (div_lt_one hb0).2 h1
      _ < overflowBound := by exact_mod_cast one_lt_overflowBound

end Sys2Proof.Machine.Fp
end

section
/-! The soft knee (R201 to R203, R205, R206): what KNCFG checks and stores, what KNEVAL writes, and where the reduction
ratio is neutral. -/

namespace Sys2Proof.Machine

open Sys2Proof.Safety

/-! ## KNCFG -/

/-- The operands pass the checks of R201. -/
def kneeOperandsLegal (s : State) : Bool := legalKnee (s.reg .op0) (s.reg .op1) (s.reg .op2)

theorem kneeOperandsLegal_iff (s : State) : kneeOperandsLegal s = true ↔
    (∀ r ∈ [Reg.op0, .op1, .op2], Fp.isFinite (s.reg r) = true) ∧ Fp.gt (s.reg .op1) 0 = true
      ∧ Fp.ge (s.reg .op2) 0 = true := by
  simp only [kneeOperandsLegal, legalKnee, Bool.and_eq_true, finitePositive_iff, finiteNonNegative_iff,
    List.forall_mem_cons, List.not_mem_nil, false_implies, implies_true]
  tauto

/-- The writes of KNCFG on its operands (R205). -/
def kneeConfigWrites (s : State) : List (Reg × Word) := kneeWrites (s.reg .op0) (s.reg .op1) (s.reg .op2)

theorem exec_kncfg_of_legal {s : State} (hops : kneeOperandsLegal s = true) :
    exec .kncfg s = .next (commit (kneeConfigWrites s) s) := by
  rw [kneeOperandsLegal] at hops
  simp only [exec, execKncfg, hops]
  rfl

theorem exec_kncfg_of_illegal {s : State} (hops : kneeOperandsLegal s = false) :
    exec .kncfg s = commandError .kncfg .invalidParameter s := by
  rw [kneeOperandsLegal] at hops
  simp only [exec, execKncfg, hops]
  rfl

/-! ## The transfer function -/

theorem kneeRatio_up_to_threshold {th l : Word} (rg red : Word) (hd : Fp.gt (Fp.sub l th) 0 = false) :
    kneeRatio th rg red l = 0 := by
  rw [kneeRatio, Fp.zero, hd]
  rfl

theorem kneeRatio_in_window {th rg l : Word} (red : Word) (hd : Fp.gt (Fp.sub l th) 0 = true)
    (hrg : Fp.lt (Fp.sub l th) rg = true) :
    kneeRatio th rg red l = Fp.mul (Fp.div (Fp.sub l th) rg) (Fp.div red Fp.twenty) := by
  rw [kneeRatio, Fp.zero, hd, hrg]
  rfl

theorem kneeRatio_beyond_window {th rg l : Word} (red : Word) (hd : Fp.gt (Fp.sub l th) 0 = true)
    (hrg : Fp.lt (Fp.sub l th) rg = false) : kneeRatio th rg red l = Fp.div red Fp.twenty := by
  rw [kneeRatio, Fp.zero, hd, hrg]
  rfl

/-- Without a reduction the ratio is a zero at every level: inside the window the rounded difference over the range is
finite. -/
theorem isZero_kneeRatio {red : Word} (th rg l : Word) (hred : Fp.isZero red = true) :
    Fp.isZero (kneeRatio th rg red l) = true := by
  have hlimit : Fp.isZero (Fp.div red Fp.twenty) = true := Fp.isZero_div hred (by decide) (by decide)
  cases hd : Fp.gt (Fp.sub l th) 0 with
  | false =>
    rw [kneeRatio_up_to_threshold rg red hd]
    decide
  | true =>
  cases hrg : Fp.lt (Fp.sub l th) rg with
  | true =>
    rw [kneeRatio_in_window red hd hrg]
    exact Fp.isZero_mul (Fp.isFinite_div_of_lt hd hrg) hlimit
  | false => rwa [kneeRatio_beyond_window red hd hrg]

theorem kneeGain_of_isZero {r : Word} (h : Fp.isZero r = true) : kneeGain r = Fp.one := by
  rw [kneeGain, Fp.zero, if_pos ((Fp.eq_zero_eq_isZero r).trans h)]

/-! ## KNEVAL -/

/-- The reduction ratio of the level in OP0 (R202). -/
def kneeNextRatio (s : State) : Word :=
  kneeRatio (s.reg (.knee .th)) (s.reg (.knee .range)) (s.reg (.knee .red)) (s.reg .op0)

/-- The writes of KNEVAL (R206). -/
def kneeEvalWrites (s : State) : List (Reg × Word) := [(.res0, kneeNextRatio s), (.res1, kneeGain (kneeNextRatio s))]

theorem exec_kneval_of_valid {s : State} (hvalid : ctlValid (s.reg (.knee .ctl)) = true)
    (hl : Fp.isFinite (s.reg .op0) = true) : exec .kneval s = .next (commitResults (kneeEvalWrites s) s) := by
  simp only [exec, execKneval, hvalid, hl]
  rfl

theorem reg_commitResults_kneeEvalWrites (s : State) :
    (commitResults (kneeEvalWrites s) s).reg .res0 = kneeNextRatio s
      ∧ (commitResults (kneeEvalWrites s) s).reg .res1 = kneeGain (kneeNextRatio s) := by
  have hread : ∀ {r v}, (r, v) ∈ kneeEvalWrites s → (commitResults (kneeEvalWrites s) s).reg r = v :=
    reg_commitResults_writtenBy (i := .kneval) rfl (by decide)
  exact ⟨hread List.mem_cons_self, hread (List.mem_cons_of_mem _ List.mem_cons_self)⟩

end Sys2Proof.Machine

open Sys2Proof.Machine Sys2Proof.Safety

/-- Settles O26: the listed conditions are all that KNCFG checks. -/
theorem kncfgStoresTheParameters : Obligations.KncfgStoresTheParameters := by
  intro s hfinite hrange hred
  have hops := (kneeOperandsLegal_iff s).2 ⟨hfinite, hrange, hred⟩
  have hread : ∀ {r v}, (r, v) ∈ kneeConfigWrites s → (commit (kneeConfigWrites s) s).reg r = v :=
    reg_commit_writtenBy (i := .kncfg) rfl
  refine ⟨_, exec_kncfg_of_legal hops, hread ?_, hread ?_, hread ?_, hread ?_,
    unchanged_commit (kneeConfigWrites s) s⟩ <;> simp [kneeConfigWrites, kneeWrites, ctlConfigured]

/-- Settles O27: every listed clause breaks a condition that legal operands meet. -/
theorem kncfgRejectsIllegalParameters : Obligations.KncfgRejectsIllegalParameters := by
  intro s hillegal
  have hops : kneeOperandsLegal s = false := by
    rw [← Bool.not_eq_true, kneeOperandsLegal_iff]
    rintro ⟨hfinite, hrange, hred⟩
    rcases hillegal with ⟨r, hr, hbad⟩ | hbad | hbad
    · exact Bool.false_ne_true (hbad.symm.trans (hfinite r hr))
    · exact Bool.false_ne_true (hbad.symm.trans hrange)
    · exact Bool.false_ne_true (hbad.symm.trans hred)
  rw [exec_kncfg_of_illegal hops]
  exact commandError_failed _ _ s

/-- Settles O28, by the writes of KNEVAL. -/
theorem knevalEvaluatesTheKnee : Obligations.KnevalEvaluatesTheKnee := by
  intro s l rg red d r g hvalid hl
  have hr : kneeNextRatio s = r := by
    simp only [r]
    split_ifs with hd hrg
    · exact kneeRatio_up_to_threshold rg red hd
    · exact kneeRatio_in_window red (Bool.eq_true_of_not_eq_false hd) hrg
    · exact kneeRatio_beyond_window red (Bool.eq_true_of_not_eq_false hd) (Bool.eq_false_of_not_eq_true hrg)
  obtain ⟨hres0, hres1⟩ := reg_commitResults_kneeEvalWrites s
  have hframe : Unchanged s (commitResults (kneeEvalWrites s) s) [.res0, .res1, .status] :=
    unchanged_mono (unchanged_commitResults _ s) (by simp [kneeEvalWrites])
  have hstatus : (commitResults (kneeEvalWrites s) s).reg .status
      = resultStatus s [kneeNextRatio s, kneeGain (kneeNextRatio s)] := status_commitResults (kneeEvalWrites s) s
  rw [hr] at hres0 hres1 hstatus
  exact ⟨_, exec_kneval_of_valid hvalid hl, hres0, hres1, hstatus, hframe⟩

/-- Settles O29: the rounded difference has the sign of the exact one, and a ratio that is a zero has gain 1.0. -/
theorem kneeIsNeutralUpToThreshold : Obligations.KneeIsNeutralUpToThreshold := by
  intro s hvalid hl hth
  have hsign : Fp.gt (Fp.sub (s.reg .op0) (s.reg (.knee .th))) 0 = Fp.gt (s.reg .op0) (s.reg (.knee .th)) :=
    Fp.zero_lt_sub hl hth
  have hexec := exec_kneval_of_valid hvalid hl
  obtain ⟨hres0, hres1⟩ := reg_commitResults_kneeEvalWrites s
  refine ⟨hsign, fun hle => ?_, fun hgt hge hlimit => ?_, fun _ hred => ?_⟩
  · have hratio : kneeNextRatio s = 0 := kneeRatio_up_to_threshold _ _ (hsign.trans (Fp.lt_eq_false_of_le hle))
    exact ⟨_, hexec, hres0.trans hratio, hres1.trans (kneeGain_of_isZero (by rw [hratio]; decide))⟩
  · have hratio : kneeNextRatio s = Fp.div (s.reg (.knee .red)) Fp.twenty :=
      kneeRatio_beyond_window _ (hsign.trans hgt) (Fp.lt_eq_false_of_le hge)
    exact ⟨_, hexec, hres0.trans hratio, by rwa [hres0, hratio]⟩
  · have hratio : Fp.isZero (kneeNextRatio s) = true :=
      isZero_kneeRatio _ _ _ ((Fp.eq_zero_eq_isZero _).symm.trans hred)
    exact ⟨_, hexec, by rwa [hres0, Fp.eq_zero_eq_isZero], hres1.trans (kneeGain_of_isZero hratio)⟩
end

section
/-! The system commands NOP, CLRST and SETFS (R220, R222 to R224): which rates SETFS accepts, and what each command
leaves. -/

namespace Sys2Proof.Machine

/-- A completed CLRST (R222). -/
theorem exec_clrst (s : State) : exec .clrst s = .next (commit [(.status, 0), (.errcmd, 0)] s) := rfl

/-- A completed SETFS (R224): the one value written is OP0, and no coefficient. -/
theorem exec_setfs_of_legal {s : State} (hrate : finitePositive (s.reg .op0) = true) :
    exec .setfs s = .next (commit [(.fs, s.reg .op0)] s) := by
  simp only [exec, execSetfs, hrate]
  rfl

theorem exec_setfs_of_illegal {s : State} (hrate : finitePositive (s.reg .op0) = false) :
    exec .setfs s = commandError .setfs .invalidParameter s := by
  simp only [exec, execSetfs, hrate]
  rfl

end Sys2Proof.Machine

open Sys2Proof.Machine Sys2Proof.Safety

/-- Settles O1: NOP has no write to commit. -/
theorem nopChangesNothing : Obligations.NopChangesNothing := fun _ => rfl

/-- Settles O3, by the writes of CLRST. -/
theorem clrstClearsTheLatches : Obligations.ClrstClearsTheLatches := by
  intro s
  have hread : ∀ {r v}, (r, v) ∈ [(Reg.status, 0), (.errcmd, 0)] →
      (commit [(.status, 0), (.errcmd, 0)] s).reg r = v := reg_commit_writtenBy (i := .clrst) rfl
  exact ⟨_, exec_clrst s, hread List.mem_cons_self, hread (List.mem_cons_of_mem _ List.mem_cons_self),
    unchanged_commit _ s⟩

/-- Settles O4: a finite positive rate passes the one check of SETFS. -/
theorem setfsWritesTheRate : Obligations.SetfsWritesTheRate := by
  intro s hfinite hpos
  exact ⟨_, exec_setfs_of_legal ((finitePositive_iff _).2 ⟨hfinite, hpos⟩),
    reg_commit_writtenBy (i := .setfs) rfl List.mem_cons_self, unchanged_commit _ s⟩

/-- Settles O5: every other value fails the one check of SETFS. -/
theorem setfsRejectsIllegalRates : Obligations.SetfsRejectsIllegalRates := by
  intro s hillegal
  have hrate : finitePositive (s.reg .op0) = false :=
    Bool.eq_false_of_not_eq_true fun hlegal => hillegal ((finitePositive_iff _).1 hlegal)
  rw [exec_setfs_of_illegal hrate]
  exact commandError_failed _ _ s
end

section
/-! The errors of the step and evaluation commands (R247 to R250): on an unconfigured unit, on a sample that is not
finite, and STATUS.NF where the command completes. -/

namespace Sys2Proof.Machine

open Sys2Proof.Safety

/-! ## Step and evaluation commands -/

/-- The unit of a step or evaluation command, and the smoother of VCASTEP and OPTSTEP, has VALID = 1 (R248). -/
def unitConfigured : Instr → State → Bool
  | .bqstep u, s => ctlValid (s.reg (.bq u .ctl))
  | .envstep e, s => ctlValid (s.reg (.env e .ctl))
  | .vcastep, s => ctlValid (s.reg (.vca .ctl)) && ctlValid (s.reg (.env 4 .ctl))
  | .vcagr, s => ctlValid (s.reg (.vca .ctl))
  | .optstep, s => ctlValid (s.reg (.opt .ctl)) && ctlValid (s.reg (.env 5 .ctl))
  | .kneval, s => ctlValid (s.reg (.knee .ctl))
  | _, _ => true

/-- Everything a step or evaluation command can do, with the priority of its errors (R249). -/
theorem exec_runtime {i : Instr} (s : State) (hi : isRuntime i = true) :
    ∃ ws, exec i s = (if !unitConfigured i s then commandError i .notConfigured s
        else if !Fp.isFinite (s.reg .op0) then commandError i .nonFiniteInput s
        else .next (commitResults ws s))
      ∧ ws.map Prod.fst = writtenBy i := by
  cases i with
  | bqstep u => exact ⟨_, rfl, rfl⟩
  | envstep e => exact ⟨_, rfl, rfl⟩
  | vcastep =>
    rw [unitConfigured, Bool.not_and]
    exact ⟨_, rfl, rfl⟩
  | vcagr => exact ⟨_, rfl, rfl⟩
  | optstep =>
    rw [unitConfigured, Bool.not_and]
    exact ⟨_, rfl, rfl⟩
  | kneval => exact ⟨_, rfl, rfl⟩
  | _ => cases hi

theorem exec_runtime_of_unconfigured {i : Instr} {s : State} (hi : isRuntime i = true)
    (hunit : unitConfigured i s = false) : ∃ t, exec i s = .next t ∧ Failed i .notConfigured s t := by
  obtain ⟨ws, hexec, -⟩ := exec_runtime s hi
  rw [hexec, hunit]
  exact commandError_failed i .notConfigured s

theorem exec_runtime_of_nonFinite {i : Instr} {s : State} (hi : isRuntime i = true)
    (hunit : unitConfigured i s = true) (hx : Fp.isFinite (s.reg .op0) = false) :
    ∃ t, exec i s = .next t ∧ Failed i .nonFiniteInput s t := by
  obtain ⟨ws, hexec, -⟩ := exec_runtime s hi
  rw [hexec, hunit, hx]
  exact commandError_failed i .nonFiniteInput s

theorem exec_runtime_of_valid {i : Instr} {s : State} (hi : isRuntime i = true)
    (hunit : unitConfigured i s = true) (hx : Fp.isFinite (s.reg .op0) = true) :
    ∃ ws, exec i s = .next (commitResults ws s) ∧ ws.map Prod.fst = writtenBy i := by
  obtain ⟨ws, hexec, hw⟩ := exec_runtime s hi
  rw [hunit, hx] at hexec
  exact ⟨ws, hexec, hw⟩

/-! ## STATUS.NF -/

/-- Read back, the registers of a completed command hold the values it wrote. -/
theorem map_reg_commitResults_writtenBy {i : Instr} {ws : List (Reg × Word)} (s : State)
    (hw : ws.map Prod.fst = writtenBy i) (hi : i ≠ .clrst) :
    (writtenBy i).map (commitResults ws s).reg = ws.map Prod.snd := by
  rw [← hw, List.map_map]
  exact List.map_congr_left fun _ hm => reg_commitResults_writtenBy hw hi hm

theorem statusNf_afterError (w : Word) (c : BitVec 8) : statusNf (statusAfterError w c) = statusNf w := by
  rw [statusAfterError]
  split
  · rw [statusNf, getLsbD_statusWithOvf]
    exact Bool.or_false _
  · exact statusNf_withError w c

/-- Only a step or evaluation command, CLRST and RESET change NF (R35, R250). -/
theorem exec_keeps_statusNf {i : Instr} {s t : State} (hi : isRuntime i = false) (hclrst : i ≠ .clrst)
    (hreset : i ≠ .reset) (ht : exec i s = .next t) : statusNf t.status = statusNf s.status := by
  rcases exec_cases i s with ⟨e, he⟩ | ⟨-, -, ws, he, hw⟩ | ⟨hrun, -⟩ | ⟨h, -⟩
  · obtain ⟨t', ht', hstatus, -⟩ := commandError_next i e s
    cases (ht'.symm.trans he.symm).trans ht
    rw [hstatus, statusNf_afterError]
  · cases he.symm.trans ht
    have hstatus : (commit ws s).status = s.status :=
      (unchanged_commit ws s).1 .status (hw ▸ status_not_mem_writtenBy hclrst)
    rw [hstatus]
  · exact absurd (hi.symm.trans hrun) Bool.false_ne_true
  · exact absurd h hreset

end Sys2Proof.Machine

open Sys2Proof.Machine Sys2Proof.Safety

/-- Settles O30: the unit is the first thing a step or evaluation checks, and FS the first a configuration that needs it
checks. -/
theorem notConfiguredIsRaised : Obligations.NotConfiguredIsRaised := by
  intro s
  refine ⟨fun u h => exec_runtime_of_unconfigured rfl h, fun e h => exec_runtime_of_unconfigured rfl h,
    fun h => exec_runtime_of_unconfigured rfl (Bool.and_eq_false_iff.2 h), fun h => exec_runtime_of_unconfigured rfl h,
    fun h => exec_runtime_of_unconfigured rfl (Bool.and_eq_false_iff.2 h), fun h => exec_runtime_of_unconfigured rfl h,
    fun hfs => ⟨fun u kind => ?_, fun e => ?_, ?_, ?_⟩⟩
  · rw [exec_bqdsn_of_no_rate hfs]
    exact commandError_failed _ _ s
  · rw [exec_envcfg_of_no_rate hfs]
    exact commandError_failed _ _ s
  · rw [exec_dynamics_of_no_rate (.inl rfl) hfs]
    exact commandError_failed _ _ s
  · rw [exec_dynamics_of_no_rate (.inr rfl) hfs]
    exact commandError_failed _ _ s

/-- Settles O31: on a configured unit the sample is the one thing left to check. -/
theorem nonFiniteInputIsRaised : Obligations.NonFiniteInputIsRaised := by
  intro s hx
  exact ⟨fun u h => exec_runtime_of_nonFinite rfl h hx, fun e h => exec_runtime_of_nonFinite rfl h hx,
    fun h => exec_runtime_of_nonFinite rfl (Bool.and_eq_true_iff.2 h) hx,
    fun h => exec_runtime_of_nonFinite rfl h hx,
    fun h => exec_runtime_of_nonFinite rfl (Bool.and_eq_true_iff.2 h) hx,
    fun h => exec_runtime_of_nonFinite rfl h hx⟩

/-- Settles O33: a step or evaluation fails by its unit or its sample, or reads back the values that set NF; a command
of another kind but CLRST and RESET keeps NF. -/
theorem nonFiniteFlagFollowsTheResults : Obligations.NonFiniteFlagFollowsTheResults := by
  intro i s
  cases hi : isRuntime i with
  | false =>
    obtain ⟨t, ht, -⟩ := commandsWriteOnlyTheirRegisters i s
    exact ⟨t, ht, nofun, fun _ hclrst hreset => exec_keeps_statusNf hi hclrst hreset ht⟩
  | true =>
    cases hunit : unitConfigured i s with
    | false =>
      obtain ⟨t, ht, hfailed⟩ := exec_runtime_of_unconfigured hi hunit
      exact ⟨t, ht, fun _ => .inr (.inl hfailed), nofun⟩
    | true =>
      cases hx : Fp.isFinite (s.reg .op0) with
      | false =>
        obtain ⟨t, ht, hfailed⟩ := exec_runtime_of_nonFinite hi hunit hx
        exact ⟨t, ht, fun _ => .inr (.inr hfailed), nofun⟩
      | true =>
        obtain ⟨ws, ht, hw⟩ := exec_runtime_of_valid hi hunit hx
        have hclrst : i ≠ .clrst := by
          rintro rfl
          cases hi
        refine ⟨_, ht, fun _ => .inl ⟨?_, hw ▸ unchanged_commitResults ws s⟩, nofun⟩
        rw [map_reg_commitResults_writtenBy s hw hclrst]
        exact status_commitResults ws s
end

section
/-! Several cores (R262, R263): an access to one core is one more access to it and none to the others. -/

namespace Sys2Proof.Machine

theorem accessesTo_cons_same (k : ℕ) (a : HostAccess) (as : List (ℕ × HostAccess)) :
    accessesTo k ((k, a) :: as) = a :: accessesTo k as := by
  simp [accessesTo]

theorem accessesTo_cons_of_ne {j k : ℕ} (h : j ≠ k) (a : HostAccess) (as : List (ℕ × HostAccess)) :
    accessesTo k ((j, a) :: as) = accessesTo k as := by
  simp [accessesTo, h]

theorem getElem?_serveCore_same (k : ℕ) (a : HostAccess) (cores : List State) :
    (serveCore k a cores)[k]? = cores[k]?.map (afterAccess a) := List.getElem?_modify_eq _ _ _

theorem getElem?_serveCore_of_ne {j k : ℕ} (h : j ≠ k) (a : HostAccess) (cores : List State) :
    (serveCore j a cores)[k]? = cores[k]? := List.getElem?_modify_ne _ _ h

end Sys2Proof.Machine

open Sys2Proof.Machine

/-- Settles O60, by induction on the accesses: the first one is to this core, or to another and leaves this one. -/
theorem channelsAreIndependent : Obligations.ChannelsAreIndependent := by
  intro as cores k
  induction as generalizing cores with
  | nil =>
    change cores[k]? = cores[k]?.map id
    rw [Option.map_id_apply]
  | cons p as ih =>
    obtain ⟨j, a⟩ := p
    rw [serveCores, ih]
    by_cases h : j = k
    · subst h
      rw [getElem?_serveCore_same, accessesTo_cons_same, Option.map_map]
      rfl
    · rw [getElem?_serveCore_of_ne h, accessesTo_cons_of_ne h]
end

section
/-! Reset (R221, R270): what every register reads as, and that the registers are then legal. -/

namespace Sys2Proof.Machine

@[simp] theorem State.bq_get_reset : ∀ u, State.reset.bq.get u = BqSlot.reset := by decide

@[simp] theorem State.env_get_reset : ∀ e, State.reset.env.get e = EnvSlot.reset := by decide

/-- A0 apart, a biquad slot's registers are 0 after reset (R51). -/
theorem BqSlot.reg_reset {r : BqReg} (hr : r ≠ .a0) : BqSlot.reset.reg r = 0 := by
  cases r with
  | a0 => exact absurd rfl hr
  | _ => rfl

theorem EnvSlot.reg_reset (r : EnvReg) : EnvSlot.reset.reg r = 0 := by cases r <;> rfl

/-- Every register but the constants ID and BQ[u].A0 is 0 after reset (R51, R270). -/
theorem State.reg_reset_of_not_constant {r : Reg} (hid : r ≠ .id) (ha0 : ∀ u, r ≠ .bq u .a0) :
    State.reset.reg r = 0 := by
  cases r with
  | id => exact absurd rfl hid
  | bq u q =>
    have hq : q ≠ .a0 := fun h => ha0 u (h ▸ rfl)
    rw [State.reg, State.bq_get_reset, BqSlot.reg_reset hq]
  | env e q => rw [State.reg, State.env_get_reset, EnvSlot.reg_reset]
  | vca q | opt q | knee q => cases q <;> rfl
  | _ => rfl

/-- RESET leaves the registers of the state after reset: the host's two lists are no registers (R221). -/
theorem exec_reset_reg (s : State) : ∃ t, exec .reset s = .next t ∧ ∀ r, t.reg r = State.reset.reg r :=
  ⟨_, rfl, fun r => (State.reg_with_reads { State.reset with pending := s.pending } s.reads r).trans
    (State.reg_with_pending State.reset s.pending r)⟩

end Sys2Proof.Machine

open Sys2Proof.Machine

/-- Settles O2: RESET leaves the registers of the state after reset, whose constants are ID and A0. -/
theorem resetRestoresEveryRegister : Obligations.ResetRestoresEveryRegister := by
  intro s
  obtain ⟨t, ht, hreg⟩ := exec_reset_reg s
  exact ⟨t, ht, hreg, State.reg_id t, State.reg_a0 t, fun r hid ha0 =>
    (hreg r).trans (State.reg_reset_of_not_constant hid ha0)⟩

/-- Settles O47. -/
theorem resetRegistersAreLegal : Obligations.ResetRegistersAreLegal := registersLegal_reset
end
